-- ==== Sys2Proof/Word.lean ====
section
/-! DEFINITION. The word types of the block: bytes on the data ports, 32-bit arguments and responses
(00_scope.md R7), 12-bit ring positions (R3), 5-bit lengths (10_state.md R27 to R30) and 40-bit command
words (30_encoding.md R80). -/

namespace Sys2Proof

/-- A datum of a data port (00_scope.md R7). -/
abbrev Byte := BitVec 8

/-- An argument, response data word or host-visible register (00_scope.md R7). -/
abbrev Word := BitVec 32

/-- A ring position 0..4095; its addition wraps modulo N = 4096 (00_scope.md R3). -/
abbrev Pos := BitVec 12

/-- The 5-bit lengths and counts ELEN, ETODO, MLEN and CBP (10_state.md R27 to R30). -/
abbrev Len := BitVec 5

/-- A 40-bit command word (30_encoding.md R80). -/
abbrev CommandWord := BitVec 40

end Sys2Proof
end

