-- ==== Sys2Proof/Config.lean ====
section
/-! DEFINITION. The block's fixed parameters and its one named parameter PWD_MAX (00_scope.md R6). -/

namespace Sys2Proof

/-- N, the ring size (00_scope.md R3). -/
abbrev ringSize : Nat := 4096

/-- F, the look-ahead size and the longest match (00_scope.md R4, conflict C1). -/
abbrev lookAhead : Nat := 18

/-- THRESHOLD: a match of at most this length is coded as a literal (00_scope.md R5). -/
abbrev threshold : Nat := 2

/-- The number of entries of CBUF (10_state.md R30). -/
abbrev codeBufferSize : Nat := 17

/-- The start value N − F of R and DR (10_state.md R25, R36). -/
def startPos : Pos := 4078#12

/-- The parameters the host takes as given for one block (00_scope.md R6: "A model takes PWD_MAX as an
argument"). DESIGN CHOICE (log 1): it rides beside the state, where no step changes it. -/
structure Config where
  /-- PWD_MAX, 1..255. -/
  pwdMax : BitVec 8
deriving DecidableEq, Repr

/-- The spec's default, PWD_MAX = 255 (00_scope.md R6). -/
def Config.default : Config := ⟨255#8⟩

end Sys2Proof
end

