-- ==== Sys2Proof/Machine/State.lean ====
section
/-! DEFINITION. The block's state (10_state.md R20): encoder, decoder, obfuscation state, CMDERR; the command
port's inputs and responses beside it; the reasons a step can stop; the reset state (10_state.md R57). -/

namespace Sys2Proof.Machine

/-- An internal array: (index, value) pairs, indices strictly rising, no pair equal to what an unlisted index
reads as. An unlisted index reads as the array's reset value: 0 for a byte, NIL for a link (10_state.md R57,
log 9). -/
abbrev Store (α : Type) := List (Nat × α)

/-- A byte array (EBUF, DBUF, CBUF, PWD; 20_memory.md R60). -/
abbrev Memory := List Host.Cell

/-- EPH, the encoder phase (10_state.md R21). -/
inductive EncPhase where
  /-- 0: look-ahead not yet full -/
  | fill
  /-- 1: encoding -/
  | run
  /-- 2: after ENC.FINISH -/
  | done
  /-- 3: sticky failure -/
  | error
deriving DecidableEq, Repr

/-- DPH, the decoder phase (10_state.md R33); value 1 is never held (log 11). -/
inductive DecPhase where
  /-- 0: accepting compressed bytes -/
  | active
  /-- 2: after DEC.FINISH -/
  | done
  /-- 3: sticky failure -/
  | error
deriving DecidableEq, Repr

/-- DSUB, what the next compressed byte is (10_state.md R34); value 3 is never held (log 11). -/
inductive DecSub where
  /-- 0: a control byte -/
  | ctl
  /-- 1: the first byte of unit DUNIT -/
  | unit
  /-- 2: the second byte of a back-reference -/
  | refhi
deriving DecidableEq, Repr

/-- DEND, how the compressed stream ended (10_state.md R40). -/
inductive DecEnd where
  /-- 0: no DEC.FINISH since DEC.RESET -/
  | none
  /-- 1: between units -/
  | clean
  /-- 2: right after a control byte -/
  | ctlOnly
  /-- 3: between the two bytes of a back-reference -/
  | truncRef
deriving DecidableEq, Repr

/-- A value 0..N+256 of a tree link, and an index of the link arrays (10_state.md R24; log 5). -/
inductive Link where
  /-- 0..N−1: the node of a ring position -/
  | node (p : Pos)
  /-- N: no node -/
  | nil
  /-- N+1+c: the root of the tree of keys whose first byte is c -/
  | root (c : Byte)
deriving DecidableEq, Repr

/-- The tree link arrays (10_state.md R24), indexed by the number of a link. A child link is a node or NIL
(none); a parent link is a node, a root or NIL (log 5). -/
structure Links where
  lson : Store (Option Pos)
  rson : Store (Option Pos)
  dad  : Store Link
deriving DecidableEq, Repr

/-- MLEN and MPOS: the longest match the last INSERT_NODE found and where (10_state.md R29). -/
structure Match where
  len : Len
  pos : Pos
deriving DecidableEq, Repr

/-- The 8-unit output-code buffer CBUF, CBP, GUNITS (10_state.md R30). -/
structure Group where
  cbuf   : Memory
  cbp    : Len
  gunits : BitVec 3
deriving DecidableEq, Repr

/-- The encoder state (10_state.md R21 to R32). -/
structure Enc where
  eph   : EncPhase
  ebuf  : Memory
  links : Links
  r     : Pos
  elen  : Len
  etodo : Len
  best  : Match
  group : Group
  epcur : BitVec 8
  ein   : Word
  eout  : Word
deriving DecidableEq, Repr

/-- The decoder state (10_state.md R33 to R41). -/
structure Dec where
  dph    : DecPhase
  dsub   : DecSub
  dbuf   : Memory
  dr     : Pos
  dctl   : Byte
  dunit  : BitVec 3
  dreflo : Byte
  dpcur  : BitVec 8
  dend   : DecEnd
  din    : Word
  dout   : Word
deriving DecidableEq, Repr

/-- The obfuscation state: the password store PWD and its length PLEN (10_state.md R42). -/
structure Obf where
  pwd  : Memory
  plen : BitVec 8
deriving DecidableEq, Repr

/-- The response codes (60_exceptions.md R221). -/
inductive Code where
  /-- 0: success -/
  | ok
  /-- 1: reserved opcode -/
  | illop
  /-- 2: nonzero reserved argument bits -/
  | rsvd
  /-- 3: a PUT or FINISH with the unit in DONE -/
  | state
  /-- 4: a PUT or FINISH with the unit in ERROR -/
  | failed
  /-- 5: PWD.APPEND with a full password -/
  | pfull
  /-- 6: PWD.APPEND of a zero byte -/
  | pzero
  /-- 7: RDREG of a reserved index -/
  | badreg
deriving DecidableEq, Repr

/-- One response (30_encoding.md R86). -/
structure Response where
  code   : Code
  data   : Word
  encOut : List Byte
  decOut : List Byte
deriving DecidableEq, Repr

/-- What the outside world gives the block between two commands: a command word (30_encoding.md R85) or a
power-on reset (70_reset_and_hazards.md R250; log 4). -/
inductive Input where
  | command (w : CommandWord)
  | powerOn
deriving DecidableEq, Repr

/-- The block's state (10_state.md R20) with the model's own fields cfg (log 1), pending (log 2) and responses
(log 3). -/
structure State where
  enc       : Enc
  dec       : Dec
  obf       : Obf
  cmderr    : Bool
  /-- the named parameter PWD_MAX; constant -/
  cfg       : Config
  /-- the inputs the host will still give, oldest first -/
  pending   : List Input
  /-- the responses given so far, oldest first -/
  responses : List Response
deriving DecidableEq, Repr

/-- Why a step stops with a fault. The block itself has no trap and no fault (60_exceptions.md R225): these stop
only states that no run from reset reaches. -/
inductive Fault where
  /-- Raised by ENC.PUT and ENC.FINISH where INSERT_NODE or DELETE_NODE walks a cycle of tree links and so never
  ends (40_lzss_encoder.md R103, R104; log 6). Safe: the model stops where the rule never completes. -/
  | treeCycle
  /-- Raised by ENC.PUT and ENC.FINISH where CBP leads outside CBUF[0..16] (10_state.md R30; log 7). Safe: the
  spec gives the array no such entry. -/
  | codeBufferIndex
deriving DecidableEq, Repr

/-- Why a step is refused. -/
inductive Refusal where
  /-- Raised by exec for an instruction that has no meaning yet; safe. No arm of this model raises it. -/
  | notModelled (mnemonic : String)
deriving DecidableEq, Repr

/-- Every tree link NIL (10_state.md R57). -/
def Links.empty : Links := ⟨[], [], []⟩

/-- No pending unit: CBUF all 0, CBP = 1, GUNITS = 0 (10_state.md R57). -/
def Group.initial : Group := ⟨[], 1#5, 0#3⟩

/-- The encoder rows of 10_state.md R57. -/
def Enc.initial : Enc where
  eph := .fill
  ebuf := []
  links := Links.empty
  r := startPos
  elen := 0#5
  etodo := 0#5
  best := ⟨0#5, 0#12⟩
  group := Group.initial
  epcur := 0#8
  ein := 0#32
  eout := 0#32

/-- The decoder rows of 10_state.md R57. -/
def Dec.initial : Dec where
  dph := .active
  dsub := .ctl
  dbuf := []
  dr := startPos
  dctl := 0#8
  dunit := 0#3
  dreflo := 0#8
  dpcur := 0#8
  dend := .none
  din := 0#32
  dout := 0#32

/-- The empty password (10_state.md R57). -/
def Obf.initial : Obf := ⟨[], 0#8⟩

/-- The state after power-on reset (10_state.md R57, 70_reset_and_hazards.md R250) of a block with parameters
cfg, nothing pending and no response given. -/
def State.powerOn (cfg : Config) : State where
  enc := Enc.initial
  dec := Dec.initial
  obf := Obf.initial
  cmderr := false
  cfg := cfg
  pending := []
  responses := []

/-- The machine right after reset, with the spec's default PWD_MAX = 255. -/
def State.reset : State := State.powerOn Config.default

end Sys2Proof.Machine
end

