-- ==== Sys2Proof/Machine/Ops.lean ====
section
/-! DEFINITION. The named operations over the arrays, the link arrays, the password and the command port, and
the two shared ways a command is rejected (60_exceptions.md R220 to R223). -/

namespace Sys2Proof.Machine

/-! ## Arrays (20_memory.md R60) -/

/-- The entry at index a; d is what an unlisted index reads as. -/
def Store.read {α : Type} (d : α) : Store α → Nat → α
  | [], _ => d
  | (b, v) :: m, a => if a = b then v else Store.read d m a

/-- The array without a pair at index a. -/
def Store.erase {α : Type} (m : Store α) (a : Nat) : Store α :=
  m.filter (fun c => c.1 != a)

/-- The array with the pair (a, v) put before the first higher index. -/
def Store.insert {α : Type} (a : Nat) (v : α) : Store α → Store α
  | [] => [(a, v)]
  | (b, w) :: m => if a < b then (a, v) :: (b, w) :: m else (b, w) :: Store.insert a v m

/-- A[a] <- v in the canonical form: writing what an unlisted index reads as removes the pair. -/
def Store.write {α : Type} [DecidableEq α] (d : α) (m : Store α) (a : Nat) (v : α) : Store α :=
  if v = d then Store.erase m a else Store.insert a v (Store.erase m a)

/-- Every index of the array is above a. -/
def Store.above {α : Type} (a : Nat) (m : Store α) : Bool :=
  m.all (fun c => decide (a < c.1))

/-- The canonical form: indices strictly rising, below size, no pair equal to what an unlisted index reads as. -/
def Store.wf {α : Type} [DecidableEq α] (d : α) (size : Nat) : Store α → Bool
  | [] => true
  | (a, v) :: m => decide (a < size) && decide (v ≠ d) && Store.above a m && Store.wf d size m

/-- A byte array's entry; an unlisted byte is 0 (10_state.md R57). -/
def Memory.read (m : Memory) (a : Nat) : Byte := Store.read 0#8 m a

/-- A byte array's write. -/
def Memory.write (m : Memory) (a : Nat) (v : Byte) : Memory := Store.write 0#8 m a v

/-- The canonical form of a byte array of the given size. -/
abbrev Memory.wf (size : Nat) (m : Memory) : Prop := Store.wf 0#8 size m = true

/-! ## Tree links (10_state.md R24) -/

/-- A link's number 0..N+256, its index in the link arrays. -/
def Link.index : Link → Nat
  | .node p => p.toNat
  | .nil => 4096
  | .root c => 4097 + c.toNat

/-- A child link as a link: a node or NIL. -/
def Link.ofChild : Option Pos → Link
  | some p => .node p
  | none => .nil

/-- LSON[i]. -/
def Links.getLson (t : Links) (i : Link) : Option Pos := Store.read none t.lson i.index

/-- RSON[i]. -/
def Links.getRson (t : Links) (i : Link) : Option Pos := Store.read none t.rson i.index

/-- DAD[i]. -/
def Links.getDad (t : Links) (i : Link) : Link := Store.read .nil t.dad i.index

/-- LSON[i] <- v. -/
def Links.setLson (t : Links) (i : Link) (v : Option Pos) : Links :=
  { t with lson := Store.write none t.lson i.index v }

/-- RSON[i] <- v. -/
def Links.setRson (t : Links) (i : Link) (v : Option Pos) : Links :=
  { t with rson := Store.write none t.rson i.index v }

/-- DAD[i] <- v; i may be NIL, whose entry is junk no rule reads (10_state.md R24; log 12). -/
def Links.setDad (t : Links) (i : Link) (v : Link) : Links :=
  { t with dad := Store.write .nil t.dad i.index v }

/-! ## Password (42_obfuscation.md) -/

/-- PWD[i] (10_state.md R42). -/
def Obf.byte (f : Obf) (i : Nat) : Byte := Memory.read f.pwd i

/-- PBYTE_TAKE with the cursor cur of either direction: the password byte and the cursor after it
(42_obfuscation.md R181). -/
def pbyteTake (f : Obf) (cur : BitVec 8) : Byte × BitVec 8 :=
  if f.plen = 0#8 then (0#8, cur)
  else (f.byte cur.toNat, BitVec.ofNat 8 ((cur.toNat + 1) % f.plen.toNat))

/-- MASK32: password byte i folded into byte lane i mod 4 (42_obfuscation.md R182). -/
def mask32 (f : Obf) : Word :=
  (List.range f.plen.toNat).foldl
    (fun m i => m ^^^ ((f.byte i).setWidth 32 <<< (8 * (i % 4)))) 0#32

/-! ## The command port -/

/-- The response ends the command (30_encoding.md R86): it is appended to the responses given so far (log 3). -/
def State.respond (s : State) (r : Response) : State :=
  { s with responses := s.responses ++ [r] }

/-- respond(OK, data) with both output lists empty (00_scope.md R8). -/
def State.respondOk (s : State) (data : Word) : State := s.respond ⟨.ok, data, [], []⟩

/-- A rejection that changes nothing: data 0, output lists empty (60_exceptions.md R220). FAILED is one
(R223). -/
def State.reject (s : State) (c : Code) : State := s.respond ⟨c, 0#32, [], []⟩

/-- A command rejected for its own form or operand: CMDERR <- 1 and the code (60_exceptions.md R222). -/
def State.rejectMalformed (s : State) (c : Code) : State :=
  { s with cmderr := true }.reject c

/-- STATE for the encoder: EPH <- ERROR (60_exceptions.md R223). -/
def State.rejectEncDone (s : State) : State :=
  { s with enc := { s.enc with eph := .error } }.reject .state

/-- STATE for the decoder: DPH <- ERROR (60_exceptions.md R223). -/
def State.rejectDecDone (s : State) : State :=
  { s with dec := { s.dec with dph := .error } }.reject .state

/-- Power-on reset as an input: every piece of the block's state at its reset value; what the host still has to
give and the record of the responses are not the block's (70_reset_and_hazards.md R250; log 4). -/
def State.powerOnReset (s : State) : State :=
  { State.powerOn s.cfg with pending := s.pending, responses := s.responses }

/-- Take the oldest input off the command port; none where the host gives none. -/
def State.takeInput (s : State) : Option (Input × State) :=
  match s.pending with
  | [] => none
  | i :: rest => some (i, { s with pending := rest })

end Sys2Proof.Machine
end

