-- ==== Sys2Proof/Machine/Flags.lean ====
section
/-! DEFINITION. The block's flag-like state (10_state.md R56): the literal bits of a control byte, and the codes
of the phases, the end status and CMDERR in STATUS (R47). -/

namespace Sys2Proof.Machine

/-- The control byte with bit k set: unit k is a literal (30_encoding.md R88, 40_lzss_encoder.md R107). -/
def setLiteral (ctl : Byte) (k : BitVec 3) : Byte := ctl ||| (1#8 <<< k.toNat)

/-- Bit k of the control byte: 1 says unit k is a literal (30_encoding.md R88, 41_lzss_decoder.md R153). -/
def isLiteral (ctl : Byte) (k : BitVec 3) : Bool := ctl.getLsbD k.toNat

/-- The value of EPH (10_state.md R21). -/
def EncPhase.bits : EncPhase → BitVec 2
  | .fill => 0#2
  | .run => 1#2
  | .done => 2#2
  | .error => 3#2

/-- The value of DPH (10_state.md R33). -/
def DecPhase.bits : DecPhase → BitVec 2
  | .active => 0#2
  | .done => 2#2
  | .error => 3#2

/-- The value of DSUB (10_state.md R34). -/
def DecSub.bits : DecSub → BitVec 2
  | .ctl => 0#2
  | .unit => 1#2
  | .refhi => 2#2

/-- The value of DEND (10_state.md R40). -/
def DecEnd.bits : DecEnd → BitVec 2
  | .none => 0#2
  | .clean => 1#2
  | .ctlOnly => 2#2
  | .truncRef => 3#2

/-- The value of CMDERR (10_state.md R43). -/
def cmderrBit (e : Bool) : BitVec 1 := BitVec.ofBool e

/-- The value of a response code (60_exceptions.md R221). -/
def Code.bits : Code → Byte
  | .ok => 0#8
  | .illop => 1#8
  | .rsvd => 2#8
  | .state => 3#8
  | .failed => 4#8
  | .pfull => 5#8
  | .pzero => 6#8
  | .badreg => 7#8

/-- STATUS (10_state.md R47). -/
def statusWord (s : State) : Word :=
  0#23 ++ cmderrBit s.cmderr ++ s.dec.dend.bits ++ s.dec.dsub.bits ++ s.dec.dph.bits ++ s.enc.eph.bits

end Sys2Proof.Machine
end

