-- ==== Sys2Proof/Machine/Control.lean ====
section
/-! DEFINITION. The control commands NOP and RDREG (43_control.md R200, R201) and the host-visible registers
(10_state.md R44 to R53). -/

namespace Sys2Proof.Machine

/-- ID: the ASCII bytes "LZSS" (10_state.md R45). -/
def idWord : Word := 0x4C5A5353#32

/-- CONFIG: PWD_MAX, THRESHOLD, F and log2 N in its four bytes (10_state.md R46). -/
def configWord (c : Config) : Word :=
  c.pwdMax ++ 0#4 ++ 2#4 ++ 0#3 ++ 18#5 ++ 0#4 ++ 12#4

/-- ENC_PTR (10_state.md R51). -/
def encPtrWord (e : Enc) : Word :=
  0#7 ++ e.group.gunits ++ e.etodo ++ e.elen ++ e.r

/-- ENC_MATCH (10_state.md R52). -/
def encMatchWord (e : Enc) : Word :=
  0#15 ++ e.best.len ++ e.best.pos

/-- DEC_PTR (10_state.md R53). -/
def decPtrWord (d : Dec) : Word :=
  d.dreflo ++ d.dctl ++ 0#1 ++ d.dunit ++ d.dr

/-- The register with index b; none for a reserved index (10_state.md R44). -/
def readRegister (b : Byte) (s : State) : Option Word :=
  match b.toNat with
  | 0x00 => some idWord
  | 0x01 => some (configWord s.cfg)
  | 0x02 => some (statusWord s)
  | 0x03 => some s.enc.ein
  | 0x04 => some s.enc.eout
  | 0x05 => some s.dec.din
  | 0x06 => some s.dec.dout
  | 0x07 => some (s.obf.plen.setWidth 32)
  | 0x08 => some (s.enc.epcur.setWidth 32)
  | 0x09 => some (s.dec.dpcur.setWidth 32)
  | 0x0A => some (mask32 s.obf)
  | 0x0B => some (encPtrWord s.enc)
  | 0x0C => some (encMatchWord s.enc)
  | 0x0D => some (decPtrWord s.dec)
  | _ => none

/-- NOP (43_control.md R200). -/
def execNop (s : State) : Host.Outcome State Fault Refusal := .next (s.respondOk 0#32)

/-- RDREG b (43_control.md R201). -/
def execRdreg (b : Byte) (s : State) : Host.Outcome State Fault Refusal :=
  match readRegister b s with
  | some v => .next (s.respondOk v)
  | none => .next (s.rejectMalformed .badreg)

end Sys2Proof.Machine
end

