-- ==== Sys2Proof/Machine/Operands.lean ====
section
/-! DEFINITION. The operand forms of the compressed stream: packing and assembling a back-reference
(30_encoding.md R90, R91; 40_lzss_encoder.md R107). The command operands are fields of the command word
(Decode.lean). -/

namespace Sys2Proof.Machine

/-- B0 of a back-reference: position[7:0] (30_encoding.md R90). -/
def refLow (pos : Pos) : Byte := pos.extractLsb' 0 8

/-- B1 of a back-reference: position[11:8], then length − 3 in the low nibble (30_encoding.md R90). -/
def refHigh (pos : Pos) (len : Len) : Byte :=
  pos.extractLsb' 8 4 ++ (len - 3#5).extractLsb' 0 4

/-- The position a back-reference B0 B1 names: {B1[7:4], B0} (30_encoding.md R91). -/
def refPos (b0 b1 : Byte) : Pos := b1.extractLsb' 4 4 ++ b0

/-- The length a back-reference's second byte names: B1[3:0] + 3, 3..18 (30_encoding.md R91). -/
def refLen (b1 : Byte) : Nat := (b1.extractLsb' 0 4).toNat + 3

end Sys2Proof.Machine
end

