-- ==== Sys2Proof/Machine/Decoder.lean ====
section
/-! DEFINITION. The decoder: NEXT_UNIT and the three byte steps (41_lzss_decoder.md R151 to R154) and the commands
DEC.RESET, DEC.PUT, DEC.FINISH (R155 to R157). -/

namespace Sys2Proof.Machine

/-- NEXT_UNIT (41_lzss_decoder.md R151). -/
def Dec.nextUnit (d : Dec) : Dec :=
  if d.dunit = 7#3 then { d with dunit := 0#3, dsub := .ctl }
  else { d with dunit := d.dunit + 1#3, dsub := .unit }

/-- DBUF[DR] <- c; DR <- (DR + 1) mod N (41_lzss_decoder.md R150). -/
def Dec.put (d : Dec) (c : Byte) : Dec :=
  { d with dbuf := d.dbuf.write d.dr.toNat c, dr := d.dr + 1#12 }

/-- The control byte step (41_lzss_decoder.md R152). -/
def decControl (f : Obf) (b : Byte) (d : Dec) : Dec :=
  let p := pbyteTake f d.dpcur
  { d with dctl := b ^^^ p.1, dunit := 0#3, dsub := .unit, dpcur := p.2 }

/-- The unit step: a literal, or the first byte of a back-reference (41_lzss_decoder.md R153). -/
def decUnit (b : Byte) (d : Dec) : Dec × List Byte :=
  if isLiteral d.dctl d.dunit then ((d.put b).nextUnit, [b])
  else ({ d with dreflo := b, dsub := .refhi }, [])

/-- The copy loop of a back-reference: one byte at a time from src on, each read after the write before it
(41_lzss_decoder.md R154). -/
def decCopy : (len : Nat) → (src : Pos) → Dec → Dec × List Byte
  | 0, _, d => (d, [])
  | len + 1, src, d =>
    let c := d.dbuf.read src.toNat
    let rest := decCopy len (src + 1#12) (d.put c)
    (rest.1, c :: rest.2)

/-- The back-reference step (41_lzss_decoder.md R154). -/
def decRef (b : Byte) (d : Dec) : Dec × List Byte :=
  let rest := decCopy (refLen b) (refPos d.dreflo b) d
  (rest.1.nextUnit, rest.2)

/-- The byte step DSUB selects (41_lzss_decoder.md R156). -/
def decByte (f : Obf) (b : Byte) (d : Dec) : Dec × List Byte :=
  match d.dsub with
  | .ctl => (decControl f b d, [])
  | .unit => decUnit b d
  | .refhi => decRef b d

/-- DIN and DOUT after a DEC.PUT that emitted out (41_lzss_decoder.md R156). -/
def Dec.countPut (d : Dec) (out : List Byte) : Dec :=
  { d with din := d.din + 1#32, dout := d.dout + BitVec.ofNat 32 out.length }

/-- The response OK of a DEC.PUT that emitted out (41_lzss_decoder.md R156). -/
def State.respondDec (s : State) (d : Dec) (out : List Byte) : State :=
  { s with dec := d }.respond ⟨.ok, BitVec.ofNat 32 out.length, [], out⟩

/-- How the compressed stream ends here (41_lzss_decoder.md R157). -/
def Dec.endStatus (d : Dec) : DecEnd :=
  match d.dsub with
  | .refhi => .truncRef
  | .unit => if d.dunit = 0#3 then .ctlOnly else .clean
  | .ctl => .clean

/-- DEC.RESET (41_lzss_decoder.md R155). -/
def execDecReset (s : State) : Host.Outcome State Fault Refusal :=
  .next ({ s with dec := Dec.initial }.respondOk 0#32)

/-- DEC.PUT b (41_lzss_decoder.md R156). -/
def execDecPut (b : Byte) (s : State) : Host.Outcome State Fault Refusal :=
  match s.dec.dph with
  | .error => .next (s.reject .failed)
  | .done => .next s.rejectDecDone
  | .active =>
    let r := decByte s.obf b s.dec
    .next (s.respondDec (r.1.countPut r.2) r.2)

/-- DEC.FINISH (41_lzss_decoder.md R157). -/
def execDecFinish (s : State) : Host.Outcome State Fault Refusal :=
  match s.dec.dph with
  | .error => .next (s.reject .failed)
  | .done => .next s.rejectDecDone
  | .active =>
    .next ({ s with dec := { s.dec with dend := s.dec.endStatus, dph := .done } }.respondOk
      (s.dec.endStatus.bits.setWidth 32))

end Sys2Proof.Machine
end

