-- ==== Sys2Proof/Machine/MatchFinder.lean ====
section
/-! DEFINITION. The encoder's match finder: key comparison, INSERT_NODE, DELETE_NODE (40_lzss_encoder.md R101 to
R104). -/

namespace Sys2Proof.Machine

/-- The comparison loop of 40_lzss_encoder.md R102 from byte i on, with left bytes to go: the number of leading
equal bytes and the integer difference of the first unequal ones (0 if none). Indices are not reduced
(20_memory.md R65). -/
def compareFrom (ring : Memory) (r p : Nat) : (left : Nat) → (i : Nat) → Nat × Int
  | 0, i => (i, 0)
  | left + 1, i =>
    let cmp : Int := (ring.read (r + i)).toNat - (ring.read (p + i)).toNat
    if cmp ≠ 0 then (i, cmp) else compareFrom ring r p left (i + 1)

/-- Compare the keys at r and p, bytes 1 to F − 1 (40_lzss_encoder.md R102). -/
def compareKeys (ring : Memory) (r p : Pos) : Nat × Int :=
  compareFrom ring r.toNat p.toNat (lookAhead - 1) 1

/-- RSON[i] where the comparison says greater or equal, else LSON[i] (40_lzss_encoder.md R103). -/
def Links.child (t : Links) (cmp : Int) (i : Link) : Option Pos :=
  if 0 ≤ cmp then t.getRson i else t.getLson i

/-- r becomes the child of i that was NIL: RSON[i] <- r or LSON[i] <- r, then DAD[r] <- i
(40_lzss_encoder.md R103). -/
def Links.attach (t : Links) (cmp : Int) (i : Link) (r : Pos) : Links :=
  (if 0 ≤ cmp then t.setRson i (some r) else t.setLson i (some r)).setDad (.node r) i

/-- The parent of p points at v instead: RSON[DAD[p]] <- v if RSON[DAD[p]] = p, else LSON[DAD[p]] <- v
(40_lzss_encoder.md R103, R104). -/
def Links.relinkParent (t : Links) (p : Pos) (v : Option Pos) : Links :=
  if t.getRson (t.getDad (.node p)) = some p then t.setRson (t.getDad (.node p)) v
  else t.setLson (t.getDad (.node p)) v

/-- r takes the place of p, a node with the same F-byte key (40_lzss_encoder.md R103, after the loop). -/
def Links.replace (t : Links) (r p : Pos) : Links :=
  let t := t.setDad (.node r) (t.getDad (.node p))
  let t := t.setLson (.node r) (t.getLson (.node p))
  let t := t.setRson (.node r) (t.getRson (.node p))
  let t := t.setDad (Link.ofChild (t.getLson (.node p))) (.node r)
  let t := t.setDad (Link.ofChild (t.getRson (.node p))) (.node r)
  let t := t.relinkParent p (some r)
  t.setDad (.node p) .nil

/-- The search loop of INSERT_NODE (40_lzss_encoder.md R103) at link i with the comparison cmp. The counter is
the number of links the loop may still look at: a loop that looks at more than N + 1 links has met a node
twice and never ends (log 6). -/
def insertLoop (ring : Memory) (r : Pos) (t : Links) :
    Nat → Link → Int → Match → Except Fault (Links × Match)
  | 0, _, _, _ => .error .treeCycle
  | n + 1, i, cmp, m =>
    match t.child cmp i with
    | none => .ok (t.attach cmp i r, m)
    | some p =>
      let c := compareKeys ring r p
      if m.len.toNat < c.1 then
        if lookAhead ≤ c.1 then .ok (t.replace r p, ⟨BitVec.ofNat 5 c.1, p⟩)
        else insertLoop ring r t n (.node p) c.2 ⟨BitVec.ofNat 5 c.1, p⟩
      else insertLoop ring r t n (.node p) c.2 m

/-- INSERT_NODE(r) on the link arrays, with the MLEN and MPOS it leaves (40_lzss_encoder.md R103). -/
def insertLinks (ring : Memory) (r : Pos) (t : Links) (m : Match) : Except Fault (Links × Match) :=
  insertLoop ring r ((t.setRson (.node r) none).setLson (.node r) none) (ringSize + 1)
    (.root (ring.read r.toNat)) 1 ⟨0#5, m.pos⟩

/-- INSERT_NODE(r) (40_lzss_encoder.md R103). -/
def insertNode (r : Pos) (e : Enc) : Except Fault Enc :=
  match insertLinks e.ebuf r e.links e.best with
  | .error f => .error f
  | .ok (t, m) => .ok { e with links := t, best := m }

/-- The walk "repeat q <- RSON[q] while RSON[q] != NIL" of DELETE_NODE (40_lzss_encoder.md R104), started at q
itself: the last node on the right. The counter is as in insertLoop (log 6). -/
def rightmost (t : Links) : Nat → Pos → Except Fault Pos
  | 0, _ => .error .treeCycle
  | n + 1, q =>
    match t.getRson (.node q) with
    | none => .ok q
    | some q' => rightmost t n q'

/-- The in-order predecessor q of p leaves its place, its left subtree moves up, and q takes over LSON[p]
(40_lzss_encoder.md R104, the lines after the repeat). -/
def Links.liftPredecessor (t : Links) (p q : Pos) : Links :=
  let t := t.setRson (t.getDad (.node q)) (t.getLson (.node q))
  let t := t.setDad (Link.ofChild (t.getLson (.node q))) (t.getDad (.node q))
  let t := t.setLson (.node q) (t.getLson (.node p))
  t.setDad (Link.ofChild (t.getLson (.node p))) (.node q)

/-- q takes over RSON[p] (40_lzss_encoder.md R104). -/
def Links.takeRight (t : Links) (p q : Pos) : Links :=
  let t := t.setRson (.node q) (t.getRson (.node p))
  t.setDad (Link.ofChild (t.getRson (.node p))) (.node q)

/-- The last lines of DELETE_NODE: q, a node or NIL, takes the place of p under DAD[p]
(40_lzss_encoder.md R104). -/
def Links.unlink (t : Links) (p : Pos) (q : Option Pos) : Links :=
  let t := t.setDad (Link.ofChild q) (t.getDad (.node p))
  let t := t.relinkParent p q
  t.setDad (.node p) .nil

/-- DELETE_NODE(p) on the link arrays (40_lzss_encoder.md R104). -/
def deleteLinks (p : Pos) (t : Links) : Except Fault Links :=
  if t.getDad (.node p) = .nil then .ok t
  else
    match t.getRson (.node p), t.getLson (.node p) with
    | none, q => .ok (t.unlink p q)
    | some q, none => .ok (t.unlink p (some q))
    | some _, some l =>
      match t.getRson (.node l) with
      | none => .ok ((t.takeRight p l).unlink p (some l))
      | some _ =>
        match rightmost t (ringSize + 1) l with
        | .error f => .error f
        | .ok q => .ok (((t.liftPredecessor p q).takeRight p q).unlink p (some q))

/-- DELETE_NODE(p) (40_lzss_encoder.md R104). -/
def deleteNode (p : Pos) (e : Enc) : Except Fault Enc :=
  match deleteLinks p e.links with
  | .error f => .error f
  | .ok t => .ok { e with links := t }

end Sys2Proof.Machine
end

