-- ==== Sys2Proof/Machine/Encoder.lean ====
section
/-! DEFINITION. The encoder: START, EMIT_GROUP, EMIT_UNIT, CONSUME, ADVANCE_EMPTY, DRAIN (40_lzss_encoder.md R105
to R110) and the commands ENC.RESET, ENC.PUT, ENC.FINISH (R111 to R113). -/

namespace Sys2Proof.Machine

/-- S = (R + F) mod N, the oldest window position (10_state.md R26). -/
def Enc.s (e : Enc) : Pos := e.r + 18#12

/-- The INSERT_NODE(R − i) of START for i from the given value on, left of them (40_lzss_encoder.md R105). -/
def startFrom : (left : Nat) → (i : Nat) → Enc → Except Fault Enc
  | 0, _, e => .ok e
  | left + 1, i, e =>
    match insertNode (e.r - BitVec.ofNat 12 i) e with
    | .error f => .error f
    | .ok e => startFrom left (i + 1) e

/-- START (40_lzss_encoder.md R105). -/
def start (e : Enc) : Except Fault Enc :=
  match startFrom lookAhead 1 e with
  | .error f => .error f
  | .ok e => insertNode e.r e

/-- CBUF[CBP] <- b; CBP <- CBP + 1 (40_lzss_encoder.md R107). An index outside CBUF[0..16] faults (log 7). -/
def Group.push (g : Group) (b : Byte) : Except Fault Group :=
  if g.cbp.toNat < codeBufferSize then
    .ok { g with cbuf := g.cbuf.write g.cbp.toNat b, cbp := g.cbp + 1#5 }
  else .error .codeBufferIndex

/-- A literal unit: control bit GUNITS set and the byte stored (40_lzss_encoder.md R107). -/
def Group.addLiteral (g : Group) (b : Byte) : Except Fault Group :=
  ({ g with cbuf := g.cbuf.write 0 (setLiteral (g.cbuf.read 0) g.gunits) }).push b

/-- A back-reference unit: its two bytes stored, control bit GUNITS left 0 (40_lzss_encoder.md R107). -/
def Group.addRef (g : Group) (m : Match) : Except Fault Group :=
  match g.push (refLow m.pos) with
  | .error f => .error f
  | .ok g => g.push (refHigh m.pos m.len)

/-- CBUF[1..CBP−1], the unit bytes of the pending group (10_state.md R30). -/
def Group.unitBytes (g : Group) : List Byte :=
  (List.range' 1 (g.cbp.toNat - 1)).map g.cbuf.read

/-- CBUF[0] <- 0; CBP <- 1; GUNITS <- 0 (40_lzss_encoder.md R106); the other bytes stay stale (log 12). -/
def Group.restart (g : Group) : Group :=
  { cbuf := g.cbuf.write 0 0#8, cbp := 1#5, gunits := 0#3 }

/-- EMIT_GROUP: the encoder after it and the bytes emitted (40_lzss_encoder.md R106). A CBP past the end of CBUF
faults (log 7). -/
def emitGroup (f : Obf) (e : Enc) : Except Fault (Enc × List Byte) :=
  if e.group.cbp.toNat ≤ codeBufferSize then
    let p := pbyteTake f e.epcur
    .ok ({ e with group := e.group.restart, epcur := p.2 },
      (e.group.cbuf.read 0 ^^^ p.1) :: e.group.unitBytes)
  else .error .codeBufferIndex

/-- MLEN clipped to the valid look-ahead (40_lzss_encoder.md R107). -/
def Enc.clippedLen (e : Enc) : Len := if e.elen < e.best.len then e.elen else e.best.len

/-- The unit of EMIT_UNIT entered into the group buffer: MLEN as it leaves it, and the buffer
(40_lzss_encoder.md R107). -/
def codeUnit (e : Enc) : Except Fault Enc :=
  if e.clippedLen.toNat ≤ threshold then
    match e.group.addLiteral (e.ebuf.read e.r.toNat) with
    | .error f => .error f
    | .ok g => .ok { e with best := { e.best with len := 1#5 }, group := g }
  else
    match e.group.addRef { e.best with len := e.clippedLen } with
    | .error f => .error f
    | .ok g => .ok { e with best := { e.best with len := e.clippedLen }, group := g }

/-- The end of EMIT_UNIT: the eighth unit completes the group (40_lzss_encoder.md R107). -/
def countUnit (f : Obf) (e : Enc) : Except Fault (Enc × List Byte) :=
  if e.group.gunits = 7#3 then emitGroup f e
  else .ok ({ e with group := { e.group with gunits := e.group.gunits + 1#3 } }, [])

/-- EMIT_UNIT: the encoder after it and the bytes emitted; the length it returns is the MLEN it leaves
(40_lzss_encoder.md R107). -/
def emitUnit (f : Obf) (e : Enc) : Except Fault (Enc × List Byte) :=
  match codeUnit e with
  | .error x => .error x
  | .ok e => countUnit f e

/-- EBUF[s] <- c, and the mirror EBUF[s + N] for s < F − 1 (40_lzss_encoder.md R108, 10_state.md R23). -/
def writeRing (ring : Memory) (s : Pos) (c : Byte) : Memory :=
  if s.toNat < lookAhead - 1 then (ring.write s.toNat c).write (s.toNat + ringSize) c
  else ring.write s.toNat c

/-- CONSUME(c) (40_lzss_encoder.md R108). -/
def consume (c : Byte) (e : Enc) : Except Fault Enc :=
  match deleteNode e.s e with
  | .error f => .error f
  | .ok e =>
    let e := { e with ebuf := writeRing e.ebuf e.s c, r := e.r + 1#12 }
    insertNode e.r e

/-- ADVANCE_EMPTY (40_lzss_encoder.md R109). -/
def advanceEmpty (e : Enc) : Except Fault Enc :=
  match deleteNode e.s e with
  | .error f => .error f
  | .ok e =>
    let e := { e with r := e.r + 1#12, elen := e.elen - 1#5 }
    if e.elen = 0#5 then .ok e else insertNode e.r e

/-- repeat t: ADVANCE_EMPTY (00_scope.md R8). -/
def advanceEmptyTimes : Nat → Enc → Except Fault Enc
  | 0, e => .ok e
  | t + 1, e =>
    match advanceEmpty e with
    | .error f => .error f
    | .ok e => advanceEmptyTimes t e

/-- The loop of DRAIN (40_lzss_encoder.md R110): a unit at a time while ELEN > 0. Every round covers at least one
byte of the look-ahead, so ELEN rounds are enough for the counter. -/
def drainLoop (f : Obf) : Nat → Enc → Except Fault (Enc × List Byte)
  | 0, e => .ok (e, [])
  | n + 1, e =>
    if e.elen = 0#5 then .ok (e, [])
    else
      match emitUnit f e with
      | .error x => .error x
      | .ok (e, out) =>
        match advanceEmptyTimes e.best.len.toNat e with
        | .error x => .error x
        | .ok e =>
          match drainLoop f n e with
          | .error x => .error x
          | .ok (e, more) => .ok (e, out ++ more)

/-- The last line of DRAIN: a partial group is emitted, none if no unit is pending (40_lzss_encoder.md R110,
conflict C7). -/
def flushPartial (f : Obf) (e : Enc) : Except Fault (Enc × List Byte) :=
  if 1 < e.group.cbp.toNat then emitGroup f e else .ok (e, [])

/-- DRAIN (40_lzss_encoder.md R110). -/
def drain (f : Obf) (e : Enc) : Except Fault (Enc × List Byte) :=
  match drainLoop f e.elen.toNat e with
  | .error x => .error x
  | .ok (e, out) =>
    match flushPartial f e with
    | .error x => .error x
    | .ok (e, more) => .ok (e, out ++ more)

/-- EMIT_UNIT with its length put into ETODO (40_lzss_encoder.md R112). -/
def emitUnitTodo (f : Obf) (e : Enc) : Except Fault (Enc × List Byte) :=
  match emitUnit f e with
  | .error x => .error x
  | .ok (e, out) => .ok ({ e with etodo := e.best.len }, out)

/-- EBUF[R + ELEN] <- b; ELEN <- ELEN + 1 (40_lzss_encoder.md R112). The index is a ring position, reduced modulo N
(20_memory.md R65, log 10). -/
def storeLookAhead (b : Byte) (e : Enc) : Enc :=
  { e with ebuf := e.ebuf.write (e.r + e.elen.setWidth 12).toNat b, elen := e.elen + 1#5 }

/-- ENC.PUT in FILL (40_lzss_encoder.md R112). -/
def putFill (f : Obf) (b : Byte) (e : Enc) : Except Fault (Enc × List Byte) :=
  if (storeLookAhead b e).elen = 18#5 then
    match start (storeLookAhead b e) with
    | .error x => .error x
    | .ok e =>
      match emitUnitTodo f e with
      | .error x => .error x
      | .ok (e, out) => .ok ({ e with eph := .run }, out)
  else .ok (storeLookAhead b e, [])

/-- ENC.PUT in RUN (40_lzss_encoder.md R112). -/
def putRun (f : Obf) (b : Byte) (e : Enc) : Except Fault (Enc × List Byte) :=
  match consume b e with
  | .error x => .error x
  | .ok e =>
    if e.etodo - 1#5 = 0#5 then emitUnitTodo f { e with etodo := e.etodo - 1#5 }
    else .ok ({ e with etodo := e.etodo - 1#5 }, [])

/-- ENC.FINISH in FILL (40_lzss_encoder.md R113). -/
def finishFill (f : Obf) (e : Enc) : Except Fault (Enc × List Byte) :=
  if e.elen = 0#5 then .ok (e, [])
  else
    match start e with
    | .error x => .error x
    | .ok e => drain f e

/-- ENC.FINISH in RUN (40_lzss_encoder.md R113). -/
def finishRun (f : Obf) (e : Enc) : Except Fault (Enc × List Byte) :=
  match advanceEmptyTimes e.etodo.toNat e with
  | .error x => .error x
  | .ok e => drain f { e with etodo := 0#5 }

/-- EIN and EOUT after an ENC.PUT that emitted out (40_lzss_encoder.md R112). -/
def Enc.countPut (e : Enc) (out : List Byte) : Enc :=
  { e with ein := e.ein + 1#32, eout := e.eout + BitVec.ofNat 32 out.length }

/-- EPH <- DONE and EOUT after an ENC.FINISH that emitted out (40_lzss_encoder.md R113). -/
def Enc.countFinish (e : Enc) (out : List Byte) : Enc :=
  { e with eph := .done, eout := e.eout + BitVec.ofNat 32 out.length }

/-- The response OK of an encoder command that emitted out (40_lzss_encoder.md R112, R113). -/
def State.respondEnc (s : State) (e : Enc) (out : List Byte) : State :=
  { s with enc := e }.respond ⟨.ok, BitVec.ofNat 32 out.length, out, []⟩

/-- ENC.RESET (40_lzss_encoder.md R111). -/
def execEncReset (s : State) : Host.Outcome State Fault Refusal :=
  .next ({ s with enc := Enc.initial }.respondOk 0#32)

/-- ENC.PUT b (40_lzss_encoder.md R112). -/
def execEncPut (b : Byte) (s : State) : Host.Outcome State Fault Refusal :=
  match s.enc.eph with
  | .error => .next (s.reject .failed)
  | .done => .next s.rejectEncDone
  | .fill =>
    match putFill s.obf b s.enc with
    | .error x => .fault x
    | .ok (e, out) => .next (s.respondEnc (e.countPut out) out)
  | .run =>
    match putRun s.obf b s.enc with
    | .error x => .fault x
    | .ok (e, out) => .next (s.respondEnc (e.countPut out) out)

/-- ENC.FINISH (40_lzss_encoder.md R113). -/
def execEncFinish (s : State) : Host.Outcome State Fault Refusal :=
  match s.enc.eph with
  | .error => .next (s.reject .failed)
  | .done => .next s.rejectEncDone
  | .fill =>
    match finishFill s.obf s.enc with
    | .error x => .fault x
    | .ok (e, out) => .next (s.respondEnc (e.countFinish out) out)
  | .run =>
    match finishRun s.obf s.enc with
    | .error x => .fault x
    | .ok (e, out) => .next (s.respondEnc (e.countFinish out) out)

end Sys2Proof.Machine
end

