-- ==== Sys2Proof/Machine/Obfuscation.lean ====
section
/-! DEFINITION. The obfuscation filter's commands PWD.CLEAR, PWD.APPEND, OBF32 (42_obfuscation.md R183 to R185). -/

namespace Sys2Proof.Machine

/-- PWD.CLEAR: the password empty, both cursors 0 (42_obfuscation.md R183). -/
def execPwdClear (s : State) : Host.Outcome State Fault Refusal :=
  .next ({ s with obf := Obf.initial, enc := { s.enc with epcur := 0#8 },
                  dec := { s.dec with dpcur := 0#8 } }.respondOk 0#32)

/-- PWD[PLEN] <- b; PLEN <- PLEN + 1 (42_obfuscation.md R184). -/
def Obf.append (f : Obf) (b : Byte) : Obf :=
  { pwd := f.pwd.write f.plen.toNat b, plen := f.plen + 1#8 }

/-- PWD.APPEND b: PZERO before PFULL (42_obfuscation.md R184, 60_exceptions.md R224). PLEN above PWD_MAX, which no
run reaches, is full as well (log 8). -/
def execPwdAppend (b : Byte) (s : State) : Host.Outcome State Fault Refusal :=
  if b = 0#8 then .next (s.rejectMalformed .pzero)
  else if s.cfg.pwdMax ≤ s.obf.plen then .next (s.rejectMalformed .pfull)
  else .next ({ s with obf := s.obf.append b }.respondOk 0#32)

/-- OBF32 v: v XOR MASK32 (42_obfuscation.md R185). -/
def execObf32 (v : Word) (s : State) : Host.Outcome State Fault Refusal :=
  .next (s.respondOk (v ^^^ mask32 s.obf))

end Sys2Proof.Machine
end

