-- ==== Sys2Proof/Syntax.lean ====
section
/-! DEFINITION. The eleven commands (spec/opcode_table.json, 30_encoding.md R82), one constructor a row. -/

namespace Sys2Proof

/-- A command with its operand (30_encoding.md R81, R82): no operand (format Z), a byte (format B) or a
32-bit value (format W). -/
inductive Instr where
  /-- NOP: do nothing (43_control.md R200). -/
  | nop
  /-- ENC.RESET: start a new compressed stream (40_lzss_encoder.md R111). -/
  | encReset
  /-- ENC.PUT b: feed one raw byte (40_lzss_encoder.md R112). -/
  | encPut (b : Byte)
  /-- ENC.FINISH: end of data (40_lzss_encoder.md R113). -/
  | encFinish
  /-- DEC.RESET: start decoding a new stream (41_lzss_decoder.md R155). -/
  | decReset
  /-- DEC.PUT b: feed one compressed byte (41_lzss_decoder.md R156). -/
  | decPut (b : Byte)
  /-- DEC.FINISH: end of the compressed bytes (41_lzss_decoder.md R157). -/
  | decFinish
  /-- PWD.CLEAR: make the password empty (42_obfuscation.md R183). -/
  | pwdClear
  /-- PWD.APPEND b: append one byte to the password (42_obfuscation.md R184). -/
  | pwdAppend (b : Byte)
  /-- OBF32 v: mask a 32-bit header value (42_obfuscation.md R185). -/
  | obf32 (v : Word)
  /-- RDREG b: read the register with index b (43_control.md R201). -/
  | rdreg (b : Byte)
deriving DecidableEq, Repr

end Sys2Proof
end

