-- ==== Sys2Proof/Machine/Dispatch.lean ====
section
/-! DEFINITION. exec: one meaning per command (30_encoding.md R82). -/

namespace Sys2Proof.Machine

/-- The meaning of a command (30_encoding.md R85, "perform the rule of OP"). -/
def exec (i : Instr) (s : State) : Host.Outcome State Fault Refusal :=
  match i with
  | .nop => Sys2Proof.Machine.execNop s
  | .encReset => Sys2Proof.Machine.execEncReset s
  | .encPut b => Sys2Proof.Machine.execEncPut b s
  | .encFinish => Sys2Proof.Machine.execEncFinish s
  | .decReset => Sys2Proof.Machine.execDecReset s
  | .decPut b => Sys2Proof.Machine.execDecPut b s
  | .decFinish => Sys2Proof.Machine.execDecFinish s
  | .pwdClear => Sys2Proof.Machine.execPwdClear s
  | .pwdAppend b => Sys2Proof.Machine.execPwdAppend b s
  | .obf32 v => Sys2Proof.Machine.execObf32 v s
  | .rdreg b => Sys2Proof.Machine.execRdreg b s

end Sys2Proof.Machine
end

