-- ==== Sys2Proof/Decode.lean ====
section
/-! DEFINITION. The decoder of the 40-bit command word, total on every word, and the encoder written from the
same tables (30_encoding.md R80 to R85). -/

namespace Sys2Proof

/-- Why a word is no command: the response code it gets (30_encoding.md R83, R84). -/
inductive DecodeError where
  /-- reserved opcode -/
  | illop
  /-- nonzero reserved argument bits -/
  | rsvd
deriving DecidableEq, Repr

/-- OP, bits [39:32] (30_encoding.md R80). -/
def opcodeOf (w : CommandWord) : Byte := w.extractLsb' 32 8

/-- ARG, bits [31:0] (30_encoding.md R80). -/
def argOf (w : CommandWord) : Word := w.extractLsb' 0 32

/-- Format Z: ARG must be 0 (30_encoding.md R81, R84). -/
def decodeZ (arg : Word) (i : Instr) : Except DecodeError Instr :=
  if arg = 0#32 then .ok i else .error .rsvd

/-- Format B: ARG[31:8] must be 0 and ARG[7:0] is the operand (30_encoding.md R81, R84). -/
def decodeB (arg : Word) (f : Byte → Instr) : Except DecodeError Instr :=
  if arg.extractLsb' 8 24 = 0#24 then .ok (f (arg.extractLsb' 0 8)) else .error .rsvd

/-- The opcode map (30_encoding.md R82, R83); the opcode is checked before the argument (R85, R224). -/
def decode (w : CommandWord) : Except DecodeError Instr :=
  match (opcodeOf w).toNat with
  | 0x00 => decodeZ (argOf w) .nop
  | 0x01 => decodeZ (argOf w) .encReset
  | 0x02 => decodeB (argOf w) .encPut
  | 0x03 => decodeZ (argOf w) .encFinish
  | 0x08 => decodeZ (argOf w) .decReset
  | 0x09 => decodeB (argOf w) .decPut
  | 0x0A => decodeZ (argOf w) .decFinish
  | 0x10 => decodeZ (argOf w) .pwdClear
  | 0x11 => decodeB (argOf w) .pwdAppend
  | 0x12 => .ok (.obf32 (argOf w))
  | 0x20 => decodeB (argOf w) .rdreg
  | _ => .error .illop

/-- {OP, ARG} with no operand (30_encoding.md R80, R81). -/
def encodeZ (op : Byte) : CommandWord := op ++ 0#32

/-- {OP, 0, b} (30_encoding.md R81). -/
def encodeB (op b : Byte) : CommandWord := op ++ (0#24 ++ b)

/-- {OP, v} (30_encoding.md R81). -/
def encodeW (op : Byte) (v : Word) : CommandWord := op ++ v

/-- The word of a command (30_encoding.md R80 to R82). -/
def encode : Instr → CommandWord
  | .nop => encodeZ 0x00
  | .encReset => encodeZ 0x01
  | .encPut b => encodeB 0x02 b
  | .encFinish => encodeZ 0x03
  | .decReset => encodeZ 0x08
  | .decPut b => encodeB 0x09 b
  | .decFinish => encodeZ 0x0A
  | .pwdClear => encodeZ 0x10
  | .pwdAppend b => encodeB 0x11 b
  | .obf32 v => encodeW 0x12 v
  | .rdreg b => encodeB 0x20 b

/-- The 40-bit word whose bits are numbered as spec/opcode_table.json numbers them; the bits above nbits
are 0. -/
def tableWord (nbits w : Nat) : CommandWord := BitVec.ofNat 40 (w % 2 ^ nbits)

/-- The instruction the decoder reads from a word of spec/opcode_table.json; none where it refuses. -/
def decodeTableWord (nbits w : Nat) : Option Instr :=
  match decode (tableWord nbits w) with
  | .ok i => some i
  | .error _ => none

end Sys2Proof
end

