-- ==== Sys2Proof/Machine/Fetch.lean ====
section
/-! DEFINITION. What the step calls around exec: the rejection of a word that is no command (30_encoding.md R83,
R84) and the placing of a word on the command port. -/

namespace Sys2Proof.Machine

/-- The response code of a word that is no command (30_encoding.md R83, R84). -/
def DecodeError.code : DecodeError → Code
  | .illop => .illop
  | .rsvd => .rsvd

/-- A word that is no command: CMDERR <- 1 and ILLOP or RSVD, nothing else changed (30_encoding.md R85). -/
def rejectWord (e : DecodeError) (s : State) : State := s.rejectMalformed (DecodeError.code e)

/-- The word w is the next input of the command port, before those already waiting (log 2). -/
def State.placeWord (s : State) (w : CommandWord) : State :=
  { s with pending := .command w :: s.pending }

end Sys2Proof.Machine
end

