-- ==== Sys2Proof/Machine/Step.lean ====
section
/-! DEFINITION. One step: the block takes the oldest input and carries out its whole effect (30_encoding.md R85,
20_memory.md R66, 70_reset_and_hazards.md R259). -/

namespace Sys2Proof.Machine

/-- One step. With no input the block holds its state (60_exceptions.md R235). A command word is decoded and
performed, or rejected with ILLOP or RSVD (30_encoding.md R85). -/
def step (s : State) : Host.Outcome State Fault Refusal :=
  match s.takeInput with
  | none => .next s
  | some (.powerOn, s) => .next s.powerOnReset
  | some (.command w, s) =>
    match decode w with
    | .ok i => exec i s
    | .error e => .next (rejectWord e s)

/-- s with the word of a table row waiting on the command port as the next input (log 2). -/
def State.withFetchWord (s : State) (nbits w : Nat) : State := s.placeWord (tableWord nbits w)

end Sys2Proof.Machine
end

