-- ==== Sys2Proof/Machine/Assembler.lean ====
section
/-! DEFINITION. The assembler syntax and the pseudo-instructions (30_encoding.md R95, R96). No command's meaning
uses this file: it says which command a source line stands for. -/

namespace Sys2Proof

/-- The mnemonics of 30_encoding.md R95. -/
inductive Mnemonic where
  | nop | encReset | encPut | encFinish | decReset | decPut | decFinish
  | pwdClear | pwdAppend | obf32 | rdreg
deriving DecidableEq, Repr

/-- The register names of 30_encoding.md R95. -/
inductive RegName where
  | id | config | status | encIn | encOut | decIn | decOut | pwdLen
  | encPcur | decPcur | mask | encPtr | encMatch | decPtr
deriving DecidableEq, Repr

/-- An operand as written (30_encoding.md R95). -/
inductive Operand where
  | number (n : Nat)
  /-- one printable ASCII character -/
  | char (c : Char)
  | reg (r : RegName)
deriving DecidableEq, Repr

/-- Why a line is refused (30_encoding.md R95). -/
inductive AsmError where
  | unknownMnemonic
  /-- the operand's text is no number, character or register name -/
  | badOperand
  /-- "an assembler refuses an operand out of range" -/
  | outOfRange
  /-- "a missing operand" -/
  | missingOperand
  /-- "an operand on a format Z mnemonic" -/
  | unexpectedOperand
  /-- "a register name on any mnemonic but RDREG" -/
  | registerNotAllowed
  /-- text after the operand that is no comment -/
  | trailingText
deriving DecidableEq, Repr

/-- The index a register name stands for (10_state.md R44). -/
def RegName.index : RegName → Byte
  | .id => 0x00#8
  | .config => 0x01#8
  | .status => 0x02#8
  | .encIn => 0x03#8
  | .encOut => 0x04#8
  | .decIn => 0x05#8
  | .decOut => 0x06#8
  | .pwdLen => 0x07#8
  | .encPcur => 0x08#8
  | .decPcur => 0x09#8
  | .mask => 0x0A#8
  | .encPtr => 0x0B#8
  | .encMatch => 0x0C#8
  | .decPtr => 0x0D#8

/-- A printable ASCII character (30_encoding.md R95). -/
def isPrintable (c : Char) : Bool := decide (0x20 ≤ c.toNat) && decide (c.toNat ≤ 0x7E)

/-- The value of an operand that may not be a register name, at most max (30_encoding.md R95). -/
def operandValue (max : Nat) : Option Operand → Except AsmError Nat
  | none => .error .missingOperand
  | some (.number n) => if n ≤ max then .ok n else .error .outOfRange
  | some (.char c) => if isPrintable c then .ok c.toNat else .error .badOperand
  | some (.reg _) => .error .registerNotAllowed

/-- A format Z line: no operand (30_encoding.md R95). -/
def assembleZ (i : Instr) : Option Operand → Except AsmError Instr
  | none => .ok i
  | some _ => .error .unexpectedOperand

/-- A format B line: an operand 0..255 (30_encoding.md R95). -/
def assembleB (f : Byte → Instr) (o : Option Operand) : Except AsmError Instr :=
  match operandValue 255 o with
  | .error e => .error e
  | .ok n => .ok (f (BitVec.ofNat 8 n))

/-- A format W line: an operand 0..0xFFFFFFFF (30_encoding.md R95). -/
def assembleW (f : Word → Instr) (o : Option Operand) : Except AsmError Instr :=
  match operandValue 0xFFFFFFFF o with
  | .error e => .error e
  | .ok n => .ok (f (BitVec.ofNat 32 n))

/-- The command of a mnemonic and its operand (30_encoding.md R95). -/
def assemble (m : Mnemonic) (o : Option Operand) : Except AsmError Instr :=
  match m with
  | .nop => assembleZ .nop o
  | .encReset => assembleZ .encReset o
  | .encPut => assembleB .encPut o
  | .encFinish => assembleZ .encFinish o
  | .decReset => assembleZ .decReset o
  | .decPut => assembleB .decPut o
  | .decFinish => assembleZ .decFinish o
  | .pwdClear => assembleZ .pwdClear o
  | .pwdAppend => assembleB .pwdAppend o
  | .obf32 => assembleW .obf32 o
  | .rdreg =>
    match o with
    | some (.reg r) => .ok (.rdreg r.index)
    | o => assembleB .rdreg o

/-! ## Lines as text (30_encoding.md R95; blanks, letter case and digit case: log 14) -/

/-- The spelling of each mnemonic. -/
def mnemonicTable : List (List Char × Mnemonic) :=
  [(['N', 'O', 'P'], .nop),
   (['E', 'N', 'C', '.', 'R', 'E', 'S', 'E', 'T'], .encReset),
   (['E', 'N', 'C', '.', 'P', 'U', 'T'], .encPut),
   (['E', 'N', 'C', '.', 'F', 'I', 'N', 'I', 'S', 'H'], .encFinish),
   (['D', 'E', 'C', '.', 'R', 'E', 'S', 'E', 'T'], .decReset),
   (['D', 'E', 'C', '.', 'P', 'U', 'T'], .decPut),
   (['D', 'E', 'C', '.', 'F', 'I', 'N', 'I', 'S', 'H'], .decFinish),
   (['P', 'W', 'D', '.', 'C', 'L', 'E', 'A', 'R'], .pwdClear),
   (['P', 'W', 'D', '.', 'A', 'P', 'P', 'E', 'N', 'D'], .pwdAppend),
   (['O', 'B', 'F', '3', '2'], .obf32),
   (['R', 'D', 'R', 'E', 'G'], .rdreg)]

/-- The spelling of each register name. -/
def regNameTable : List (List Char × RegName) :=
  [(['I', 'D'], .id),
   (['C', 'O', 'N', 'F', 'I', 'G'], .config),
   (['S', 'T', 'A', 'T', 'U', 'S'], .status),
   (['E', 'N', 'C', '_', 'I', 'N'], .encIn),
   (['E', 'N', 'C', '_', 'O', 'U', 'T'], .encOut),
   (['D', 'E', 'C', '_', 'I', 'N'], .decIn),
   (['D', 'E', 'C', '_', 'O', 'U', 'T'], .decOut),
   (['P', 'W', 'D', '_', 'L', 'E', 'N'], .pwdLen),
   (['E', 'N', 'C', '_', 'P', 'C', 'U', 'R'], .encPcur),
   (['D', 'E', 'C', '_', 'P', 'C', 'U', 'R'], .decPcur),
   (['M', 'A', 'S', 'K'], .mask),
   (['E', 'N', 'C', '_', 'P', 'T', 'R'], .encPtr),
   (['E', 'N', 'C', '_', 'M', 'A', 'T', 'C', 'H'], .encMatch),
   (['D', 'E', 'C', '_', 'P', 'T', 'R'], .decPtr)]

/-- A blank between the words of a line. -/
def isBlank (c : Char) : Bool := c == ' ' || c == '\t'

/-- A character of a mnemonic, number or register name: no blank and not the ';' of a comment. -/
def isWordChar (c : Char) : Bool := !isBlank c && c != ';'

/-- Whether the rest of a line holds nothing but blanks and a comment. -/
def lineEnds (l : List Char) : Bool :=
  match l.dropWhile isBlank with
  | [] => true
  | c :: _ => c == ';'

/-- The value of a decimal digit. -/
def decDigit (c : Char) : Option Nat :=
  if 48 ≤ c.toNat ∧ c.toNat ≤ 57 then some (c.toNat - 48) else none

/-- The value of a hexadecimal digit, either case (log 14). -/
def hexDigit (c : Char) : Option Nat :=
  if 65 ≤ c.toNat ∧ c.toNat ≤ 70 then some (c.toNat - 55)
  else if 97 ≤ c.toNat ∧ c.toNat ≤ 102 then some (c.toNat - 87)
  else decDigit c

/-- The number the digits write in the given base, n being the number so far; none where one is no digit. -/
def readDigits (base : Nat) (digit : Char → Option Nat) : Nat → List Char → Option Nat
  | n, [] => some n
  | n, c :: l =>
    match digit c with
    | none => none
    | some k => readDigits base digit (n * base + k) l

/-- number := decimal | 0x hex (30_encoding.md R95). -/
def readNumber : List Char → Option Nat
  | [] => none
  | ['0', 'x'] => none
  | '0' :: 'x' :: l => readDigits 16 hexDigit 0 l
  | c :: l => readDigits 10 decDigit 0 (c :: l)

/-- The operand at the start of the text, and the text after it (30_encoding.md R95). -/
def readOperand (l : List Char) : Except AsmError (Operand × List Char) :=
  match l with
  | '\'' :: c :: '\'' :: rest => if isPrintable c then .ok (.char c, rest) else .error .badOperand
  | l =>
    match regNameTable.lookup (l.takeWhile isWordChar), readNumber (l.takeWhile isWordChar) with
    | some r, _ => .ok (.reg r, l.dropWhile isWordChar)
    | none, some n => .ok (.number n, l.dropWhile isWordChar)
    | none, none => .error .badOperand

/-- The command of a line after its mnemonic (30_encoding.md R95). -/
def assembleRest (m : Mnemonic) (l : List Char) : Except AsmError Instr :=
  if lineEnds l then assemble m none
  else
    match readOperand (l.dropWhile isBlank) with
    | .error e => .error e
    | .ok (o, rest) => if lineEnds rest then assemble m (some o) else .error .trailingText

/-- line := [mnemonic [operand]] [; comment] (30_encoding.md R95): the command of a source line, none for a line
without one. -/
def assembleLine (l : List Char) : Except AsmError (Option Instr) :=
  if lineEnds l then .ok none
  else
    match mnemonicTable.lookup ((l.dropWhile isBlank).takeWhile isWordChar) with
    | none => .error .unknownMnemonic
    | some m =>
      match assembleRest m ((l.dropWhile isBlank).dropWhile isWordChar) with
      | .error e => .error e
      | .ok i => .ok (some i)

/-! ## Pseudo-instructions (30_encoding.md R96; their strings are byte lists: log 15) -/

/-- The pseudo-instructions of 30_encoding.md R96. -/
inductive Pseudo where
  | pwdSet (s : List Byte)
  | encWrite (s : List Byte)
  | decWrite (s : List Byte)
  | encBlock (s : List Byte)
  | decBlock (s : List Byte)
  | maskRead
  | statusRead
deriving DecidableEq, Repr

/-- The expansions of 30_encoding.md R96. -/
def Pseudo.expand : Pseudo → List Instr
  | .pwdSet s => .pwdClear :: s.map .pwdAppend
  | .encWrite s => s.map .encPut
  | .decWrite s => s.map .decPut
  | .encBlock s => .encReset :: s.map .encPut ++ [.encFinish]
  | .decBlock s => .decReset :: s.map .decPut ++ [.decFinish]
  | .maskRead => [.obf32 0#32]
  | .statusRead => [.rdreg RegName.status.index]

end Sys2Proof
end

