-- ==== Sys2Proof/Safety.lean ====
section
/-! DEFINITION. The terms the statements use: runs of commands and their outputs, the invariants the spec gives the
state (10_state.md, 40_lzss_encoder.md R114, 41_lzss_decoder.md R158), and the safe states that meet them all. -/

namespace Sys2Proof.Machine

/-! ## Runs of commands -/

/-- The commands in order, each on the state the one before it left (20_memory.md R69); the first stop ends it. -/
def runCommands : List Instr → State → Host.Outcome State Fault Refusal
  | [], s => .next s
  | i :: rest, s =>
    match exec i s with
    | .next t => runCommands rest t
    | .fault x => .fault x
    | .refused x => .refused x

/-- The concatenation of the enc_out lists of some responses. -/
def encBytes (rs : List Response) : List Byte := rs.flatMap Response.encOut

/-- The concatenation of the dec_out lists of some responses. -/
def decBytes (rs : List Response) : List Byte := rs.flatMap Response.decOut

/-- The commands of one encoder stream (30_encoding.md R96, ENC.BLOCK). -/
def encodeStream (bytes : List Byte) : List Instr := .encReset :: bytes.map .encPut ++ [.encFinish]

/-- The commands of one decoder stream (30_encoding.md R96, DEC.BLOCK). -/
def decodeStream (bytes : List Byte) : List Instr := .decReset :: bytes.map .decPut ++ [.decFinish]

/-- A command of the encoder unit. -/
def isEncoderCommand : Instr → Bool
  | .encReset | .encPut _ | .encFinish => true
  | .nop | .decReset | .decPut _ | .decFinish | .pwdClear | .pwdAppend _ | .obf32 _ | .rdreg _ => false

/-- A command of the decoder unit. -/
def isDecoderCommand : Instr → Bool
  | .decReset | .decPut _ | .decFinish => true
  | .nop | .encReset | .encPut _ | .encFinish | .pwdClear | .pwdAppend _ | .obf32 _ | .rdreg _ => false

/-- A command that writes the password. -/
def isPasswordCommand : Instr → Bool
  | .pwdClear | .pwdAppend _ => true
  | .nop | .encReset | .encPut _ | .encFinish | .decReset | .decPut _ | .decFinish | .obf32 _ | .rdreg _ => false

/-- The word {op, arg} is answered RSVD: CMDERR <- 1, nothing else changes (30_encoding.md R84). -/
def AnswersRsvd (op : Byte) (arg : Word) : Prop :=
  ∀ (s : State) (rest : List Input), s.pending = .command (op ++ arg) :: rest →
    step s = .next { s with pending := rest, cmderr := true, responses := s.responses ++ [⟨.rsvd, 0#32, [], []⟩] }

/-! ## The arrays -/

/-- Every array is in its canonical form, with no entry outside the index range 20_memory.md R60 gives it. -/
def Canonical (s : State) : Prop :=
  Memory.wf 4113 s.enc.ebuf ∧ Store.wf none 4353 s.enc.links.lson = true ∧
  Store.wf none 4353 s.enc.links.rson = true ∧ Store.wf Link.nil 4353 s.enc.links.dad = true ∧
  Memory.wf 17 s.enc.group.cbuf ∧ Memory.wf 4096 s.dec.dbuf ∧ Memory.wf s.cfg.pwdMax.toNat s.obf.pwd

/-- The mirror invariant (10_state.md R23). -/
def Mirrored (ring : Memory) : Prop :=
  ∀ k : Nat, k < lookAhead - 1 → ring.read (ringSize + k) = ring.read k

/-! ## The encoder -/

/-- The pending group holds gunits units of one or two bytes each (40_lzss_encoder.md R114). -/
abbrev Group.InRange (g : Group) : Prop :=
  g.gunits.toNat + 1 ≤ g.cbp.toNat ∧ g.cbp.toNat ≤ 2 * g.gunits.toNat + 1

/-- What one unit of clipped length len adds to the pending group g (40_lzss_encoder.md R107): up to THRESHOLD the
byte lit with control bit GUNITS set, above it the two bytes of the back-reference to pos with the bit left 0. Every
other byte of CBUF, those already pending among them, is unchanged. -/
structure Group.Adds (g : Group) (lit : Byte) (pos : Pos) (len : Nat) (g' : Group) : Prop where
  literal : len ≤ 2 → g'.cbp = g.cbp + 1#5 ∧ ∀ a : Nat, g'.cbuf.read a =
    if a = 0 then g.cbuf.read 0 ||| (1#8 <<< g.gunits.toNat)
    else if a = g.cbp.toNat then lit
    else g.cbuf.read a
  reference : 2 < len → g'.cbp = g.cbp + 2#5 ∧
    (g'.cbuf.read g.cbp.toNat).toNat = pos.toNat % 256 ∧
    (g'.cbuf.read (g.cbp.toNat + 1)).toNat = pos.toNat / 256 * 16 + (len - 3) ∧
    ∀ a : Nat, a ≠ g.cbp.toNat → a ≠ g.cbp.toNat + 1 → g'.cbuf.read a = g.cbuf.read a

/-- MLEN as a unit coded from a match of at most ELEN bytes leaves it: 1 for a literal (40_lzss_encoder.md R107). -/
def Match.coded (m : Match) : Match := if m.len.toNat ≤ 2 then { m with len := 1#5 } else m

/-- INSERT_NODE of each position in order. -/
def insertAll : List Pos → Enc → Except Fault Enc
  | [], e => .ok e
  | p :: rest, e =>
    match insertNode p e with
    | .error x => .error x
    | .ok e => insertAll rest e

/-- The positions START inserts, in order: R − 1 down to R − F, then R (40_lzss_encoder.md R105). -/
def startPositions (r : Pos) : List Pos :=
  (List.range' 1 lookAhead).map (fun i => r - BitVec.ofNat 12 i) ++ [r]

/-- The ranges of 40_lzss_encoder.md R114 and 10_state.md R27 to R29, all but the trees. ERROR is entered only from
DONE, so its row, "as left", is the row of DONE. -/
def Enc.InRange (e : Enc) : Prop :=
  e.best.len.toNat ≤ lookAhead ∧
  (e.eph = .fill →
    e.r = startPos ∧ e.elen.toNat ≤ 17 ∧ e.etodo = 0#5 ∧ e.group.gunits = 0#3 ∧ e.group.cbp = 1#5) ∧
  (e.eph = .run → e.elen = 18#5 ∧ 1 ≤ e.etodo.toNat ∧ e.etodo.toNat ≤ 18 ∧ e.group.InRange) ∧
  (e.eph = .done ∨ e.eph = .error →
    e.elen = 0#5 ∧ e.etodo = 0#5 ∧ e.group.gunits = 0#3 ∧ e.group.cbp = 1#5)

/-- A binary search tree of ring positions, as a value: what the link arrays of one root hold. -/
inductive Tree where
  | leaf
  | node (left : Tree) (p : Pos) (right : Tree)
deriving DecidableEq, Repr

/-- The in-order walk of a tree. -/
def Tree.inorder : Tree → List Pos
  | .leaf => []
  | .node l p r => l.inorder ++ p :: r.inorder

/-- The nodes the search of INSERT_NODE(r) compares with, in the order it meets them from the root
(40_lzss_encoder.md R103): to the right where the key at r is greater, to the left where it is less, and no further
from a node whose whole key is equal. -/
def Tree.path (ring : Memory) (r : Pos) : Tree → List Pos
  | .leaf => []
  | .node left p right =>
    p :: (if lookAhead ≤ (compareKeys ring r p).1 then []
      else if 0 ≤ (compareKeys ring r p).2 then right.path ring r else left.path ring r)

/-- INSERT_NODE(r) on the tree as a value (40_lzss_encoder.md R103): r is a new leaf at the end of its path, or takes
the place of the node with its whole key. -/
def Tree.insert (ring : Memory) (r : Pos) : Tree → Tree
  | .leaf => .node .leaf r .leaf
  | .node left p right =>
    if lookAhead ≤ (compareKeys ring r p).1 then .node left r right
    else if 0 ≤ (compareKeys ring r p).2 then .node left p (right.insert ring r)
    else .node (left.insert ring r) p right

/-- The tree with left subtree l, root p and right subtree r without its last node in order, and that node. -/
def Tree.popLast : (l : Tree) → (p : Pos) → (r : Tree) → Tree × Pos
  | l, p, .leaf => (l, p)
  | l, p, .node rl q rr => (.node l p (Tree.popLast rl q rr).1, (Tree.popLast rl q rr).2)

/-- What takes the place of a deleted node with these subtrees (40_lzss_encoder.md R104): the only subtree, or the
in-order predecessor between both. -/
def Tree.join : (left right : Tree) → Tree
  | left, .leaf => left
  | .leaf, right => right
  | .node l p r, right => .node (Tree.popLast l p r).1 (Tree.popLast l p r).2 right

/-- DELETE_NODE(p) on the tree as a value (40_lzss_encoder.md R104). -/
def Tree.delete (p : Pos) : Tree → Tree
  | .leaf => .leaf
  | .node left q right => if q = p then Tree.join left right else .node (left.delete p) q (right.delete p)

/-- The link arrays hold the tree below the given parent link, entered by the given child link: children in LSON
and RSON, parents in DAD (10_state.md R24). -/
def Linked (t : Links) : Link → Option Pos → Tree → Prop
  | _, c, .leaf => c = none
  | parent, c, .node l p r =>
    c = some p ∧ t.getDad (.node p) = parent ∧
      Linked t (.node p) (t.getLson (.node p)) l ∧ Linked t (.node p) (t.getRson (.node p)) r

/-- A node's key: the F bytes at its position, read without reduction modulo N (40_lzss_encoder.md R101). -/
def keyAt (ring : Memory) (p : Pos) : List Byte :=
  (List.range lookAhead).map (fun i => ring.read (p.toNat + i))

/-- The link arrays hold the trees T, one for each first byte (40_lzss_encoder.md R101, R114). -/
structure Forest (ring : Memory) (t : Links) (T : Byte → Tree) : Prop where
  /-- RSON of a root leads to its tree -/
  linked : ∀ c, Linked t (.root c) (t.getRson (.root c)) (T c)
  /-- no position stands twice in a tree -/
  nodup : ∀ c, (T c).inorder.Nodup
  /-- the nodes of tree c are positions whose byte is c -/
  firstByte : ∀ c p, p ∈ (T c).inorder → ring.read p.toNat = c
  /-- a position with a parent is in a tree -/
  placed : ∀ p, t.getDad (.node p) ≠ .nil → ∃ c, p ∈ (T c).inorder
  /-- an in-order walk lists nodes in non-decreasing key order -/
  sorted : ∀ c, (T c).inorder.Pairwise (fun p q => keyAt ring p ≤ keyAt ring q)

/-- The trees' column of 40_lzss_encoder.md R114; in DONE and ERROR the trees are not used again before
ENC.RESET. -/
def Enc.TreesOk (e : Enc) : Prop :=
  (e.eph = .fill → Forest e.ebuf e.links (fun _ => .leaf)) ∧
  (e.eph = .run → ∃ T, Forest e.ebuf e.links T ∧ e.r ∈ (T (e.ebuf.read e.r.toNat)).inorder ∧
    ∀ (k : Nat) (c : Byte), 1 ≤ k → k ≤ 17 → e.r + BitVec.ofNat 12 k ∉ (T c).inorder)

/-- The encoder's invariant (10_state.md R23, 40_lzss_encoder.md R114). -/
def Enc.Safe (e : Enc) : Prop := e.InRange ∧ Mirrored e.ebuf ∧ e.TreesOk

/-! ## The decoder and the password -/

/-- The ranges of 41_lzss_decoder.md R158 the types do not already give. -/
def Dec.InRange (d : Dec) : Prop :=
  (d.dsub = .ctl → d.dunit = 0#3) ∧ (d.dend ≠ .none ↔ d.dph ≠ .active) ∧
  d.dr = startPos + d.dout.setWidth 12

/-- A cursor is 0 whenever PLEN = 0 and below PLEN otherwise (10_state.md R31, R39). -/
def CursorOk (f : Obf) (cur : BitVec 8) : Prop :=
  (f.plen = 0#8 → cur = 0#8) ∧ (f.plen ≠ 0#8 → cur.toNat < f.plen.toNat)

/-- The password's ranges (10_state.md R31, R39, R42, 42_obfuscation.md R180). -/
def PasswordOk (s : State) : Prop :=
  1 ≤ s.cfg.pwdMax.toNat ∧ s.obf.plen.toNat ≤ s.cfg.pwdMax.toNat ∧
  (∀ i : Nat, i < s.obf.plen.toNat → s.obf.byte i ≠ 0#8) ∧
  (∀ i : Nat, s.obf.plen.toNat ≤ i → s.obf.byte i = 0#8) ∧
  CursorOk s.obf s.enc.epcur ∧ CursorOk s.obf s.dec.dpcur

/-- A state that meets every invariant: from it no step stops. -/
def Safe (s : State) : Prop :=
  Canonical s ∧ s.enc.Safe ∧ s.dec.InRange ∧ PasswordOk s

end Sys2Proof.Machine
end

