-- ==== Sys2Proof/WellFormed.lean ====
section
/-! DEFINITION. Which 40-bit words are commands, stated apart from the decoder: a defined opcode
(30_encoding.md R82, R83) and zero reserved argument bits (R81, R84). A term of Instr needs no check of its
own: an operand's range (0..255 for format B, 32 bits for format W) is its type. -/

namespace Sys2Proof

/-- The three formats, named by what ARG carries (30_encoding.md R81). -/
inductive Format where
  /-- no operand: ARG must be 0 -/
  | z
  /-- a byte operand: ARG[31:8] must be 0 -/
  | b
  /-- a word operand: no reserved bits -/
  | w
deriving DecidableEq, Repr

/-- The formats of the opcode map (30_encoding.md R82); none for a reserved opcode (R83). -/
def Format.ofOpcode (op : Byte) : Option Format :=
  if op ∈ [0x00#8, 0x01#8, 0x03#8, 0x08#8, 0x0A#8, 0x10#8] then some .z
  else if op ∈ [0x02#8, 0x09#8, 0x11#8, 0x20#8] then some .b
  else if op = 0x12#8 then some .w
  else none

/-- The argument bits a format reserves, as a mask (30_encoding.md R81). -/
def Format.reservedMask : Format → Word
  | .z => 0xFFFFFFFF#32
  | .b => 0xFFFFFF00#32
  | .w => 0#32

/-- Check of R83: the opcode, bits [39:32], is in the map. -/
def CommandWord.hasOpcode (w : CommandWord) : Bool :=
  (Format.ofOpcode (w.extractLsb' 32 8)).isSome

/-- Check of R84: the argument bits the opcode's format reserves are 0. -/
def CommandWord.reservedClear (w : CommandWord) : Bool :=
  match Format.ofOpcode (w.extractLsb' 32 8) with
  | none => false
  | some f => w.extractLsb' 0 32 &&& f.reservedMask = 0

/-- A word that is a command (30_encoding.md R85): both checks hold. -/
def CommandWord.wellFormed (w : CommandWord) : Bool :=
  CommandWord.hasOpcode w && CommandWord.reservedClear w

/-- Every term of Instr is well-formed: its operand's type is the operand's whole range (30_encoding.md R81,
R95: "format B takes 0..255, W takes 0..0xFFFFFFFF"). -/
abbrev Instr.WellFormed (i : Instr) : Prop :=
  match i with
  | .encPut b | .decPut b | .pwdAppend b | .rdreg b => b.toNat ≤ 255
  | .obf32 v => v.toNat ≤ 0xFFFFFFFF
  | .nop | .encReset | .encFinish | .decReset | .decFinish | .pwdClear => True

end Sys2Proof
end

