-- ==== Sys2Proof/Certificates/Slice0/Obligations.lean ====
section
/-! DEFINITION. The statements for the provers. A response is written ⟨code, data, enc_out, dec_out⟩
(30_encoding.md R86); appending one to responses is the model's way of returning it (log 3). -/

open Sys2Proof Sys2Proof.Machine

/-! ## Encodings and the command port -/

/-- Decoding the word of a command gives the command back, with every operand value (30_encoding.md R80 to R82). -/
def Obligations.DecodeOfEncodeIsTheCommand : Prop :=
  ∀ i : Instr, decode (encode i) = .ok i

/-- A word has at most one reading, and the words that have one are those that pass the checks of 30_encoding.md
R83 and R84. -/
def Obligations.CommandWordsHaveOneReading : Prop :=
  (∀ (w : CommandWord) (i : Instr), decode w = .ok i → encode i = w) ∧
  (∀ w : CommandWord, (∃ i, decode w = .ok i) ↔ CommandWord.wellFormed w = true)

/-- Words written out from the opcode map and the programs of 95_test_vectors.md decode as listed there. -/
def Obligations.WrittenWordsDecodeAsListed : Prop :=
  decode 0x0000000000#40 = .ok .nop ∧ decode 0x0100000000#40 = .ok .encReset ∧
  decode 0x0200000041#40 = .ok (.encPut 0x41#8) ∧ decode 0x0300000000#40 = .ok .encFinish ∧
  decode 0x0800000000#40 = .ok .decReset ∧ decode 0x09000000EE#40 = .ok (.decPut 0xEE#8) ∧
  decode 0x0A00000000#40 = .ok .decFinish ∧ decode 0x1000000000#40 = .ok .pwdClear ∧
  decode 0x110000006B#40 = .ok (.pwdAppend 0x6B#8) ∧ decode 0x12736C6821#40 = .ok (.obf32 0x736C6821#32) ∧
  decode 0x2000000002#40 = .ok (.rdreg 0x02#8) ∧ decode 0x7F00000000#40 = .error .illop ∧
  decode 0x0200000141#40 = .error .rsvd ∧ decode 0x0100000001#40 = .error .rsvd

/-- A step takes the oldest command word off the port and performs the command it decodes to (30_encoding.md
R85). -/
def Obligations.StepPerformsTheDecodedCommand : Prop :=
  ∀ (s : State) (w : CommandWord) (rest : List Input) (i : Instr),
    s.pending = .command w :: rest → decode w = .ok i → step s = exec i { s with pending := rest }

/-- A word with a reserved opcode, whatever its argument, sets CMDERR and is answered ILLOP; nothing else changes
(30_encoding.md R83). 245 opcodes are reserved. -/
def Obligations.ReservedOpcodeAnswersIllop : Prop :=
  (∀ (s : State) (w : CommandWord) (rest : List Input), s.pending = .command w :: rest →
    w.extractLsb' 32 8 ∉ [0x00#8, 0x01#8, 0x02#8, 0x03#8, 0x08#8, 0x09#8, 0x0A#8, 0x10#8, 0x11#8, 0x12#8, 0x20#8] →
    step s = .next { s with pending := rest, cmderr := true, responses := s.responses ++ [⟨.illop, 0#32, [], []⟩] }) ∧
  ((List.range 256).filter (fun n => (Format.ofOpcode (BitVec.ofNat 8 n)).isNone)).length = 245

/-- A format Z word with a nonzero argument, and a format B word with a nonzero ARG[31:8], set CMDERR and are
answered RSVD; format W has no reserved bits (30_encoding.md R84). -/
def Obligations.ReservedArgumentAnswersRsvd : Prop :=
  (∀ (op : Byte) (arg : Word), op ∈ [0x00#8, 0x01#8, 0x03#8, 0x08#8, 0x0A#8, 0x10#8] → arg ≠ 0#32 →
    AnswersRsvd op arg) ∧
  (∀ (op : Byte) (arg : Word), op ∈ [0x02#8, 0x09#8, 0x11#8, 0x20#8] → arg.extractLsb' 8 24 ≠ 0#24 →
    AnswersRsvd op arg) ∧
  (∀ arg : Word, decode (0x12#8 ++ arg) = .ok (.obf32 arg))

/-- With nothing pending the block holds its state (60_exceptions.md R235; that a step is then idle is the
model's choice, log 2). -/
def Obligations.BlockHoldsItsStateBetweenCommands : Prop :=
  ∀ s : State, s.pending = [] → step s = .next s

/-- The reset state has the values of 10_state.md R57, and the commands of its last column set their rows to the
same values; no command clears CMDERR. -/
def Obligations.ResetValuesAreThoseOfTheTable : Prop :=
  (State.reset.enc.eph = .fill ∧ (∀ a : Nat, a ≤ 4112 → State.reset.enc.ebuf.read a = 0#8) ∧
    (∀ i : Link, State.reset.enc.links.getLson i = none ∧ State.reset.enc.links.getRson i = none ∧
      State.reset.enc.links.getDad i = .nil) ∧
    State.reset.enc.r = 4078#12 ∧ State.reset.enc.elen = 0#5 ∧ State.reset.enc.etodo = 0#5 ∧
    State.reset.enc.best.len = 0#5 ∧ State.reset.enc.best.pos = 0#12 ∧
    (∀ k : Nat, k ≤ 16 → State.reset.enc.group.cbuf.read k = 0#8) ∧ State.reset.enc.group.cbp = 1#5 ∧
    State.reset.enc.group.gunits = 0#3 ∧ State.reset.enc.epcur = 0#8 ∧ State.reset.enc.ein = 0#32 ∧
    State.reset.enc.eout = 0#32) ∧
  (State.reset.dec.dph = .active ∧ State.reset.dec.dsub = .ctl ∧
    (∀ a : Nat, a ≤ 4095 → State.reset.dec.dbuf.read a = 0#8) ∧ State.reset.dec.dr = 4078#12 ∧
    State.reset.dec.dctl = 0#8 ∧ State.reset.dec.dunit = 0#3 ∧ State.reset.dec.dreflo = 0#8 ∧
    State.reset.dec.dpcur = 0#8 ∧ State.reset.dec.dend = .none ∧ State.reset.dec.din = 0#32 ∧
    State.reset.dec.dout = 0#32) ∧
  ((∀ i : Nat, State.reset.obf.byte i = 0#8) ∧ State.reset.obf.plen = 0#8 ∧ State.reset.cmderr = false) ∧
  (∀ s t : State, exec .encReset s = .next t → t.enc = State.reset.enc) ∧
  (∀ s t : State, exec .decReset s = .next t → t.dec = State.reset.dec) ∧
  (∀ s t : State, exec .pwdClear s = .next t →
    t.obf = State.reset.obf ∧ t.enc.epcur = 0#8 ∧ t.dec.dpcur = 0#8) ∧
  (∀ (i : Instr) (s t : State), exec i s = .next t → s.cmderr = true → t.cmderr = true)

/-- A power-on reset input has the effect of ENC.RESET, DEC.RESET and PWD.CLEAR together, plus CMDERR <- 0
(70_reset_and_hazards.md R250), and gives no response; that it is an input of the step, and leaves the port and
the record of responses, is the model's choice (log 4). -/
def Obligations.PowerOnResetIsTheThreeResetsAndClearsCmderr : Prop :=
  ∀ (s : State) (rest : List Input), s.pending = .powerOn :: rest →
    ∃ a b c : State, exec .encReset { s with pending := rest } = .next a ∧ exec .decReset a = .next b ∧
      exec .pwdClear b = .next c ∧ step s = .next { c with cmderr := false, responses := s.responses } ∧
      c.enc = State.reset.enc ∧ c.dec = State.reset.dec ∧ c.obf = State.reset.obf

/-! ## Control commands -/

/-- NOP responds OK and changes nothing, in every phase; a nonzero argument is answered RSVD (43_control.md
R200). -/
def Obligations.NopRespondsOk : Prop :=
  (∀ s : State, exec .nop s = .next { s with responses := s.responses ++ [⟨.ok, 0#32, [], []⟩] }) ∧
  decode 0x0000000000#40 = .ok .nop ∧ (∀ arg : Word, arg ≠ 0#32 → AnswersRsvd 0x00#8 arg)

/-- ID reads the constant 0x4C5A5353 and CONFIG the constant parameters (10_state.md R45, R46). -/
def Obligations.RdregReadsIdAndConfig : Prop :=
  ∀ s : State,
    exec (.rdreg 0x00#8) s = .next { s with responses := s.responses ++ [⟨.ok, 0x4C5A5353#32, [], []⟩] } ∧
    ∃ v : Word, exec (.rdreg 0x01#8) s = .next { s with responses := s.responses ++ [⟨.ok, v, [], []⟩] } ∧
      v.extractLsb' 0 4 = 12#4 ∧ v.extractLsb' 4 4 = 0#4 ∧ v.extractLsb' 8 5 = 18#5 ∧ v.extractLsb' 13 3 = 0#3 ∧
      v.extractLsb' 16 4 = 2#4 ∧ v.extractLsb' 20 4 = 0#4 ∧ v.extractLsb' 24 8 = s.cfg.pwdMax ∧
      (s.cfg.pwdMax = 255#8 → v = 0xFF02120C#32)

/-- STATUS reads EPH, DPH, DSUB, DEND and CMDERR in bits [8:0] and 0 above (10_state.md R47, with the values of
R21, R33, R34, R40, R43). -/
def Obligations.RdregReadsStatus : Prop :=
  (∀ s : State, ∃ v : Word,
    exec (.rdreg 0x02#8) s = .next { s with responses := s.responses ++ [⟨.ok, v, [], []⟩] } ∧
    v.extractLsb' 0 2 = (match s.enc.eph with | .fill => 0#2 | .run => 1#2 | .done => 2#2 | .error => 3#2) ∧
    v.extractLsb' 2 2 = (match s.dec.dph with | .active => 0#2 | .done => 2#2 | .error => 3#2) ∧
    v.extractLsb' 4 2 = (match s.dec.dsub with | .ctl => 0#2 | .unit => 1#2 | .refhi => 2#2) ∧
    v.extractLsb' 6 2 =
      (match s.dec.dend with | .none => 0#2 | .clean => 1#2 | .ctlOnly => 2#2 | .truncRef => 3#2) ∧
    v.getLsbD 8 = s.cmderr ∧ v.extractLsb' 9 23 = 0#23) ∧
  exec (.rdreg 0x02#8) State.reset =
    .next { State.reset with responses := [⟨.ok, 0x00000000#32, [], []⟩] }

/-- The counter registers, the password registers and MASK read EIN, EOUT, DIN, DOUT, PLEN, EPCUR, DPCUR and MASK32,
each 0 after reset (10_state.md R48, R49, R50). -/
def Obligations.RdregReadsCountersAndPassword : Prop :=
  ∀ s : State,
    exec (.rdreg 0x03#8) s = .next { s with responses := s.responses ++ [⟨.ok, s.enc.ein, [], []⟩] } ∧
    exec (.rdreg 0x04#8) s = .next { s with responses := s.responses ++ [⟨.ok, s.enc.eout, [], []⟩] } ∧
    exec (.rdreg 0x05#8) s = .next { s with responses := s.responses ++ [⟨.ok, s.dec.din, [], []⟩] } ∧
    exec (.rdreg 0x06#8) s = .next { s with responses := s.responses ++ [⟨.ok, s.dec.dout, [], []⟩] } ∧
    exec (.rdreg 0x07#8) s =
      .next { s with responses := s.responses ++ [⟨.ok, BitVec.ofNat 32 s.obf.plen.toNat, [], []⟩] } ∧
    exec (.rdreg 0x08#8) s =
      .next { s with responses := s.responses ++ [⟨.ok, BitVec.ofNat 32 s.enc.epcur.toNat, [], []⟩] } ∧
    exec (.rdreg 0x09#8) s =
      .next { s with responses := s.responses ++ [⟨.ok, BitVec.ofNat 32 s.dec.dpcur.toNat, [], []⟩] } ∧
    exec (.rdreg 0x0A#8) s = .next { s with responses := s.responses ++ [⟨.ok, mask32 s.obf, [], []⟩] } ∧
    (s = State.reset → s.enc.ein = 0#32 ∧ s.enc.eout = 0#32 ∧ s.dec.din = 0#32 ∧ s.dec.dout = 0#32 ∧
      s.obf.plen = 0#8 ∧ s.enc.epcur = 0#8 ∧ s.dec.dpcur = 0#8 ∧ mask32 s.obf = 0#32)

/-- ENC_PTR, ENC_MATCH and DEC_PTR read the positions and counts at their bit places, with the values
0x00000FEE, 0 and 0x00000FEE after reset (10_state.md R51, R52, R53). -/
def Obligations.RdregReadsPointers : Prop :=
  (∀ s : State, ∃ p m d : Word,
    exec (.rdreg 0x0B#8) s = .next { s with responses := s.responses ++ [⟨.ok, p, [], []⟩] } ∧
    p.extractLsb' 0 12 = s.enc.r ∧ p.extractLsb' 12 5 = s.enc.elen ∧ p.extractLsb' 17 5 = s.enc.etodo ∧
    p.extractLsb' 22 3 = s.enc.group.gunits ∧ p.extractLsb' 25 7 = 0#7 ∧
    exec (.rdreg 0x0C#8) s = .next { s with responses := s.responses ++ [⟨.ok, m, [], []⟩] } ∧
    m.extractLsb' 0 12 = s.enc.best.pos ∧ m.extractLsb' 12 5 = s.enc.best.len ∧ m.extractLsb' 17 15 = 0#15 ∧
    exec (.rdreg 0x0D#8) s = .next { s with responses := s.responses ++ [⟨.ok, d, [], []⟩] } ∧
    d.extractLsb' 0 12 = s.dec.dr ∧ d.extractLsb' 12 3 = s.dec.dunit ∧ d.getLsbD 15 = false ∧
    d.extractLsb' 16 8 = s.dec.dctl ∧ d.extractLsb' 24 8 = s.dec.dreflo) ∧
  exec (.rdreg 0x0B#8) State.reset =
    .next { State.reset with responses := [⟨.ok, 0x00000FEE#32, [], []⟩] } ∧
  exec (.rdreg 0x0C#8) State.reset =
    .next { State.reset with responses := [⟨.ok, 0x00000000#32, [], []⟩] } ∧
  exec (.rdreg 0x0D#8) State.reset =
    .next { State.reset with responses := [⟨.ok, 0x00000FEE#32, [], []⟩] }

/-- RDREG of an index up to 0x0D responds OK with a value and changes nothing; above, BADREG sets CMDERR; reserved
argument bits are answered RSVD (43_control.md R201). -/
def Obligations.RdregHasNoSideEffectAndRefusesReservedIndices : Prop :=
  (∀ (b : Byte) (s : State), b.toNat ≤ 0x0D →
    ∃ v : Word, readRegister b s = some v ∧
      exec (.rdreg b) s = .next { s with responses := s.responses ++ [⟨.ok, v, [], []⟩] }) ∧
  (∀ (b : Byte) (s : State), 0x0D < b.toNat → exec (.rdreg b) s =
    .next { s with cmderr := true, responses := s.responses ++ [⟨.badreg, 0#32, [], []⟩] }) ∧
  (∀ arg : Word, arg.extractLsb' 8 24 ≠ 0#24 → AnswersRsvd 0x20#8 arg)

/-! ## Obfuscation filter -/

/-- PBYTE_TAKE: nothing with the empty password; else the byte at the cursor, and the cursor advanced by one,
wrapping to 0 after PWD[PLEN−1] (42_obfuscation.md R181). -/
def Obligations.PasswordByteAndCursorWrap : Prop :=
  ∀ (f : Obf) (cur : BitVec 8),
    (f.plen = 0#8 → pbyteTake f cur = (0#8, cur)) ∧
    (cur.toNat + 1 < f.plen.toNat → pbyteTake f cur = (f.byte cur.toNat, cur + 1#8)) ∧
    (cur.toNat + 1 = f.plen.toNat → pbyteTake f cur = (f.byte cur.toNat, 0#8))

/-- MASK32: byte lane k is the XOR of the password bytes whose index is k modulo 4 (42_obfuscation.md R182), with the
rule's four examples. -/
def Obligations.MaskFoldsPasswordBytesByLane : Prop :=
  (∀ (f : Obf) (k : Nat), k < 4 → (mask32 f).extractLsb' (8 * k) 8 =
    ((List.range f.plen.toNat).filter (fun i => i % 4 == k)).foldl (fun x i => x ^^^ f.byte i) 0#8) ∧
  (∀ f : Obf, f.plen = 0#8 → mask32 f = 0#32) ∧
  mask32 ⟨[(0, 0x73#8), (1, 0x65#8), (2, 0x63#8), (3, 0x72#8), (4, 0x65#8), (5, 0x74#8)], 6#8⟩ = 0x72631116#32 ∧
  mask32 ⟨[(0, 0x61#8)], 1#8⟩ = 0x00000061#32 ∧
  mask32 ⟨[(0, 0x61#8), (1, 0x62#8), (2, 0x63#8), (3, 0x64#8)], 4#8⟩ = 0x64636261#32 ∧
  mask32 ⟨[(0, 0x61#8), (1, 0x62#8), (2, 0x63#8), (3, 0x64#8), (4, 0x65#8)], 5#8⟩ = 0x64636204#32

/-- PWD.CLEAR empties the password and zeroes both cursors; nothing else changes, neither unit is reset, and later
control bytes pass unchanged; a nonzero argument is answered RSVD (42_obfuscation.md R183). -/
def Obligations.PwdClearEmptiesThePassword : Prop :=
  (∀ s : State, ∃ t : State, exec .pwdClear s = .next t ∧
    t = { s with obf := t.obf, enc := { s.enc with epcur := 0#8 }, dec := { s.dec with dpcur := 0#8 },
                 responses := s.responses ++ [⟨.ok, 0#32, [], []⟩] } ∧
    t.obf.plen = 0#8 ∧ (∀ i : Nat, t.obf.byte i = 0#8) ∧ (∀ cur, pbyteTake t.obf cur = (0#8, cur))) ∧
  (∀ arg : Word, arg ≠ 0#32 → AnswersRsvd 0x10#8 arg)

/-- PWD.APPEND: a zero byte is answered PZERO, a full password PFULL, in that order; else the byte is stored at
index PLEN and PLEN grows by one, and nothing else changes (42_obfuscation.md R184). PLEN never exceeds PWD_MAX
(10_state.md R42), which is the premise of the last two clauses. -/
def Obligations.PwdAppendStoresTheByteOrRefuses : Prop :=
  (∀ s : State, exec (.pwdAppend 0#8) s =
    .next { s with cmderr := true, responses := s.responses ++ [⟨.pzero, 0#32, [], []⟩] }) ∧
  (∀ (s : State) (b : Byte), b ≠ 0#8 → s.obf.plen = s.cfg.pwdMax → exec (.pwdAppend b) s =
    .next { s with cmderr := true, responses := s.responses ++ [⟨.pfull, 0#32, [], []⟩] }) ∧
  (∀ (s : State) (b : Byte), b ≠ 0#8 → s.obf.plen.toNat ≤ s.cfg.pwdMax.toNat → s.obf.plen ≠ s.cfg.pwdMax →
    ∃ t : State, exec (.pwdAppend b) s = .next t ∧
      t = { s with obf := t.obf, responses := s.responses ++ [⟨.ok, 0#32, [], []⟩] } ∧
      t.obf.plen.toNat = s.obf.plen.toNat + 1 ∧
      ∀ i : Nat, t.obf.byte i = if i = s.obf.plen.toNat then b else s.obf.byte i) ∧
  (∀ arg : Word, arg.extractLsb' 8 24 ≠ 0#24 → AnswersRsvd 0x11#8 arg)

/-- OBF32 v responds with v XOR MASK32 and changes nothing; with the empty password it returns v, and OBF32 0
returns the mask (42_obfuscation.md R185). -/
def Obligations.Obf32MasksItsOperand : Prop :=
  (∀ (v : Word) (s : State),
    exec (.obf32 v) s = .next { s with responses := s.responses ++ [⟨.ok, v ^^^ mask32 s.obf, [], []⟩] }) ∧
  (∀ s : State, s.obf.plen = 0#8 → mask32 s.obf = 0#32) ∧
  (∀ s : State, exec (.obf32 0#32) s = .next { s with responses := s.responses ++ [⟨.ok, mask32 s.obf, [], []⟩] }) ∧
  (∀ v : Word, decode (0x12#8 ++ v) = .ok (.obf32 v))

/-- Masking the masked value again gives the value back (42_obfuscation.md R186). -/
def Obligations.Obf32IsItsOwnInverse : Prop :=
  ∀ (v : Word) (s : State), ∃ (t u : State) (m : Word),
    exec (.obf32 v) s = .next t ∧ t.responses = s.responses ++ [⟨.ok, m, [], []⟩] ∧
    exec (.obf32 m) t = .next u ∧ u.responses = t.responses ++ [⟨.ok, v, [], []⟩]

/-- EPCUR moves only when the encoder emits a control byte, DPCUR only when the decoder reads one; the RESETs zero
their own cursor and PWD.CLEAR both (42_obfuscation.md R189). -/
def Obligations.CursorsMoveOnlyWithTheirControlBytes : Prop :=
  ∀ (i : Instr) (s t : State) (r : Response), exec i s = .next t → t.responses = s.responses ++ [r] →
    (i ≠ .encReset → i ≠ .pwdClear → r.encOut = [] → t.enc.epcur = s.enc.epcur) ∧
    (i ≠ .decReset → i ≠ .pwdClear → (∀ b, i = .decPut b → s.dec.dsub ≠ .ctl) →
      t.dec.dpcur = s.dec.dpcur) ∧
    (i = .encReset → t.enc.epcur = 0#8 ∧ t.dec.dpcur = s.dec.dpcur) ∧
    (i = .decReset → t.dec.dpcur = 0#8 ∧ t.enc.epcur = s.enc.epcur) ∧
    (i = .pwdClear → t.enc.epcur = 0#8 ∧ t.dec.dpcur = 0#8)

/-- PWD.SET "s" (30_encoding.md R96) of at most PWD_MAX nonzero bytes loads exactly those bytes, each command
answered OK. -/
def Obligations.PwdSetLoadsThePassword : Prop :=
  ∀ (bytes : List Byte) (s : State), bytes.length ≤ s.cfg.pwdMax.toNat → (∀ b ∈ bytes, b ≠ 0#8) →
    ∃ t : State, runCommands (Pseudo.pwdSet bytes).expand s = .next t ∧
      t.obf.plen.toNat = bytes.length ∧ (∀ i : Nat, t.obf.byte i = bytes.getD i 0#8) ∧
      t.enc = { s.enc with epcur := 0#8 } ∧ t.dec = { s.dec with dpcur := 0#8 } ∧ t.cmderr = s.cmderr ∧
      t.responses = s.responses ++ List.replicate (bytes.length + 1) ⟨.ok, 0#32, [], []⟩

/-! ## Decoder -/

/-- DEC.RESET sets every decoder register to its reset value and nothing else, in every phase; a nonzero argument is
answered RSVD (41_lzss_decoder.md R155). -/
def Obligations.DecResetRestartsTheDecoder : Prop :=
  (∀ s : State, ∃ t : State, exec .decReset s = .next t ∧
    t = { s with dec := t.dec, responses := s.responses ++ [⟨.ok, 0#32, [], []⟩] } ∧
    t.dec.dph = .active ∧ t.dec.dsub = .ctl ∧ (∀ a : Nat, t.dec.dbuf.read a = 0#8) ∧ t.dec.dr = 4078#12 ∧
    t.dec.dctl = 0#8 ∧ t.dec.dunit = 0#3 ∧ t.dec.dreflo = 0#8 ∧ t.dec.dpcur = 0#8 ∧ t.dec.dend = .none ∧
    t.dec.din = 0#32 ∧ t.dec.dout = 0#32) ∧
  (∀ arg : Word, arg ≠ 0#32 → AnswersRsvd 0x08#8 arg)

/-- DEC.PUT of a control byte: DCTL is the byte XOR the password byte, unit 0 follows, nothing is emitted
(41_lzss_decoder.md R152). -/
def Obligations.DecPutReadsControlByte : Prop :=
  ∀ (b : Byte) (s : State), s.dec.dph = .active → s.dec.dsub = .ctl →
    exec (.decPut b) s = .next { s with
      dec := { s.dec with
        dctl := b ^^^ (pbyteTake s.obf s.dec.dpcur).1
        dunit := 0#3
        dsub := .unit
        dpcur := (pbyteTake s.obf s.dec.dpcur).2
        din := s.dec.din + 1#32 }
      responses := s.responses ++ [⟨.ok, 0#32, [], []⟩] }

/-- DEC.PUT of a unit's first byte: where bit DUNIT of DCTL is 1 the byte is emitted and written at DR, and the unit
ends; else it is kept in DREFLO and the second byte is awaited (41_lzss_decoder.md R151, R153). -/
def Obligations.DecPutTakesLiteralOrFirstReferenceByte : Prop :=
  ∀ (b : Byte) (s : State), s.dec.dph = .active → s.dec.dsub = .unit →
    (s.dec.dctl.getLsbD s.dec.dunit.toNat = true →
      ∃ t : State, exec (.decPut b) s = .next t ∧
        t = { s with dec := t.dec, responses := s.responses ++ [⟨.ok, 1#32, [], [b]⟩] } ∧
        t.dec = { s.dec with
          dbuf := t.dec.dbuf
          dr := s.dec.dr + 1#12
          dunit := if s.dec.dunit = 7#3 then 0#3 else s.dec.dunit + 1#3
          dsub := if s.dec.dunit = 7#3 then .ctl else .unit
          din := s.dec.din + 1#32
          dout := s.dec.dout + 1#32 } ∧
        ∀ a : Nat, t.dec.dbuf.read a = if a = s.dec.dr.toNat then b else s.dec.dbuf.read a) ∧
    (s.dec.dctl.getLsbD s.dec.dunit.toNat = false →
      exec (.decPut b) s = .next { s with
        dec := { s.dec with dreflo := b, dsub := .refhi, din := s.dec.din + 1#32 }
        responses := s.responses ++ [⟨.ok, 0#32, [], []⟩] })

/-- DEC.PUT of a back-reference's second byte (41_lzss_decoder.md R154), stated byte by byte. The copy has
len = B1[3:0] + 3 bytes from pos = B1[7:4], B0. Byte k of the output is, where position pos + k was written by an
earlier step j < k of the same copy, byte j of the output, and else the ring's byte there; the ring then holds the
output at DR, DR + 1, ... and is unchanged elsewhere. -/
def Obligations.DecPutCopiesBackReference : Prop :=
  ∀ (b : Byte) (s : State), s.dec.dph = .active → s.dec.dsub = .refhi →
    ∃ (t : State) (out : List Byte) (pos : Pos), exec (.decPut b) s = .next t ∧
      pos.toNat = (b.toNat / 16) * 256 + s.dec.dreflo.toNat ∧
      out.length = b.toNat % 16 + 3 ∧
      t = { s with dec := t.dec, responses := s.responses ++ [⟨.ok, BitVec.ofNat 32 out.length, [], out⟩] } ∧
      t.dec = { s.dec with
        dbuf := t.dec.dbuf
        dr := s.dec.dr + BitVec.ofNat 12 out.length
        dunit := if s.dec.dunit = 7#3 then 0#3 else s.dec.dunit + 1#3
        dsub := if s.dec.dunit = 7#3 then .ctl else .unit
        din := s.dec.din + 1#32
        dout := s.dec.dout + BitVec.ofNat 32 out.length } ∧
      (∀ k : Nat, k < out.length → out.getD k 0#8 =
        if (pos + BitVec.ofNat 12 k - s.dec.dr).toNat < k
        then out.getD (pos + BitVec.ofNat 12 k - s.dec.dr).toNat 0#8
        else s.dec.dbuf.read (pos + BitVec.ofNat 12 k).toNat) ∧
      (∀ a : Pos, t.dec.dbuf.read a.toNat =
        if (a - s.dec.dr).toNat < out.length then out.getD (a - s.dec.dr).toNat 0#8
        else s.dec.dbuf.read a.toNat)

/-- DEC.FINISH records and returns how the stream ended, enters DONE and emits nothing; a nonzero argument is
answered RSVD (41_lzss_decoder.md R157). -/
def Obligations.DecFinishClassifiesTheEnd : Prop :=
  (∀ s : State, s.dec.dph = .active →
    (s.dec.dsub = .refhi → exec .decFinish s = .next { s with
      dec := { s.dec with dend := .truncRef, dph := .done }
      responses := s.responses ++ [⟨.ok, 3#32, [], []⟩] }) ∧
    (s.dec.dsub = .unit → s.dec.dunit = 0#3 → exec .decFinish s = .next { s with
      dec := { s.dec with dend := .ctlOnly, dph := .done }
      responses := s.responses ++ [⟨.ok, 2#32, [], []⟩] }) ∧
    (s.dec.dsub = .unit → s.dec.dunit ≠ 0#3 → exec .decFinish s = .next { s with
      dec := { s.dec with dend := .clean, dph := .done }
      responses := s.responses ++ [⟨.ok, 1#32, [], []⟩] }) ∧
    (s.dec.dsub = .ctl → exec .decFinish s = .next { s with
      dec := { s.dec with dend := .clean, dph := .done }
      responses := s.responses ++ [⟨.ok, 1#32, [], []⟩] })) ∧
  (∀ s : State, s.dec.dph = .done → exec .decFinish s = .next { s with
    dec := { s.dec with dph := .error }, responses := s.responses ++ [⟨.state, 0#32, [], []⟩] }) ∧
  (∀ s : State, s.dec.dph = .error → exec .decFinish s = .next { s with
    responses := s.responses ++ [⟨.failed, 0#32, [], []⟩] }) ∧
  (∀ arg : Word, arg ≠ 0#32 → AnswersRsvd 0x0A#8 arg)

/-- One DEC.PUT emits 0, 1 or 3..18 bytes; no other command emits decoder output (41_lzss_decoder.md R161). -/
def Obligations.DecoderOutputBurstIsBounded : Prop :=
  ∀ (i : Instr) (s t : State) (r : Response), exec i s = .next t → t.responses = s.responses ++ [r] →
    r.decOut.length ≤ 18 ∧ r.decOut.length ≠ 2 ∧ ((∀ b, i ≠ .decPut b) → r.decOut = [])

/-- The decoder's ranges (41_lzss_decoder.md R158) are kept by every step: DSUB = CTL implies DUNIT = 0, DEND is NONE
exactly while ACTIVE, and DR = (4078 + DOUT) mod N. -/
def Obligations.EveryStepKeepsDecoderRanges : Prop :=
  ∀ s t : State, s.dec.InRange → step s = .next t → t.dec.InRange

/-! ## Units in DONE and ERROR -/

/-- A PUT or FINISH in DONE is answered STATE and moves that unit to ERROR; in ERROR it is answered FAILED and
changes nothing; ERROR is left only by that unit's RESET or by power-on reset (60_exceptions.md R223). -/
def Obligations.FinishedUnitAnswersStateThenFailed : Prop :=
  (∀ (b : Byte) (s : State), s.enc.eph = .done →
    exec (.encPut b) s = .next { s with
      enc := { s.enc with eph := .error }, responses := s.responses ++ [⟨.state, 0#32, [], []⟩] } ∧
    exec .encFinish s = .next { s with
      enc := { s.enc with eph := .error }, responses := s.responses ++ [⟨.state, 0#32, [], []⟩] }) ∧
  (∀ (b : Byte) (s : State), s.enc.eph = .error →
    exec (.encPut b) s = .next { s with responses := s.responses ++ [⟨.failed, 0#32, [], []⟩] } ∧
    exec .encFinish s = .next { s with responses := s.responses ++ [⟨.failed, 0#32, [], []⟩] }) ∧
  (∀ (b : Byte) (s : State), s.dec.dph = .done →
    exec (.decPut b) s = .next { s with
      dec := { s.dec with dph := .error }, responses := s.responses ++ [⟨.state, 0#32, [], []⟩] } ∧
    exec .decFinish s = .next { s with
      dec := { s.dec with dph := .error }, responses := s.responses ++ [⟨.state, 0#32, [], []⟩] }) ∧
  (∀ (b : Byte) (s : State), s.dec.dph = .error →
    exec (.decPut b) s = .next { s with responses := s.responses ++ [⟨.failed, 0#32, [], []⟩] } ∧
    exec .decFinish s = .next { s with responses := s.responses ++ [⟨.failed, 0#32, [], []⟩] }) ∧
  (∀ s t : State, step s = .next t → s.enc.eph = .error → t.enc.eph ≠ .error →
    ∃ rest, s.pending = .powerOn :: rest ∨ s.pending = .command (encode .encReset) :: rest) ∧
  (∀ s t : State, step s = .next t → s.dec.dph = .error → t.dec.dph ≠ .error →
    ∃ rest, s.pending = .powerOn :: rest ∨ s.pending = .command (encode .decReset) :: rest)

/-! ## Encoder: the match finder -/

/-- The key comparison: the number of leading equal bytes, 1 to F, and the difference of the first unequal ones, 0
exactly when all F agree (40_lzss_encoder.md R102). -/
def Obligations.KeyComparisonCountsLeadingEqualBytes : Prop :=
  ∀ (ring : Memory) (r p : Pos), ∃ (i : Nat) (cmp : Int), compareKeys ring r p = (i, cmp) ∧ 1 ≤ i ∧ i ≤ 18 ∧
    (∀ j : Nat, 1 ≤ j → j < i → ring.read (r.toNat + j) = ring.read (p.toNat + j)) ∧
    (i < 18 → cmp ≠ 0 ∧ cmp = ((ring.read (r.toNat + i)).toNat : Int) - ((ring.read (p.toNat + i)).toNat : Int)) ∧
    (i = 18 → cmp = 0)

/-- INSERT_NODE(r) with an empty tree for its first byte leaves MLEN = 0, MPOS unchanged and r alone in that tree
(40_lzss_encoder.md R103, corner cases). -/
def Obligations.InsertIntoEmptyTreeFindsNothing : Prop :=
  ∀ (r : Pos) (e : Enc), e.links.getRson (.root (e.ebuf.read r.toNat)) = none →
    ∃ e' : Enc, insertNode r e = .ok e' ∧ e' = { e with links := e'.links, best := e'.best } ∧
      e'.best = ⟨0#5, e.best.pos⟩ ∧
      (∀ i : Link, e'.links.getLson i = if i = .node r then none else e.links.getLson i) ∧
      (∀ i : Link, e'.links.getRson i =
        if i = .root (e.ebuf.read r.toNat) then some r else if i = .node r then none else e.links.getRson i) ∧
      (∀ i : Link, e'.links.getDad i =
        if i = .node r then .root (e.ebuf.read r.toNat) else e.links.getDad i)

/-- INSERT_NODE(r) of a position in no tree completes, keeps the trees well-formed and ordered, and turns the tree of
its first byte into Tree.insert of it (40_lzss_encoder.md R101, R103). No other node is new. A node p that the search
meets with r's whole key leaves the trees, DAD[p] = NIL, and is the only one that does; where it meets none, every node
stays. So keys that are distinct stay distinct: r is then the one node with its key. -/
def Obligations.InsertKeepsTheForest : Prop :=
  ∀ (ring : Memory) (r : Pos) (t : Links) (m : Match) (T : Byte → Tree), Forest ring t T →
    (∀ c, r ∉ (T c).inorder) →
    ∃ (t' : Links) (m' : Match) (T' : Byte → Tree), insertLinks ring r t m = .ok (t', m') ∧ Forest ring t' T' ∧
      T' (ring.read r.toNat) = (T (ring.read r.toNat)).insert ring r ∧
      (∀ c, c ≠ ring.read r.toNat → T' c = T c) ∧
      r ∈ (T' (ring.read r.toNat)).inorder ∧
      (∀ c p, p ∈ (T' c).inorder → p = r ∨ p ∈ (T c).inorder) ∧
      (∀ c p, p ∈ (T c).inorder → p ∉ (T' c).inorder → keyAt ring p = keyAt ring r) ∧
      (∀ p ∈ (T (ring.read r.toNat)).path ring r, keyAt ring p = keyAt ring r →
        (∀ c, p ∉ (T' c).inorder) ∧ t'.getDad (.node p) = .nil ∧
        ∀ c q, q ∈ (T c).inorder → q ≠ p → q ∈ (T' c).inorder) ∧
      ((∀ p ∈ (T (ring.read r.toNat)).path ring r, keyAt ring p ≠ keyAt ring r) →
        ∀ c q, q ∈ (T c).inorder → q ∈ (T' c).inorder) ∧
      ((∀ c, (T c).inorder.Pairwise (fun p q => keyAt ring p ≠ keyAt ring q)) →
        (∀ c p, p ∈ (T' c).inorder → keyAt ring p = keyAt ring r → p = r) ∧
        ∀ c, (T' c).inorder.Pairwise (fun p q => keyAt ring p ≠ keyAt ring q))

/-- DELETE_NODE(p) of a node of tree c completes, keeps the trees well-formed and ordered, turns tree c into
Tree.delete of it and takes exactly p out of its in-order walk (40_lzss_encoder.md R104). -/
def Obligations.DeleteRemovesExactlyTheNode : Prop :=
  ∀ (ring : Memory) (p : Pos) (t : Links) (T : Byte → Tree) (c : Byte), Forest ring t T → p ∈ (T c).inorder →
    ∃ (t' : Links) (T' : Byte → Tree), deleteLinks p t = .ok t' ∧ Forest ring t' T' ∧
      T' c = (T c).delete p ∧
      (T' c).inorder = (T c).inorder.filter (fun q => q ≠ p) ∧ (∀ c', c' ≠ c → T' c' = T c') ∧
      t'.getDad (.node p) = .nil

/-- The match INSERT_NODE(r) leaves is a longest one, and of the longest the first the search meets: no node of the
tree agrees with r in more leading bytes than MLEN, and MPOS is the first node on the path from the root that agrees in
MLEN bytes (40_lzss_encoder.md R103, "searched for the longest prior match", "the first one met on the search path,
nearest the root"). -/
def Obligations.InsertFindsALongestMatch : Prop :=
  ∀ (ring : Memory) (r : Pos) (t t' : Links) (m m' : Match) (T : Byte → Tree), Forest ring t T →
    (∀ c, r ∉ (T c).inorder) → insertLinks ring r t m = .ok (t', m') →
    (∀ p ∈ (T (ring.read r.toNat)).inorder, (compareKeys ring r p).1 ≤ m'.len.toNat) ∧
    ((T (ring.read r.toNat)).inorder ≠ [] → m'.pos ∈ (T (ring.read r.toNat)).inorder ∧
      (compareKeys ring r m'.pos).1 = m'.len.toNat ∧
      ∃ before rest : List Pos, (T (ring.read r.toNat)).path ring r = before ++ m'.pos :: rest ∧
        ∀ p ∈ before, (compareKeys ring r p).1 < m'.len.toNat)

/-- The MLEN bytes at MPOS are the MLEN bytes at r after INSERT_NODE(r) (40_lzss_encoder.md R115). -/
def Obligations.MatchAgreesWithTheLookAhead : Prop :=
  ∀ (ring : Memory) (r : Pos) (t t' : Links) (m m' : Match) (T : Byte → Tree), Forest ring t T →
    (∀ c, r ∉ (T c).inorder) → insertLinks ring r t m = .ok (t', m') →
    m'.len.toNat ≤ 18 ∧
    ∀ i : Nat, i < m'.len.toNat → ring.read (m'.pos.toNat + i) = ring.read (r.toNat + i)

/-! ## Encoder: units and groups -/

/-- The two bytes of a back-reference name its position and its length 3..18, and a decoder reads back the same
(30_encoding.md R90, R91, conflict C5). -/
def Obligations.BackReferenceBytesReadBack : Prop :=
  (∀ (pos : Pos) (len : Len), 3 ≤ len.toNat → len.toNat ≤ 18 →
    (refLow pos).toNat = pos.toNat % 256 ∧ (refHigh pos len).toNat = pos.toNat / 256 * 16 + (len.toNat - 3) ∧
    refPos (refLow pos) (refHigh pos len) = pos ∧ refLen (refHigh pos len) = len.toNat) ∧
  (∀ b0 b1 : Byte, (refPos b0 b1).toNat = b1.toNat / 16 * 256 + b0.toNat ∧ refLen b1 = b1.toNat % 16 + 3)

/-- EMIT_GROUP emits the control byte XOR the password byte, then CBUF[1..CBP−1], and empties the group
(40_lzss_encoder.md R106). CBP is at most 17 (10_state.md R30). -/
def Obligations.EmitGroupWritesControlByteThenUnits : Prop :=
  ∀ (f : Obf) (e : Enc), 1 ≤ e.group.cbp.toNat → e.group.cbp.toNat ≤ 17 →
    ∃ (e' : Enc) (units : List Byte),
      emitGroup f e = .ok (e', (e.group.cbuf.read 0 ^^^ (pbyteTake f e.epcur).1) :: units) ∧
      units.length = e.group.cbp.toNat - 1 ∧
      (∀ k : Nat, 1 ≤ k → k < e.group.cbp.toNat → units.getD (k - 1) 0#8 = e.group.cbuf.read k) ∧
      e' = { e with group := e'.group, epcur := (pbyteTake f e.epcur).2 } ∧
      (∀ a : Nat, e'.group.cbuf.read a = if a = 0 then 0#8 else e.group.cbuf.read a) ∧
      e'.group.cbp = 1#5 ∧ e'.group.gunits = 0#3

/-- EMIT_UNIT (40_lzss_encoder.md R107): a clipped length up to 2 is a literal, with MLEN 1 and control bit GUNITS
set; a longer one is a back-reference of two bytes; the eighth unit emits the group. CBP is 1..15 here and ELEN at most
18 (R114). -/
def Obligations.EmitUnitCodesLiteralOrReference : Prop :=
  ∀ (f : Obf) (e : Enc), 1 ≤ e.group.cbp.toNat → e.group.cbp.toNat ≤ 15 → e.elen.toNat ≤ 18 →
    ∃ (e1 : Enc) (len : Nat), len = min e.best.len.toNat e.elen.toNat ∧
      emitUnit f e = (if e.group.gunits = 7#3 then emitGroup f e1
        else .ok ({ e1 with group := { e1.group with gunits := e.group.gunits + 1#3 } }, [])) ∧
      e1 = { e with best := { e.best with len := e1.best.len }, group := e1.group } ∧
      e1.group.gunits = e.group.gunits ∧
      e.group.Adds (e.ebuf.read e.r.toNat) e.best.pos len e1.group ∧
      (len ≤ 2 → e1.best.len = 1#5) ∧ (2 < len → e1.best.len.toNat = len)

/-! ## Encoder: commands -/

/-- ENC.RESET sets every encoder register to its reset value and nothing else, in every phase; a nonzero argument is
answered RSVD (40_lzss_encoder.md R111). -/
def Obligations.EncResetRestartsTheEncoder : Prop :=
  (∀ s : State, ∃ t : State, exec .encReset s = .next t ∧
    t = { s with enc := t.enc, responses := s.responses ++ [⟨.ok, 0#32, [], []⟩] } ∧
    t.enc.eph = .fill ∧ (∀ a : Nat, t.enc.ebuf.read a = 0#8) ∧
    (∀ i : Link, t.enc.links.getLson i = none ∧ t.enc.links.getRson i = none ∧ t.enc.links.getDad i = .nil) ∧
    t.enc.r = 4078#12 ∧ t.enc.elen = 0#5 ∧ t.enc.etodo = 0#5 ∧ t.enc.best = ⟨0#5, 0#12⟩ ∧
    (∀ k : Nat, t.enc.group.cbuf.read k = 0#8) ∧ t.enc.group.cbp = 1#5 ∧ t.enc.group.gunits = 0#3 ∧
    t.enc.epcur = 0#8 ∧ t.enc.ein = 0#32 ∧ t.enc.eout = 0#32) ∧
  (∀ arg : Word, arg ≠ 0#32 → AnswersRsvd 0x01#8 arg)

/-- ENC.PUT of one of the first 17 bytes stores it at EBUF[R + ELEN] and emits nothing (40_lzss_encoder.md R112; R is
4078 in FILL, R114). -/
def Obligations.EncPutFillsTheLookAhead : Prop :=
  ∀ (b : Byte) (s : State), s.enc.eph = .fill → s.enc.r = 4078#12 → s.enc.elen.toNat ≤ 16 →
    ∃ t : State, exec (.encPut b) s = .next t ∧
      t = { s with enc := t.enc, responses := s.responses ++ [⟨.ok, 0#32, [], []⟩] } ∧
      t.enc = { s.enc with ebuf := t.enc.ebuf, elen := s.enc.elen + 1#5, ein := s.enc.ein + 1#32 } ∧
      ∀ a : Nat, t.enc.ebuf.read a = if a = 4078 + s.enc.elen.toNat then b else s.enc.ebuf.read a

/-- ENC.PUT of the 18th byte completes from every encoder state within its invariant, emitting nothing
(40_lzss_encoder.md R105, R107, R112). START inserts 4077 down to 4060, then 4078: every tree node is one of 4060..4078,
and each of these is in a tree or has the whole key of one that is. The match the last INSERT_NODE left is coded as the
group's first unit, the bytes at 4078 being the look-ahead, and its length is ETODO. -/
def Obligations.EncPutOfTheEighteenthByteStartsTheRun : Prop :=
  ∀ (b : Byte) (s : State), s.enc.Safe → s.enc.eph = .fill → s.enc.elen = 17#5 →
    ∃ (t : State) (e1 : Enc) (T : Byte → Tree), exec (.encPut b) s = .next t ∧
      t = { s with enc := t.enc, responses := s.responses ++ [⟨.ok, 0#32, [], []⟩] } ∧
      t.enc = { s.enc with
        eph := .run, ebuf := t.enc.ebuf, links := t.enc.links, elen := 18#5, etodo := t.enc.best.len,
        best := t.enc.best, group := t.enc.group, ein := s.enc.ein + 1#32 } ∧
      (∀ a : Nat, t.enc.ebuf.read a = if a = 4095 then b else s.enc.ebuf.read a) ∧
      insertAll (startPositions 4078#12) { s.enc with ebuf := t.enc.ebuf, elen := 18#5 } = .ok e1 ∧
      t.enc.links = e1.links ∧ Forest t.enc.ebuf t.enc.links T ∧
      (∀ c p, p ∈ (T c).inorder → 4060 ≤ p.toNat ∧ p.toNat ≤ 4078) ∧
      (∀ p : Pos, 4060 ≤ p.toNat → p.toNat ≤ 4078 →
        ∃ c q, q ∈ (T c).inorder ∧ keyAt t.enc.ebuf q = keyAt t.enc.ebuf p) ∧
      t.enc.best = e1.best.coded ∧
      s.enc.group.Adds (t.enc.ebuf.read 4078) e1.best.pos e1.best.len.toNat t.enc.group ∧
      1 ≤ t.enc.etodo.toNat ∧ t.enc.etodo.toNat ≤ 18 ∧ t.enc.group.gunits = 1#3

/-- ENC.PUT in RUN completes from every encoder state within its invariant (40_lzss_encoder.md R107, R108, R112). It
takes S = R + F out of its tree, writes the byte at S and its mirror and inserts R + 1, which leaves the match m. While
a unit is still being covered it does nothing else. Else it adds the unit m codes to the pending group, whose bytes
stay, and ETODO is the unit's length; the eighth unit's group is emitted whole, its control byte masked. -/
def Obligations.EncPutInRunShiftsTheWindow : Prop :=
  ∀ (b : Byte) (s : State), s.enc.Safe → s.enc.eph = .run →
    ∃ (t : State) (out : List Byte) (l : Links) (m : Match), exec (.encPut b) s = .next t ∧
      t = { s with enc := t.enc, responses := s.responses ++ [⟨.ok, BitVec.ofNat 32 out.length, out, []⟩] } ∧
      t.enc = { s.enc with
        ebuf := t.enc.ebuf, links := t.enc.links, r := s.enc.r + 1#12, etodo := t.enc.etodo, best := t.enc.best,
        group := t.enc.group, epcur := t.enc.epcur, ein := s.enc.ein + 1#32,
        eout := s.enc.eout + BitVec.ofNat 32 out.length } ∧
      (∀ a : Nat, t.enc.ebuf.read a =
        if a = (s.enc.r + 18#12).toNat ∨ ((s.enc.r + 18#12).toNat < 17 ∧ a = (s.enc.r + 18#12).toNat + 4096) then b
        else s.enc.ebuf.read a) ∧
      deleteLinks (s.enc.r + 18#12) s.enc.links = .ok l ∧
      insertLinks t.enc.ebuf (s.enc.r + 1#12) l s.enc.best = .ok (t.enc.links, m) ∧
      (s.enc.etodo ≠ 1#5 → out = [] ∧ t.enc.etodo = s.enc.etodo - 1#5 ∧ t.enc.best = m ∧
        t.enc.group = s.enc.group ∧ t.enc.epcur = s.enc.epcur) ∧
      (s.enc.etodo = 1#5 → t.enc.best = m.coded ∧ t.enc.etodo = t.enc.best.len ∧
        ∃ g : Group, s.enc.group.Adds (t.enc.ebuf.read (s.enc.r + 1#12).toNat) m.pos m.len.toNat g ∧
          (s.enc.group.gunits ≠ 7#3 → out = [] ∧ t.enc.epcur = s.enc.epcur ∧
            t.enc.group = { g with gunits := s.enc.group.gunits + 1#3 }) ∧
          (s.enc.group.gunits = 7#3 → 2 ≤ out.length ∧ out.length ≤ 17 ∧
            out = (g.cbuf.read 0 ^^^ (pbyteTake s.obf s.enc.epcur).1) ::
              (List.range' 1 (g.cbp.toNat - 1)).map g.cbuf.read ∧
            t.enc.epcur = (pbyteTake s.obf s.enc.epcur).2 ∧
            t.enc.group.cbp = 1#5 ∧ t.enc.group.gunits = 0#3 ∧ t.enc.group.cbuf.read 0 = 0#8))

/-- ENC.FINISH completes from every encoder state within its invariant in FILL or RUN: DONE, an empty look-ahead, no
pending unit, the ring and EIN unchanged, R advanced over the look-ahead (40_lzss_encoder.md R113). What it codes and
emits is DRAIN's: after START in FILL, where there is a byte, and after the rest of the unit in progress in RUN. -/
def Obligations.EncFinishDrainsTheLookAhead : Prop :=
  ∀ s : State, s.enc.Safe → (s.enc.eph = .fill ∨ s.enc.eph = .run) →
    ∃ (t : State) (out : List Byte) (e1 e2 : Enc), exec .encFinish s = .next t ∧
      t = { s with enc := t.enc, responses := s.responses ++ [⟨.ok, BitVec.ofNat 32 out.length, out, []⟩] } ∧
      t.enc = { s.enc with
        eph := .done, links := t.enc.links, r := s.enc.r + s.enc.elen.setWidth 12, elen := 0#5, etodo := 0#5,
        best := t.enc.best, group := t.enc.group, epcur := t.enc.epcur,
        eout := s.enc.eout + BitVec.ofNat 32 out.length } ∧
      t.enc.group.cbp = 1#5 ∧ t.enc.group.gunits = 0#3 ∧ out.length ≤ 34 ∧
      t.enc = { e2 with eph := .done, eout := s.enc.eout + BitVec.ofNat 32 out.length } ∧
      (s.enc.eph = .fill → s.enc.elen = 0#5 → e2 = s.enc ∧ out = []) ∧
      (s.enc.eph = .fill → s.enc.elen ≠ 0#5 →
        insertAll (startPositions 4078#12) s.enc = .ok e1 ∧ drain s.obf e1 = .ok (e2, out)) ∧
      (s.enc.eph = .run →
        advanceEmptyTimes s.enc.etodo.toNat s.enc = .ok e1 ∧ drain s.obf { e1 with etodo := 0#5 } = .ok (e2, out))

/-- ENC.RESET then ENC.FINISH emits no byte and leaves EOUT 0 and EPCUR where the RESET put it (40_lzss_encoder.md
R119). -/
def Obligations.EmptyInputEncodesToNothing : Prop :=
  ∀ s : State, ∃ a b : State, exec .encReset s = .next a ∧ exec .encFinish a = .next b ∧
    b.responses = a.responses ++ [⟨.ok, 0#32, [], []⟩] ∧
    b.enc.eph = .done ∧ b.enc.eout = 0#32 ∧ b.enc.epcur = a.enc.epcur

/-- The encoder's ranges and the mirror (40_lzss_encoder.md R114, 10_state.md R23) are kept by every step. -/
def Obligations.EveryStepKeepsEncoderRangesAndMirror : Prop :=
  ∀ s t : State, s.enc.InRange → Mirrored s.enc.ebuf → step s = .next t → t.enc.InRange ∧ Mirrored t.enc.ebuf

/-- From encoder ranges, one ENC.PUT emits 0 bytes or 2..17 and one ENC.FINISH at most 34; no other command emits
encoder output; the data of both is the number of bytes (40_lzss_encoder.md R116, 30_encoding.md R86). -/
def Obligations.EncoderOutputBurstIsBounded : Prop :=
  ∀ (i : Instr) (s t : State) (r : Response), s.enc.InRange → exec i s = .next t →
    t.responses = s.responses ++ [r] →
    (∀ b, i = .encPut b → r.encOut.length ≤ 17 ∧ r.encOut.length ≠ 1) ∧
    (i = .encFinish → r.encOut.length ≤ 34) ∧
    (isEncoderCommand i = true → r.code = .ok → r.data.toNat = r.encOut.length) ∧
    ((∀ b, i ≠ .encPut b) → i ≠ .encFinish → r.encOut = [])

/-! ## The whole block -/

/-- Every step keeps every array in its canonical form and inside its index range (20_memory.md R60, log 9). -/
def Obligations.EveryStepKeepsArraysCanonical : Prop :=
  ∀ s t : State, Canonical s → step s = .next t → Canonical t

/-- Every step keeps the password's ranges: PLEN ≤ PWD_MAX, nonzero bytes below PLEN and zero bytes from it on,
cursors below PLEN or 0 (10_state.md R31, R39, R42, 42_obfuscation.md R180). -/
def Obligations.EveryStepKeepsPasswordRanges : Prop :=
  ∀ s t : State, PasswordOk s → step s = .next t → PasswordOk t

/-- The safe states, those that meet every invariant of the spec, are closed under steps. -/
def Obligations.EveryStepKeepsSafety : Prop :=
  ∀ s t : State, Safe s → step s = .next t → Safe t

/-- From a safe state no step faults and none is refused: every input gets its answer. -/
def Obligations.SafeStateNeverStops : Prop :=
  ∀ s : State, Safe s → ∃ t : State, step s = .next t

/-- The state after power-on reset is safe, for every PWD_MAX of 1..255. -/
def Obligations.PowerOnStateIsSafe : Prop :=
  ∀ cfg : Config, 1 ≤ cfg.pwdMax.toNat → Safe (State.powerOn cfg)

/-- CMDERR, STATUS bit 8, is set exactly by the codes ILLOP, RSVD, PFULL, PZERO and BADREG, no command clears it, and
power-on reset does (60_exceptions.md R222). -/
def Obligations.CmderrRecordsEveryMalformedCommand : Prop :=
  (∀ s t : State, step s = .next t →
    (s.pending = [] → t.cmderr = s.cmderr) ∧
    (∀ rest, s.pending = .powerOn :: rest → t.cmderr = false) ∧
    (∀ w rest, s.pending = .command w :: rest → ∃ r : Response, t.responses = s.responses ++ [r] ∧
      t.cmderr = (s.cmderr || decide (r.code ∈ [Code.illop, .rsvd, .pfull, .pzero, .badreg])))) ∧
  (∀ s : State, (statusWord s).getLsbD 8 = s.cmderr)

/-- Every command word gets exactly one response, and a rejected command changes nothing but CMDERR, or its unit's
phase where the code is STATE; its data is 0 and its output lists are empty (60_exceptions.md R220). -/
def Obligations.RejectedCommandChangesNothingElse : Prop :=
  ∀ (s t : State) (w : CommandWord) (rest : List Input), s.pending = .command w :: rest → step s = .next t →
    ∃ r : Response, t.responses = s.responses ++ [r] ∧
      (r.code ≠ .ok → r.data = 0#32 ∧ r.encOut = [] ∧ r.decOut = [] ∧
        t = { s with enc := t.enc, dec := t.dec, cmderr := t.cmderr, pending := rest, responses := t.responses } ∧
        (r.code ∈ [Code.illop, .rsvd, .pfull, .pzero, .badreg] →
          t.cmderr = true ∧ t.enc = s.enc ∧ t.dec = s.dec) ∧
        (r.code = .failed → t.cmderr = s.cmderr ∧ t.enc = s.enc ∧ t.dec = s.dec) ∧
        (r.code = .state → t.cmderr = s.cmderr ∧
          ((t.enc = { s.enc with eph := .error } ∧ t.dec = s.dec) ∨
            (t.enc = s.enc ∧ t.dec = { s.dec with dph := .error }))))

/-- Each unit's state is changed only by its own commands, but for the cursors PWD.CLEAR zeroes; the password only by
the password commands; the parameters and the port by none (70_reset_and_hazards.md R251, 60_exceptions.md R233). -/
def Obligations.UnitsAreIndependent : Prop :=
  ∀ (i : Instr) (s t : State), exec i s = .next t →
    (isEncoderCommand i = false → t.enc = { s.enc with epcur := t.enc.epcur } ∧
      (i ≠ .pwdClear → t.enc = s.enc)) ∧
    (isDecoderCommand i = false → t.dec = { s.dec with dpcur := t.dec.dpcur } ∧
      (i ≠ .pwdClear → t.dec = s.dec)) ∧
    (isPasswordCommand i = false → t.obf = s.obf) ∧
    t.cfg = s.cfg ∧ t.pending = s.pending

/-- Streaming invariance (40_lzss_encoder.md R117): commands that are neither the encoder's nor the password's, put
anywhere between encoder commands, change neither the encoder's state nor its output bytes. -/
def Obligations.InterleavedCommandsLeaveTheEncodedStream : Prop :=
  ∀ (cs : List Instr) (s t : State), (∀ i ∈ cs, isPasswordCommand i = false) → runCommands cs s = .next t →
    ∃ (u : State) (rs rs' : List Response), runCommands (cs.filter isEncoderCommand) s = .next u ∧
      t.responses = s.responses ++ rs ∧ u.responses = s.responses ++ rs' ∧
      encBytes rs = encBytes rs' ∧ t.enc = u.enc

/-- The round trip (41_lzss_decoder.md R160): from every state, encoding any bytes as one stream and decoding the
emitted payload as one stream, with the same password, emits exactly the bytes and ends CLEAN. -/
def Obligations.DecodingTheEncodedStreamGivesTheBytes : Prop :=
  ∀ (bytes : List Byte) (s : State), ∃ (t u : State) (rs rs' : List Response),
    runCommands (encodeStream bytes) s = .next t ∧ t.responses = s.responses ++ rs ∧
    runCommands (decodeStream (encBytes rs)) t = .next u ∧ u.responses = t.responses ++ rs' ∧
    decBytes rs' = bytes ∧ u.dec.dend = .clean

/-! ## Assembler -/

/-- What an assembler makes of each mnemonic and operand (30_encoding.md R95). Format Z takes none; the others take one:
a number in range, a printable ASCII character, which stands for its code, or, on RDREG only, a register name. Every
command can be written. The names of the refusals are the model's choice (log 14). -/
def Obligations.AssemblerAcceptsExactlyTheOperandsOfTheFormat : Prop :=
  (∀ i : Instr, ∃ (m : Mnemonic) (o : Option Operand), assemble m o = .ok i) ∧
  (assemble .nop none = .ok .nop ∧ assemble .encReset none = .ok .encReset ∧
    assemble .encFinish none = .ok .encFinish ∧ assemble .decReset none = .ok .decReset ∧
    assemble .decFinish none = .ok .decFinish ∧ assemble .pwdClear none = .ok .pwdClear) ∧
  (∀ (m : Mnemonic) (o : Operand),
    m ∈ [Mnemonic.nop, .encReset, .encFinish, .decReset, .decFinish, .pwdClear] →
      assemble m (some o) = .error .unexpectedOperand) ∧
  (∀ m : Mnemonic, m ∈ [Mnemonic.encPut, .decPut, .pwdAppend, .obf32, .rdreg] →
    assemble m none = .error .missingOperand) ∧
  (∀ (m : Mnemonic) (n : Nat), m ∈ [Mnemonic.encPut, .decPut, .pwdAppend, .rdreg] → 255 < n →
    assemble m (some (.number n)) = .error .outOfRange) ∧
  (∀ n : Nat, 0xFFFFFFFF < n → assemble .obf32 (some (.number n)) = .error .outOfRange) ∧
  (∀ (m : Mnemonic) (r : RegName), m ∈ [Mnemonic.encPut, .decPut, .pwdAppend, .obf32] →
    assemble m (some (.reg r)) = .error .registerNotAllowed) ∧
  (∀ r : RegName, assemble .rdreg (some (.reg r)) = .ok (.rdreg r.index)) ∧
  (∀ b : Byte, assemble .encPut (some (.number b.toNat)) = .ok (.encPut b) ∧
    assemble .decPut (some (.number b.toNat)) = .ok (.decPut b) ∧
    assemble .pwdAppend (some (.number b.toNat)) = .ok (.pwdAppend b) ∧
    assemble .rdreg (some (.number b.toNat)) = .ok (.rdreg b)) ∧
  (∀ v : Word, assemble .obf32 (some (.number v.toNat)) = .ok (.obf32 v)) ∧
  (∀ c : Char, 0x20 ≤ c.toNat → c.toNat ≤ 0x7E →
    assemble .encPut (some (.char c)) = .ok (.encPut (BitVec.ofNat 8 c.toNat)) ∧
    assemble .decPut (some (.char c)) = .ok (.decPut (BitVec.ofNat 8 c.toNat)) ∧
    assemble .pwdAppend (some (.char c)) = .ok (.pwdAppend (BitVec.ofNat 8 c.toNat)) ∧
    assemble .rdreg (some (.char c)) = .ok (.rdreg (BitVec.ofNat 8 c.toNat)) ∧
    assemble .obf32 (some (.char c)) = .ok (.obf32 (BitVec.ofNat 32 c.toNat))) ∧
  (∀ (m : Mnemonic) (c : Char), m ∈ [Mnemonic.encPut, .decPut, .pwdAppend, .obf32, .rdreg] →
    c.toNat < 0x20 ∨ 0x7E < c.toNat → assemble m (some (.char c)) = .error .badOperand)

/-! ## Encoder: draining -/

/-- DRAIN codes a unit and advances over its length while ELEN > 0, and then flushes a group with a unit in it;
ADVANCE_EMPTY takes S out of its tree, advances R, counts ELEN down, inserts R while ELEN is not 0, and writes no ring
byte (40_lzss_encoder.md R109, R110, conflict C7). -/
def Obligations.DrainCodesTheLookAheadUnitByUnit : Prop :=
  (∀ (f : Obf) (e : Enc), e.elen = 0#5 →
    drain f e = if 1 < e.group.cbp.toNat then emitGroup f e else .ok (e, [])) ∧
  (∀ (f : Obf) (e e1 e2 e3 : Enc) (out more : List Byte), e.elen ≠ 0#5 → emitUnit f e = .ok (e1, out) →
    advanceEmptyTimes e1.best.len.toNat e1 = .ok e2 → drain f e2 = .ok (e3, more) →
    drain f e = .ok (e3, out ++ more)) ∧
  (∀ e : Enc, advanceEmptyTimes 0 e = .ok e) ∧
  (∀ (n : Nat) (e e1 e2 : Enc), advanceEmpty e = .ok e1 → advanceEmptyTimes n e1 = .ok e2 →
    advanceEmptyTimes (n + 1) e = .ok e2) ∧
  (∀ (e : Enc) (l : Links), deleteLinks (e.r + 18#12) e.links = .ok l →
    (e.elen = 1#5 → advanceEmpty e = .ok { e with links := l, r := e.r + 1#12, elen := 0#5 }) ∧
    (e.elen ≠ 1#5 → ∀ (l' : Links) (m : Match), insertLinks e.ebuf (e.r + 1#12) l e.best = .ok (l', m) →
      advanceEmpty e = .ok { e with links := l', best := m, r := e.r + 1#12, elen := e.elen - 1#5 }))
end

