-- ==== Sys2Proof/Laws/State.lean ====
section
/-! SUPPORT. One lemma per field and update of the state, the encoder, the decoder and the group buffer, so that no
proof unfolds a record update. -/

namespace Sys2Proof.Machine

/-! ## State -/

@[simp] theorem State.respond_enc (s : State) (r : Response) : (s.respond r).enc = s.enc := rfl
@[simp] theorem State.respond_dec (s : State) (r : Response) : (s.respond r).dec = s.dec := rfl
@[simp] theorem State.respond_obf (s : State) (r : Response) : (s.respond r).obf = s.obf := rfl
@[simp] theorem State.respond_cmderr (s : State) (r : Response) : (s.respond r).cmderr = s.cmderr := rfl
@[simp] theorem State.respond_cfg (s : State) (r : Response) : (s.respond r).cfg = s.cfg := rfl
@[simp] theorem State.respond_pending (s : State) (r : Response) : (s.respond r).pending = s.pending := rfl
@[simp] theorem State.respond_responses (s : State) (r : Response) : (s.respond r).responses = s.responses ++ [r] := rfl

@[simp] theorem State.respondOk_enc (s : State) (v : Word) : (s.respondOk v).enc = s.enc := rfl
@[simp] theorem State.respondOk_dec (s : State) (v : Word) : (s.respondOk v).dec = s.dec := rfl
@[simp] theorem State.respondOk_obf (s : State) (v : Word) : (s.respondOk v).obf = s.obf := rfl
@[simp] theorem State.respondOk_cmderr (s : State) (v : Word) : (s.respondOk v).cmderr = s.cmderr := rfl
@[simp] theorem State.respondOk_cfg (s : State) (v : Word) : (s.respondOk v).cfg = s.cfg := rfl
@[simp] theorem State.respondOk_pending (s : State) (v : Word) : (s.respondOk v).pending = s.pending := rfl
@[simp] theorem State.respondOk_responses (s : State) (v : Word) : (s.respondOk v).responses = s.responses ++ [⟨.ok, v, [], []⟩] := rfl

@[simp] theorem State.reject_enc (s : State) (c : Code) : (s.reject c).enc = s.enc := rfl
@[simp] theorem State.reject_dec (s : State) (c : Code) : (s.reject c).dec = s.dec := rfl
@[simp] theorem State.reject_obf (s : State) (c : Code) : (s.reject c).obf = s.obf := rfl
@[simp] theorem State.reject_cmderr (s : State) (c : Code) : (s.reject c).cmderr = s.cmderr := rfl
@[simp] theorem State.reject_cfg (s : State) (c : Code) : (s.reject c).cfg = s.cfg := rfl
@[simp] theorem State.reject_pending (s : State) (c : Code) : (s.reject c).pending = s.pending := rfl
@[simp] theorem State.reject_responses (s : State) (c : Code) : (s.reject c).responses = s.responses ++ [⟨c, 0#32, [], []⟩] := rfl

@[simp] theorem State.rejectMalformed_enc (s : State) (c : Code) : (s.rejectMalformed c).enc = s.enc := rfl
@[simp] theorem State.rejectMalformed_dec (s : State) (c : Code) : (s.rejectMalformed c).dec = s.dec := rfl
@[simp] theorem State.rejectMalformed_obf (s : State) (c : Code) : (s.rejectMalformed c).obf = s.obf := rfl
@[simp] theorem State.rejectMalformed_cmderr (s : State) (c : Code) : (s.rejectMalformed c).cmderr = true := rfl
@[simp] theorem State.rejectMalformed_cfg (s : State) (c : Code) : (s.rejectMalformed c).cfg = s.cfg := rfl
@[simp] theorem State.rejectMalformed_pending (s : State) (c : Code) : (s.rejectMalformed c).pending = s.pending := rfl
@[simp] theorem State.rejectMalformed_responses (s : State) (c : Code) : (s.rejectMalformed c).responses = s.responses ++ [⟨c, 0#32, [], []⟩] := rfl

@[simp] theorem State.rejectEncDone_enc (s : State) : (s.rejectEncDone).enc = { s.enc with eph := .error } := rfl
@[simp] theorem State.rejectEncDone_dec (s : State) : (s.rejectEncDone).dec = s.dec := rfl
@[simp] theorem State.rejectEncDone_obf (s : State) : (s.rejectEncDone).obf = s.obf := rfl
@[simp] theorem State.rejectEncDone_cmderr (s : State) : (s.rejectEncDone).cmderr = s.cmderr := rfl
@[simp] theorem State.rejectEncDone_cfg (s : State) : (s.rejectEncDone).cfg = s.cfg := rfl
@[simp] theorem State.rejectEncDone_pending (s : State) : (s.rejectEncDone).pending = s.pending := rfl
@[simp] theorem State.rejectEncDone_responses (s : State) : (s.rejectEncDone).responses = s.responses ++ [⟨.state, 0#32, [], []⟩] := rfl

@[simp] theorem State.rejectDecDone_enc (s : State) : (s.rejectDecDone).enc = s.enc := rfl
@[simp] theorem State.rejectDecDone_dec (s : State) : (s.rejectDecDone).dec = { s.dec with dph := .error } := rfl
@[simp] theorem State.rejectDecDone_obf (s : State) : (s.rejectDecDone).obf = s.obf := rfl
@[simp] theorem State.rejectDecDone_cmderr (s : State) : (s.rejectDecDone).cmderr = s.cmderr := rfl
@[simp] theorem State.rejectDecDone_cfg (s : State) : (s.rejectDecDone).cfg = s.cfg := rfl
@[simp] theorem State.rejectDecDone_pending (s : State) : (s.rejectDecDone).pending = s.pending := rfl
@[simp] theorem State.rejectDecDone_responses (s : State) : (s.rejectDecDone).responses = s.responses ++ [⟨.state, 0#32, [], []⟩] := rfl

@[simp] theorem State.powerOnReset_enc (s : State) : (s.powerOnReset).enc = Enc.initial := rfl
@[simp] theorem State.powerOnReset_dec (s : State) : (s.powerOnReset).dec = Dec.initial := rfl
@[simp] theorem State.powerOnReset_obf (s : State) : (s.powerOnReset).obf = Obf.initial := rfl
@[simp] theorem State.powerOnReset_cmderr (s : State) : (s.powerOnReset).cmderr = false := rfl
@[simp] theorem State.powerOnReset_cfg (s : State) : (s.powerOnReset).cfg = s.cfg := rfl
@[simp] theorem State.powerOnReset_pending (s : State) : (s.powerOnReset).pending = s.pending := rfl
@[simp] theorem State.powerOnReset_responses (s : State) : (s.powerOnReset).responses = s.responses := rfl

@[simp] theorem State.placeWord_enc (s : State) (w : CommandWord) : (s.placeWord w).enc = s.enc := rfl
@[simp] theorem State.placeWord_dec (s : State) (w : CommandWord) : (s.placeWord w).dec = s.dec := rfl
@[simp] theorem State.placeWord_obf (s : State) (w : CommandWord) : (s.placeWord w).obf = s.obf := rfl
@[simp] theorem State.placeWord_cmderr (s : State) (w : CommandWord) : (s.placeWord w).cmderr = s.cmderr := rfl
@[simp] theorem State.placeWord_cfg (s : State) (w : CommandWord) : (s.placeWord w).cfg = s.cfg := rfl
@[simp] theorem State.placeWord_pending (s : State) (w : CommandWord) : (s.placeWord w).pending = .command w :: s.pending := rfl
@[simp] theorem State.placeWord_responses (s : State) (w : CommandWord) : (s.placeWord w).responses = s.responses := rfl

@[simp] theorem State.respondEnc_enc (s : State) (e : Enc) (o : List Byte) : (s.respondEnc e o).enc = e := rfl
@[simp] theorem State.respondEnc_dec (s : State) (e : Enc) (o : List Byte) : (s.respondEnc e o).dec = s.dec := rfl
@[simp] theorem State.respondEnc_obf (s : State) (e : Enc) (o : List Byte) : (s.respondEnc e o).obf = s.obf := rfl
@[simp] theorem State.respondEnc_cmderr (s : State) (e : Enc) (o : List Byte) : (s.respondEnc e o).cmderr = s.cmderr := rfl
@[simp] theorem State.respondEnc_cfg (s : State) (e : Enc) (o : List Byte) : (s.respondEnc e o).cfg = s.cfg := rfl
@[simp] theorem State.respondEnc_pending (s : State) (e : Enc) (o : List Byte) : (s.respondEnc e o).pending = s.pending := rfl
@[simp] theorem State.respondEnc_responses (s : State) (e : Enc) (o : List Byte) : (s.respondEnc e o).responses = s.responses ++ [⟨.ok, BitVec.ofNat 32 o.length, o, []⟩] := rfl

@[simp] theorem State.respondDec_enc (s : State) (d : Dec) (o : List Byte) : (s.respondDec d o).enc = s.enc := rfl
@[simp] theorem State.respondDec_dec (s : State) (d : Dec) (o : List Byte) : (s.respondDec d o).dec = d := rfl
@[simp] theorem State.respondDec_obf (s : State) (d : Dec) (o : List Byte) : (s.respondDec d o).obf = s.obf := rfl
@[simp] theorem State.respondDec_cmderr (s : State) (d : Dec) (o : List Byte) : (s.respondDec d o).cmderr = s.cmderr := rfl
@[simp] theorem State.respondDec_cfg (s : State) (d : Dec) (o : List Byte) : (s.respondDec d o).cfg = s.cfg := rfl
@[simp] theorem State.respondDec_pending (s : State) (d : Dec) (o : List Byte) : (s.respondDec d o).pending = s.pending := rfl
@[simp] theorem State.respondDec_responses (s : State) (d : Dec) (o : List Byte) : (s.respondDec d o).responses = s.responses ++ [⟨.ok, BitVec.ofNat 32 o.length, [], o⟩] := rfl

/-! ## Encoder -/

@[simp] theorem Enc.countPut_eph (e : Enc) (o : List Byte) : (e.countPut o).eph = e.eph := rfl
@[simp] theorem Enc.countPut_ebuf (e : Enc) (o : List Byte) : (e.countPut o).ebuf = e.ebuf := rfl
@[simp] theorem Enc.countPut_links (e : Enc) (o : List Byte) : (e.countPut o).links = e.links := rfl
@[simp] theorem Enc.countPut_r (e : Enc) (o : List Byte) : (e.countPut o).r = e.r := rfl
@[simp] theorem Enc.countPut_elen (e : Enc) (o : List Byte) : (e.countPut o).elen = e.elen := rfl
@[simp] theorem Enc.countPut_etodo (e : Enc) (o : List Byte) : (e.countPut o).etodo = e.etodo := rfl
@[simp] theorem Enc.countPut_best (e : Enc) (o : List Byte) : (e.countPut o).best = e.best := rfl
@[simp] theorem Enc.countPut_group (e : Enc) (o : List Byte) : (e.countPut o).group = e.group := rfl
@[simp] theorem Enc.countPut_epcur (e : Enc) (o : List Byte) : (e.countPut o).epcur = e.epcur := rfl
@[simp] theorem Enc.countPut_ein (e : Enc) (o : List Byte) : (e.countPut o).ein = e.ein + 1#32 := rfl
@[simp] theorem Enc.countPut_eout (e : Enc) (o : List Byte) : (e.countPut o).eout = e.eout + BitVec.ofNat 32 o.length := rfl

@[simp] theorem Enc.countFinish_eph (e : Enc) (o : List Byte) : (e.countFinish o).eph = .done := rfl
@[simp] theorem Enc.countFinish_ebuf (e : Enc) (o : List Byte) : (e.countFinish o).ebuf = e.ebuf := rfl
@[simp] theorem Enc.countFinish_links (e : Enc) (o : List Byte) : (e.countFinish o).links = e.links := rfl
@[simp] theorem Enc.countFinish_r (e : Enc) (o : List Byte) : (e.countFinish o).r = e.r := rfl
@[simp] theorem Enc.countFinish_elen (e : Enc) (o : List Byte) : (e.countFinish o).elen = e.elen := rfl
@[simp] theorem Enc.countFinish_etodo (e : Enc) (o : List Byte) : (e.countFinish o).etodo = e.etodo := rfl
@[simp] theorem Enc.countFinish_best (e : Enc) (o : List Byte) : (e.countFinish o).best = e.best := rfl
@[simp] theorem Enc.countFinish_group (e : Enc) (o : List Byte) : (e.countFinish o).group = e.group := rfl
@[simp] theorem Enc.countFinish_epcur (e : Enc) (o : List Byte) : (e.countFinish o).epcur = e.epcur := rfl
@[simp] theorem Enc.countFinish_ein (e : Enc) (o : List Byte) : (e.countFinish o).ein = e.ein := rfl
@[simp] theorem Enc.countFinish_eout (e : Enc) (o : List Byte) : (e.countFinish o).eout = e.eout + BitVec.ofNat 32 o.length := rfl

@[simp] theorem storeLookAhead_eph (b : Byte) (e : Enc) : (storeLookAhead b e).eph = e.eph := rfl
@[simp] theorem storeLookAhead_ebuf (b : Byte) (e : Enc) : (storeLookAhead b e).ebuf = e.ebuf.write (e.r + e.elen.setWidth 12).toNat b := rfl
@[simp] theorem storeLookAhead_links (b : Byte) (e : Enc) : (storeLookAhead b e).links = e.links := rfl
@[simp] theorem storeLookAhead_r (b : Byte) (e : Enc) : (storeLookAhead b e).r = e.r := rfl
@[simp] theorem storeLookAhead_elen (b : Byte) (e : Enc) : (storeLookAhead b e).elen = e.elen + 1#5 := rfl
@[simp] theorem storeLookAhead_etodo (b : Byte) (e : Enc) : (storeLookAhead b e).etodo = e.etodo := rfl
@[simp] theorem storeLookAhead_best (b : Byte) (e : Enc) : (storeLookAhead b e).best = e.best := rfl
@[simp] theorem storeLookAhead_group (b : Byte) (e : Enc) : (storeLookAhead b e).group = e.group := rfl
@[simp] theorem storeLookAhead_epcur (b : Byte) (e : Enc) : (storeLookAhead b e).epcur = e.epcur := rfl
@[simp] theorem storeLookAhead_ein (b : Byte) (e : Enc) : (storeLookAhead b e).ein = e.ein := rfl
@[simp] theorem storeLookAhead_eout (b : Byte) (e : Enc) : (storeLookAhead b e).eout = e.eout := rfl

@[simp] theorem Group.restart_cbuf (g : Group) : g.restart.cbuf = g.cbuf.write 0 0#8 := rfl
@[simp] theorem Group.restart_cbp (g : Group) : g.restart.cbp = 1#5 := rfl
@[simp] theorem Group.restart_gunits (g : Group) : g.restart.gunits = 0#3 := rfl

/-! ## Decoder and password -/

@[simp] theorem Dec.put_dph (d : Dec) (c : Byte) : (d.put c).dph = d.dph := rfl
@[simp] theorem Dec.put_dsub (d : Dec) (c : Byte) : (d.put c).dsub = d.dsub := rfl
@[simp] theorem Dec.put_dbuf (d : Dec) (c : Byte) : (d.put c).dbuf = d.dbuf.write d.dr.toNat c := rfl
@[simp] theorem Dec.put_dr (d : Dec) (c : Byte) : (d.put c).dr = d.dr + 1#12 := rfl
@[simp] theorem Dec.put_dctl (d : Dec) (c : Byte) : (d.put c).dctl = d.dctl := rfl
@[simp] theorem Dec.put_dunit (d : Dec) (c : Byte) : (d.put c).dunit = d.dunit := rfl
@[simp] theorem Dec.put_dreflo (d : Dec) (c : Byte) : (d.put c).dreflo = d.dreflo := rfl
@[simp] theorem Dec.put_dpcur (d : Dec) (c : Byte) : (d.put c).dpcur = d.dpcur := rfl
@[simp] theorem Dec.put_dend (d : Dec) (c : Byte) : (d.put c).dend = d.dend := rfl
@[simp] theorem Dec.put_din (d : Dec) (c : Byte) : (d.put c).din = d.din := rfl
@[simp] theorem Dec.put_dout (d : Dec) (c : Byte) : (d.put c).dout = d.dout := rfl

@[simp] theorem Dec.countPut_dph (d : Dec) (o : List Byte) : (d.countPut o).dph = d.dph := rfl
@[simp] theorem Dec.countPut_dsub (d : Dec) (o : List Byte) : (d.countPut o).dsub = d.dsub := rfl
@[simp] theorem Dec.countPut_dbuf (d : Dec) (o : List Byte) : (d.countPut o).dbuf = d.dbuf := rfl
@[simp] theorem Dec.countPut_dr (d : Dec) (o : List Byte) : (d.countPut o).dr = d.dr := rfl
@[simp] theorem Dec.countPut_dctl (d : Dec) (o : List Byte) : (d.countPut o).dctl = d.dctl := rfl
@[simp] theorem Dec.countPut_dunit (d : Dec) (o : List Byte) : (d.countPut o).dunit = d.dunit := rfl
@[simp] theorem Dec.countPut_dreflo (d : Dec) (o : List Byte) : (d.countPut o).dreflo = d.dreflo := rfl
@[simp] theorem Dec.countPut_dpcur (d : Dec) (o : List Byte) : (d.countPut o).dpcur = d.dpcur := rfl
@[simp] theorem Dec.countPut_dend (d : Dec) (o : List Byte) : (d.countPut o).dend = d.dend := rfl
@[simp] theorem Dec.countPut_din (d : Dec) (o : List Byte) : (d.countPut o).din = d.din + 1#32 := rfl
@[simp] theorem Dec.countPut_dout (d : Dec) (o : List Byte) : (d.countPut o).dout = d.dout + BitVec.ofNat 32 o.length := rfl

@[simp] theorem Dec.nextUnit_dph (d : Dec) : d.nextUnit.dph = d.dph := by unfold Dec.nextUnit; split <;> rfl
@[simp] theorem Dec.nextUnit_dbuf (d : Dec) : d.nextUnit.dbuf = d.dbuf := by unfold Dec.nextUnit; split <;> rfl
@[simp] theorem Dec.nextUnit_dr (d : Dec) : d.nextUnit.dr = d.dr := by unfold Dec.nextUnit; split <;> rfl
@[simp] theorem Dec.nextUnit_dctl (d : Dec) : d.nextUnit.dctl = d.dctl := by unfold Dec.nextUnit; split <;> rfl
@[simp] theorem Dec.nextUnit_dreflo (d : Dec) : d.nextUnit.dreflo = d.dreflo := by unfold Dec.nextUnit; split <;> rfl
@[simp] theorem Dec.nextUnit_dpcur (d : Dec) : d.nextUnit.dpcur = d.dpcur := by unfold Dec.nextUnit; split <;> rfl
@[simp] theorem Dec.nextUnit_dend (d : Dec) : d.nextUnit.dend = d.dend := by unfold Dec.nextUnit; split <;> rfl
@[simp] theorem Dec.nextUnit_din (d : Dec) : d.nextUnit.din = d.din := by unfold Dec.nextUnit; split <;> rfl
@[simp] theorem Dec.nextUnit_dout (d : Dec) : d.nextUnit.dout = d.dout := by unfold Dec.nextUnit; split <;> rfl
@[simp] theorem Dec.nextUnit_dunit (d : Dec) : d.nextUnit.dunit = d.dunit + 1#3 := by
  unfold Dec.nextUnit
  split
  · next h => rw [h]; rfl
  · rfl
@[simp] theorem Dec.nextUnit_dsub (d : Dec) : d.nextUnit.dsub = if d.dunit = 7#3 then .ctl else .unit := by
  unfold Dec.nextUnit
  split <;> rfl

@[simp] theorem decControl_dph (f : Obf) (b : Byte) (d : Dec) : (decControl f b d).dph = d.dph := rfl
@[simp] theorem decControl_dsub (f : Obf) (b : Byte) (d : Dec) : (decControl f b d).dsub = .unit := rfl
@[simp] theorem decControl_dbuf (f : Obf) (b : Byte) (d : Dec) : (decControl f b d).dbuf = d.dbuf := rfl
@[simp] theorem decControl_dr (f : Obf) (b : Byte) (d : Dec) : (decControl f b d).dr = d.dr := rfl
@[simp] theorem decControl_dctl (f : Obf) (b : Byte) (d : Dec) : (decControl f b d).dctl = b ^^^ (pbyteTake f d.dpcur).1 := rfl
@[simp] theorem decControl_dunit (f : Obf) (b : Byte) (d : Dec) : (decControl f b d).dunit = 0#3 := rfl
@[simp] theorem decControl_dreflo (f : Obf) (b : Byte) (d : Dec) : (decControl f b d).dreflo = d.dreflo := rfl
@[simp] theorem decControl_dpcur (f : Obf) (b : Byte) (d : Dec) : (decControl f b d).dpcur = (pbyteTake f d.dpcur).2 := rfl
@[simp] theorem decControl_dend (f : Obf) (b : Byte) (d : Dec) : (decControl f b d).dend = d.dend := rfl
@[simp] theorem decControl_din (f : Obf) (b : Byte) (d : Dec) : (decControl f b d).din = d.din := rfl
@[simp] theorem decControl_dout (f : Obf) (b : Byte) (d : Dec) : (decControl f b d).dout = d.dout := rfl

@[simp] theorem Obf.append_plen (f : Obf) (b : Byte) : (f.append b).plen = f.plen + 1#8 := rfl
@[simp] theorem Obf.append_pwd (f : Obf) (b : Byte) : (f.append b).pwd = f.pwd.write f.plen.toNat b := rfl
@[simp] theorem Obf.initial_plen : Obf.initial.plen = 0#8 := rfl
@[simp] theorem Obf.initial_byte (i : Nat) : Obf.initial.byte i = 0#8 := rfl

end Sys2Proof.Machine
end

