-- ==== Sys2Proof/Laws/Store.lean ====
section
/-! SUPPORT. The laws of the arrays and of the link arrays: read after write, and the canonical form that every
write keeps. -/

namespace Sys2Proof.Machine

section Store
variable {α : Type}

@[simp] theorem Store.read_nil (d : α) (a : Nat) : Store.read d [] a = d := rfl

theorem Store.read_cons (d : α) (b : Nat) (v : α) (m : Store α) (a : Nat) :
    Store.read d ((b, v) :: m) a = if a = b then v else Store.read d m a := rfl

theorem Store.read_erase (d : α) (m : Store α) (a c : Nat) :
    Store.read d (Store.erase m a) c = if c = a then d else Store.read d m c := by
  induction m with
  | nil => simp [Store.erase]
  | cons x m ih =>
    obtain ⟨b, v⟩ := x
    unfold Store.erase at ih ⊢
    by_cases hb : b = a
    · subst hb
      simp only [List.filter_cons, bne_self_eq_false, Bool.false_eq_true, if_false, ih, Store.read_cons]
      split <;> simp_all
    · simp only [List.filter_cons, bne_iff_ne, ne_eq, hb, not_false_eq_true, if_true, Store.read_cons, ih]
      by_cases hc : c = b
      · subst hc; simp [hb]
      · simp [hc]

theorem Store.read_insert (d : α) (m : Store α) (a c : Nat) (v : α)
    (hm : ∀ x ∈ m, x.1 ≠ a) :
    Store.read d (Store.insert a v m) c = if c = a then v else Store.read d m c := by
  induction m with
  | nil => simp [Store.insert, Store.read_cons]
  | cons x m ih =>
    obtain ⟨b, w⟩ := x
    have hb : b ≠ a := hm (b, w) (by simp)
    have ih := ih (fun x hx => hm x (by simp [hx]))
    unfold Store.insert
    split
    · rw [Store.read_cons]
    · rw [Store.read_cons, ih, Store.read_cons]
      by_cases hc : c = b
      · subst hc; simp [hb]
      · simp [hc]

theorem Store.ne_of_mem_erase (m : Store α) (a : Nat) : ∀ x ∈ Store.erase m a, x.1 ≠ a := by
  intro x hx
  simpa [Store.erase] using (List.mem_filter.1 hx).2

theorem Store.mem_insert {a : Nat} {v : α} {m : Store α} {x : Nat × α} (h : x ∈ Store.insert a v m) :
    x = (a, v) ∨ x ∈ m := by
  induction m with
  | nil => simpa [Store.insert] using h
  | cons y m ih =>
    unfold Store.insert at h
    split at h
    · simpa using h
    · rcases List.mem_cons.1 h with h | h
      · exact .inr (by simp [h])
      · rcases ih h with h | h
        · exact .inl h
        · exact .inr (by simp [h])

/-- An index below every listed index reads as an unlisted one. -/
theorem Store.read_below {d : α} {m : Store α} {a : Nat} (h : ∀ x ∈ m, a < x.1) : Store.read d m a = d := by
  induction m with
  | nil => rfl
  | cons x m ih =>
    obtain ⟨b, v⟩ := x
    have hb : a < b := h (b, v) (by simp)
    rw [Store.read_cons, if_neg (by omega), ih (fun x hx => h x (by simp [hx]))]

variable [DecidableEq α]

/-- A read after a write: the value written there, the old value anywhere else. -/
theorem Store.read_write (d : α) (m : Store α) (a c : Nat) (v : α) :
    Store.read d (Store.write d m a v) c = if c = a then v else Store.read d m c := by
  unfold Store.write
  split
  · next h => rw [Store.read_erase, h]
  · rw [Store.read_insert d _ a c v (Store.ne_of_mem_erase m a), Store.read_erase]
    split <;> simp_all

@[simp] theorem Store.read_write_same (d : α) (m : Store α) (a : Nat) (v : α) :
    Store.read d (Store.write d m a v) a = v := by simp [Store.read_write]

theorem Store.read_write_ne (d : α) (m : Store α) {a c : Nat} (v : α) (h : c ≠ a) :
    Store.read d (Store.write d m a v) c = Store.read d m c := by simp [Store.read_write, h]

theorem Store.wf_cons (d : α) (size a : Nat) (v : α) (m : Store α) :
    Store.wf d size ((a, v) :: m) = true ↔
      a < size ∧ v ≠ d ∧ (∀ x ∈ m, a < x.1) ∧ Store.wf d size m = true := by
  simp [Store.wf, Store.above, and_assoc]

theorem Store.wf_erase {d : α} {size : Nat} {m : Store α} (h : Store.wf d size m = true) (a : Nat) :
    Store.wf d size (Store.erase m a) = true := by
  induction m with
  | nil => simpa [Store.erase] using h
  | cons x m ih =>
    obtain ⟨b, v⟩ := x
    rw [Store.wf_cons] at h
    obtain ⟨hb, hv, hab, hm⟩ := h
    have ih := ih hm
    unfold Store.erase at ih ⊢
    rw [List.filter_cons]
    split
    · rw [Store.wf_cons]
      exact ⟨hb, hv, fun x hx => hab x (List.mem_filter.1 hx).1, ih⟩
    · exact ih

theorem Store.wf_insert {d : α} {size a : Nat} {v : α} {m : Store α} (h : Store.wf d size m = true)
    (ha : a < size) (hv : v ≠ d) (hm : ∀ x ∈ m, x.1 ≠ a) :
    Store.wf d size (Store.insert a v m) = true := by
  induction m with
  | nil => simp [Store.insert, Store.wf, Store.above, ha, hv]
  | cons x m ih =>
    obtain ⟨b, w⟩ := x
    have hb : b ≠ a := hm (b, w) (by simp)
    have h' := h
    rw [Store.wf_cons] at h
    obtain ⟨hbs, hw, hab, hmwf⟩ := h
    unfold Store.insert
    split
    · next hlt =>
      rw [Store.wf_cons]
      refine ⟨ha, hv, ?_, h'⟩
      intro x hx
      rcases List.mem_cons.1 hx with hx | hx
      · simpa [hx] using hlt
      · exact hlt.trans (hab x hx)
    · next hge =>
      rw [Store.wf_cons]
      refine ⟨hbs, hw, ?_, ih hmwf (fun x hx => hm x (by simp [hx]))⟩
      intro x hx
      rcases Store.mem_insert hx with hx | hx
      · subst hx; simp only; omega
      · exact hab x hx

/-- Every write inside the array keeps the canonical form. -/
theorem Store.wf_write {d : α} {size a : Nat} {m : Store α} (h : Store.wf d size m = true)
    (ha : a < size) (v : α) : Store.wf d size (Store.write d m a v) = true := by
  unfold Store.write
  split
  · exact Store.wf_erase h a
  · next hv => exact Store.wf_insert (Store.wf_erase h a) ha hv (Store.ne_of_mem_erase m a)

/-- Equal arrays are equal data: two canonical arrays with the same entries are the same list. -/
theorem Store.ext_of_wf {d : α} {size : Nat} {m n : Store α} (hm : Store.wf d size m = true)
    (hn : Store.wf d size n = true) (h : ∀ a, Store.read d m a = Store.read d n a) : m = n := by
  induction m generalizing n with
  | nil =>
    cases n with
    | nil => rfl
    | cons y n =>
      obtain ⟨c, w⟩ := y
      have := h c
      rw [Store.wf_cons] at hn
      simp [Store.read_cons] at this
      exact absurd this.symm hn.2.1
  | cons x m ih =>
    obtain ⟨b, v⟩ := x
    rw [Store.wf_cons] at hm
    obtain ⟨-, hv, hab, hmwf⟩ := hm
    cases n with
    | nil =>
      have := h b
      simp [Store.read_cons] at this
      exact absurd this hv
    | cons y n =>
      obtain ⟨c, w⟩ := y
      rw [Store.wf_cons] at hn
      obtain ⟨-, hw, hcn, hnwf⟩ := hn
      have hbc : b = c := by
        rcases lt_trichotomy b c with hlt | heq | hgt
        · have h1 := h b
          rw [Store.read_cons, if_pos rfl, Store.read_cons, if_neg (by omega),
            Store.read_below (fun x hx => hlt.trans (hcn x hx))] at h1
          exact absurd h1 hv
        · exact heq
        · have h1 := h c
          rw [Store.read_cons, if_neg (by omega), Store.read_below (fun x hx => hgt.trans (hab x hx)),
            Store.read_cons, if_pos rfl] at h1
          exact absurd h1.symm hw
      subst hbc
      have hvw : v = w := by simpa [Store.read_cons] using h b
      subst hvw
      congr 1
      refine ih hmwf hnwf (fun a => ?_)
      by_cases hab' : a = b
      · subst hab'
        rw [Store.read_below hab, Store.read_below hcn]
      · simpa [Store.read_cons, hab'] using h a

end Store

/-! ## Byte arrays -/

@[simp] theorem Memory.read_nil (a : Nat) : Memory.read [] a = 0#8 := rfl

theorem Memory.read_write (m : Memory) (a c : Nat) (v : Byte) :
    (Memory.write m a v).read c = if c = a then v else m.read c := Store.read_write ..

@[simp] theorem Memory.read_write_same (m : Memory) (a : Nat) (v : Byte) :
    (Memory.write m a v).read a = v := by simp [Memory.read_write]

theorem Memory.read_write_ne (m : Memory) {a c : Nat} (v : Byte) (h : c ≠ a) :
    (Memory.write m a v).read c = m.read c := by simp [Memory.read_write, h]

theorem Memory.wf_nil (size : Nat) : Memory.wf size [] := rfl

theorem Memory.wf_write {size a : Nat} {m : Memory} (h : Memory.wf size m) (ha : a < size) (v : Byte) :
    Memory.wf size (Memory.write m a v) := Store.wf_write h ha v

/-! ## Link arrays -/

theorem Link.index_lt (i : Link) : i.index < 4353 := by
  cases i with
  | node p => have := p.isLt; simp only [Link.index]; omega
  | nil => decide
  | root c => have := c.isLt; simp only [Link.index]; omega

theorem Link.index_inj {i j : Link} : i.index = j.index ↔ i = j := by
  constructor
  · intro h
    cases i with
    | node p =>
      have hp := p.isLt
      cases j with
      | node q => simp only [Link.index] at h; rw [BitVec.eq_of_toNat_eq h]
      | nil => simp only [Link.index] at h; omega
      | root c => simp only [Link.index] at h; omega
    | nil =>
      cases j with
      | node q => have := q.isLt; simp only [Link.index] at h; omega
      | nil => rfl
      | root c => simp only [Link.index] at h; omega
    | root c =>
      cases j with
      | node q => have := q.isLt; simp only [Link.index] at h; omega
      | nil => simp only [Link.index] at h; omega
      | root c' =>
        simp only [Link.index] at h
        rw [BitVec.eq_of_toNat_eq (by omega : c.toNat = c'.toNat)]
  · rintro rfl; rfl

theorem Links.getLson_setLson (t : Links) (i j : Link) (v : Option Pos) :
    (t.setLson i v).getLson j = if j = i then v else t.getLson j := by
  simp [Links.getLson, Links.setLson, Store.read_write, Link.index_inj]

theorem Links.getRson_setRson (t : Links) (i j : Link) (v : Option Pos) :
    (t.setRson i v).getRson j = if j = i then v else t.getRson j := by
  simp [Links.getRson, Links.setRson, Store.read_write, Link.index_inj]

theorem Links.getDad_setDad (t : Links) (i j v : Link) :
    (t.setDad i v).getDad j = if j = i then v else t.getDad j := by
  simp [Links.getDad, Links.setDad, Store.read_write, Link.index_inj]

@[simp] theorem Links.getRson_setLson (t : Links) (i j : Link) (v : Option Pos) :
    (t.setLson i v).getRson j = t.getRson j := rfl
@[simp] theorem Links.getDad_setLson (t : Links) (i j : Link) (v : Option Pos) :
    (t.setLson i v).getDad j = t.getDad j := rfl
@[simp] theorem Links.getLson_setRson (t : Links) (i j : Link) (v : Option Pos) :
    (t.setRson i v).getLson j = t.getLson j := rfl
@[simp] theorem Links.getDad_setRson (t : Links) (i j : Link) (v : Option Pos) :
    (t.setRson i v).getDad j = t.getDad j := rfl
@[simp] theorem Links.getLson_setDad (t : Links) (i j v : Link) : (t.setDad i v).getLson j = t.getLson j := rfl
@[simp] theorem Links.getRson_setDad (t : Links) (i j v : Link) : (t.setDad i v).getRson j = t.getRson j := rfl

/-- The link arrays are in their canonical form. -/
def Links.Canonical (t : Links) : Prop :=
  Store.wf none 4353 t.lson = true ∧ Store.wf none 4353 t.rson = true ∧ Store.wf Link.nil 4353 t.dad = true

theorem Links.canonical_empty : Links.empty.Canonical := ⟨rfl, rfl, rfl⟩

theorem Links.Canonical.setLson {t : Links} (h : t.Canonical) (i : Link) (v : Option Pos) :
    (t.setLson i v).Canonical := ⟨Store.wf_write h.1 i.index_lt v, h.2.1, h.2.2⟩

theorem Links.Canonical.setRson {t : Links} (h : t.Canonical) (i : Link) (v : Option Pos) :
    (t.setRson i v).Canonical := ⟨h.1, Store.wf_write h.2.1 i.index_lt v, h.2.2⟩

theorem Links.Canonical.setDad {t : Links} (h : t.Canonical) (i v : Link) :
    (t.setDad i v).Canonical := ⟨h.1, h.2.1, Store.wf_write h.2.2 i.index_lt v⟩

end Sys2Proof.Machine
end

