-- ==== Sys2Proof/Laws/Decoder.lean ====
section
/-! SUPPORT. What each decoder procedure does: the copy loop's length and frame, and one inversion lemma for each
command. -/

namespace Sys2Proof.Machine

@[simp] theorem decCopy_zero (src : Pos) (d : Dec) : decCopy 0 src d = (d, []) := rfl

theorem decCopy_succ (n : Nat) (src : Pos) (d : Dec) :
    decCopy (n + 1) src d =
      ((decCopy n (src + 1#12) (d.put (d.dbuf.read src.toNat))).1,
        d.dbuf.read src.toNat :: (decCopy n (src + 1#12) (d.put (d.dbuf.read src.toNat))).2) := rfl

/-- A copy of len bytes emits len bytes (41_lzss_decoder.md R154). -/
@[simp] theorem decCopy_length (n : Nat) (src : Pos) (d : Dec) : (decCopy n src d).2.length = n := by
  induction n generalizing src d with
  | zero => rfl
  | succ n ih => rw [decCopy_succ]; simp [ih]

/-- A copy changes only the ring and its write position (41_lzss_decoder.md R154). -/
theorem decCopy_frame (n : Nat) (src : Pos) (d : Dec) :
    (decCopy n src d).1 =
      { d with dbuf := (decCopy n src d).1.dbuf, dr := d.dr + BitVec.ofNat 12 n } := by
  induction n generalizing src d with
  | zero => simp
  | succ n ih =>
    rw [decCopy_succ]
    have h := ih (src + 1#12) (d.put (d.dbuf.read src.toNat))
    have h12 : d.dr + 1#12 + BitVec.ofNat 12 n = d.dr + BitVec.ofNat 12 (n + 1) := by
      rw [BitVec.add_assoc]; congr 1; apply BitVec.eq_of_toNat_eq; simp [Nat.add_comm]
    simp only [Dec.put_dr, h12] at h
    exact h

/-- The copy keeps the canonical form of the ring. -/
theorem decCopy_wf {n : Nat} {src : Pos} {d : Dec} (h : Memory.wf 4096 d.dbuf) :
    Memory.wf 4096 (decCopy n src d).1.dbuf := by
  induction n generalizing src d with
  | zero => exact h
  | succ n ih => rw [decCopy_succ]; exact ih (Memory.wf_write h d.dr.isLt _)

/-- A back-reference's length is 3 to 18 (30_encoding.md R91). -/
theorem refLen_bounds (b : Byte) : 3 ≤ refLen b ∧ refLen b ≤ 18 := by
  have := (b.extractLsb' 0 4).isLt
  unfold refLen
  omega

/-- The three byte steps of a DEC.PUT (41_lzss_decoder.md R152 to R154). -/
theorem decByte_cases (f : Obf) (b : Byte) (d : Dec) :
    (d.dsub = .ctl ∧ decByte f b d = (decControl f b d, [])) ∨
    (d.dsub = .unit ∧ isLiteral d.dctl d.dunit = true ∧ decByte f b d = ((d.put b).nextUnit, [b])) ∨
    (d.dsub = .unit ∧ isLiteral d.dctl d.dunit = false ∧
      decByte f b d = ({ d with dreflo := b, dsub := .refhi }, [])) ∨
    (d.dsub = .refhi ∧ decByte f b d =
      ((decCopy (refLen b) (refPos d.dreflo b) d).1.nextUnit, (decCopy (refLen b) (refPos d.dreflo b) d).2)) := by
  unfold decByte
  cases h : d.dsub with
  | ctl => simp
  | unit =>
    cases hl : isLiteral d.dctl d.dunit <;> simp [decUnit, hl]
  | refhi => simp [decRef]

/-- The byte step keeps the canonical form of the ring. -/
theorem decByte_wf {f : Obf} {b : Byte} {d : Dec} (h : Memory.wf 4096 d.dbuf) :
    Memory.wf 4096 (decByte f b d).1.dbuf := by
  obtain ⟨-, h1⟩ | ⟨-, -, h1⟩ | ⟨-, -, h1⟩ | ⟨-, h1⟩ := decByte_cases f b d <;> rw [h1]
  · simpa using h
  · simpa using Memory.wf_write h d.dr.isLt b
  · exact h
  · simpa using decCopy_wf h

/-- What DEC.PUT can do (41_lzss_decoder.md R156). -/
theorem execDecPut_next {b : Byte} {s t : State} (h : execDecPut b s = .next t) :
    (s.dec.dph = .error ∧ t = s.reject .failed) ∨
    (s.dec.dph = .done ∧ t = s.rejectDecDone) ∨
    (s.dec.dph = .active ∧
      t = s.respondDec ((decByte s.obf b s.dec).1.countPut (decByte s.obf b s.dec).2) (decByte s.obf b s.dec).2) := by
  unfold execDecPut at h
  split at h
  · next h0 => cases h; exact .inl ⟨h0, rfl⟩
  · next h0 => cases h; exact .inr (.inl ⟨h0, rfl⟩)
  · next h0 => cases h; exact .inr (.inr ⟨h0, rfl⟩)

/-- What DEC.FINISH can do (41_lzss_decoder.md R157). -/
theorem execDecFinish_next {s t : State} (h : execDecFinish s = .next t) :
    (s.dec.dph = .error ∧ t = s.reject .failed) ∨
    (s.dec.dph = .done ∧ t = s.rejectDecDone) ∨
    (s.dec.dph = .active ∧
      t = { s with dec := { s.dec with dend := s.dec.endStatus, dph := .done } }.respondOk
        (s.dec.endStatus.bits.setWidth 32)) := by
  unfold execDecFinish at h
  split at h
  · next h0 => cases h; exact .inl ⟨h0, rfl⟩
  · next h0 => cases h; exact .inr (.inl ⟨h0, rfl⟩)
  · next h0 => cases h; exact .inr (.inr ⟨h0, rfl⟩)

end Sys2Proof.Machine
end

