-- ==== Sys2Proof/Laws/Encoder.lean ====
section
/-! SUPPORT. What each encoder procedure can do when it completes: one inversion lemma a procedure, with its frame,
and the canonical form of the link arrays through the match finder. -/

namespace Sys2Proof.Machine

/-! ## The match finder -/

theorem insertNode_ok {r : Pos} {e e' : Enc} (h : insertNode r e = .ok e') :
    ∃ t m, insertLinks e.ebuf r e.links e.best = .ok (t, m) ∧ e' = { e with links := t, best := m } := by
  unfold insertNode at h
  split at h
  · cases h
  · next t m hi => cases h; exact ⟨t, m, hi, rfl⟩

theorem deleteNode_ok {p : Pos} {e e' : Enc} (h : deleteNode p e = .ok e') :
    ∃ t, deleteLinks p e.links = .ok t ∧ e' = { e with links := t } := by
  unfold deleteNode at h
  split at h
  · cases h
  · next t ht => cases h; exact ⟨t, ht, rfl⟩

/-- DELETE_NODE of a position in no tree does nothing (40_lzss_encoder.md R104). -/
theorem deleteNode_absent {p : Pos} {e : Enc} (h : e.links.getDad (.node p) = .nil) : deleteNode p e = .ok e := by
  simp [deleteNode, deleteLinks, h]

theorem compareFrom_fst_le (ring : Memory) (r p left i : Nat) :
    (compareFrom ring r p left i).1 ≤ i + left := by
  induction left generalizing i with
  | zero => simp [compareFrom]
  | succ n ih =>
    simp only [compareFrom]
    split
    · simp
    · exact (ih (i + 1)).trans (by omega)

theorem compareFrom_fst_ge (ring : Memory) (r p left i : Nat) :
    i ≤ (compareFrom ring r p left i).1 := by
  induction left generalizing i with
  | zero => simp [compareFrom]
  | succ n ih =>
    simp only [compareFrom]
    split
    · simp
    · exact (Nat.le_succ i).trans (ih (i + 1))

/-- The comparison finds 1 to F leading equal bytes (40_lzss_encoder.md R102). -/
theorem compareKeys_fst_le (ring : Memory) (r p : Pos) : (compareKeys ring r p).1 ≤ 18 :=
  compareFrom_fst_le ..

theorem compareKeys_fst_pos (ring : Memory) (r p : Pos) : 1 ≤ (compareKeys ring r p).1 :=
  compareFrom_fst_ge ..

theorem Links.Canonical.attach {t : Links} (h : t.Canonical) (cmp : Int) (i : Link) (r : Pos) :
    (t.attach cmp i r).Canonical := by
  unfold Links.attach
  split
  · exact (h.setRson _ _).setDad _ _
  · exact (h.setLson _ _).setDad _ _

theorem Links.Canonical.relinkParent {t : Links} (h : t.Canonical) (p : Pos) (v : Option Pos) :
    (t.relinkParent p v).Canonical := by
  unfold Links.relinkParent
  split
  · exact h.setRson _ _
  · exact h.setLson _ _

theorem Links.Canonical.replace {t : Links} (h : t.Canonical) (r p : Pos) : (t.replace r p).Canonical :=
  ((((((h.setDad _ _).setLson _ _).setRson _ _).setDad _ _).setDad _ _).relinkParent _ _).setDad _ _

theorem Links.Canonical.unlink {t : Links} (h : t.Canonical) (p : Pos) (q : Option Pos) :
    (t.unlink p q).Canonical := ((h.setDad _ _).relinkParent _ _).setDad _ _

theorem Links.Canonical.takeRight {t : Links} (h : t.Canonical) (p q : Pos) : (t.takeRight p q).Canonical :=
  (h.setRson _ _).setDad _ _

theorem Links.Canonical.liftPredecessor {t : Links} (h : t.Canonical) (p q : Pos) :
    (t.liftPredecessor p q).Canonical := (((h.setRson _ _).setDad _ _).setLson _ _).setDad _ _

theorem insertLoop_canonical {ring : Memory} {r : Pos} {t t' : Links} {n : Nat} {i : Link} {cmp : Int}
    {m m' : Match} (ht : t.Canonical) (h : insertLoop ring r t n i cmp m = .ok (t', m')) : t'.Canonical := by
  induction n generalizing i cmp m with
  | zero => cases h
  | succ n ih =>
    simp only [insertLoop] at h
    split at h
    · cases h; exact ht.attach _ _ _
    · split at h
      · split at h
        · cases h; exact ht.replace _ _
        · exact ih h
      · exact ih h

/-- INSERT_NODE keeps the canonical form of the link arrays. -/
theorem insertLinks_canonical {ring : Memory} {r : Pos} {t t' : Links} {m m' : Match} (ht : t.Canonical)
    (h : insertLinks ring r t m = .ok (t', m')) : t'.Canonical :=
  insertLoop_canonical ((ht.setRson _ _).setLson _ _) h

/-- DELETE_NODE keeps the canonical form of the link arrays. -/
theorem deleteLinks_canonical {p : Pos} {t t' : Links} (ht : t.Canonical) (h : deleteLinks p t = .ok t') :
    t'.Canonical := by
  unfold deleteLinks at h
  split at h
  · cases h; exact ht
  · split at h
    · cases h; exact ht.unlink _ _
    · cases h; exact ht.unlink _ _
    · split at h
      · cases h; exact (ht.takeRight _ _).unlink _ _
      · split at h
        · cases h
        · cases h; exact ((ht.liftPredecessor _ _).takeRight _ _).unlink _ _

theorem startFrom_frame {left i : Nat} {e e' : Enc} (h : startFrom left i e = .ok e') :
    e' = { e with links := e'.links, best := e'.best } := by
  induction left generalizing i e with
  | zero => cases h; rfl
  | succ n ih =>
    simp only [startFrom] at h
    split at h
    · cases h
    · next e1 h1 =>
      obtain ⟨t, m, -, rfl⟩ := insertNode_ok h1
      have hf := ih h
      exact hf

/-- START changes only the trees and the match (40_lzss_encoder.md R105). -/
theorem start_frame {e e' : Enc} (h : start e = .ok e') :
    e' = { e with links := e'.links, best := e'.best } := by
  unfold start at h
  split at h
  · cases h
  · next e1 h1 =>
    have hf := startFrom_frame h1
    obtain ⟨t, m, -, rfl⟩ := insertNode_ok h
    rw [hf]

/-! ## Units and groups -/

theorem Group.push_ok {g g' : Group} {b : Byte} (h : g.push b = .ok g') :
    g.cbp.toNat < 17 ∧ g' = { g with cbuf := g.cbuf.write g.cbp.toNat b, cbp := g.cbp + 1#5 } := by
  unfold Group.push at h
  split at h
  · next hlt => cases h; exact ⟨hlt, rfl⟩
  · cases h

theorem Group.push_eq {g : Group} (b : Byte) (h : g.cbp.toNat < 17) :
    g.push b = .ok { g with cbuf := g.cbuf.write g.cbp.toNat b, cbp := g.cbp + 1#5 } := by
  simp [Group.push, h]

theorem Group.addLiteral_ok {g g' : Group} {b : Byte} (h : g.addLiteral b = .ok g') :
    g.cbp.toNat < 17 ∧
      g' = { g with
        cbuf := (g.cbuf.write 0 (setLiteral (g.cbuf.read 0) g.gunits)).write g.cbp.toNat b
        cbp := g.cbp + 1#5 } := Group.push_ok h

theorem Group.addRef_ok {g g' : Group} {m : Match} (h : g.addRef m = .ok g') :
    g.cbp.toNat < 17 ∧ (g.cbp + 1#5).toNat < 17 ∧
      g' = { g with
        cbuf := (g.cbuf.write g.cbp.toNat (refLow m.pos)).write (g.cbp + 1#5).toNat (refHigh m.pos m.len)
        cbp := g.cbp + 1#5 + 1#5 } := by
  unfold Group.addRef at h
  split at h
  · cases h
  · next g1 h1 =>
    obtain ⟨hlt, rfl⟩ := Group.push_ok h1
    obtain ⟨hlt2, rfl⟩ := Group.push_ok h
    exact ⟨hlt, hlt2, rfl⟩

theorem emitGroup_ok {f : Obf} {e e' : Enc} {out : List Byte} (h : emitGroup f e = .ok (e', out)) :
    e.group.cbp.toNat ≤ 17 ∧
      e' = { e with group := e.group.restart, epcur := (pbyteTake f e.epcur).2 } ∧
      out = (e.group.cbuf.read 0 ^^^ (pbyteTake f e.epcur).1) :: e.group.unitBytes := by
  unfold emitGroup at h
  split at h
  · next hle => cases h; exact ⟨hle, rfl, rfl⟩
  · cases h

/-- Entering a unit: a literal where the clipped length is at most 2, else a back-reference
(40_lzss_encoder.md R107). -/
theorem codeUnit_ok {e e' : Enc} (h : codeUnit e = .ok e') :
    (e.clippedLen.toNat ≤ 2 ∧ ∃ g, e.group.addLiteral (e.ebuf.read e.r.toNat) = .ok g ∧
      e' = { e with best := { e.best with len := 1#5 }, group := g }) ∨
    (2 < e.clippedLen.toNat ∧ ∃ g, e.group.addRef { e.best with len := e.clippedLen } = .ok g ∧
      e' = { e with best := { e.best with len := e.clippedLen }, group := g }) := by
  unfold codeUnit at h
  split at h
  · next hle =>
    split at h
    · cases h
    · next g hg => cases h; exact .inl ⟨hle, g, hg, rfl⟩
  · next hgt =>
    split at h
    · cases h
    · next g hg => cases h; exact .inr ⟨by simpa using hgt, g, hg, rfl⟩

theorem countUnit_ok {f : Obf} {e e' : Enc} {out : List Byte} (h : countUnit f e = .ok (e', out)) :
    (e.group.gunits = 7#3 ∧ emitGroup f e = .ok (e', out)) ∨
    (e.group.gunits ≠ 7#3 ∧ out = [] ∧
      e' = { e with group := { e.group with gunits := e.group.gunits + 1#3 } }) := by
  unfold countUnit at h
  split at h
  · next h7 => exact .inl ⟨h7, h⟩
  · next h7 => cases h; exact .inr ⟨h7, rfl, rfl⟩

theorem emitUnit_ok {f : Obf} {e e' : Enc} {out : List Byte} (h : emitUnit f e = .ok (e', out)) :
    ∃ e1, codeUnit e = .ok e1 ∧ countUnit f e1 = .ok (e', out) := by
  unfold emitUnit at h
  split at h
  · cases h
  · next e1 h1 => exact ⟨e1, h1, h⟩

/-- EMIT_UNIT changes only the length MLEN, the group buffer and the cursor (40_lzss_encoder.md R107). -/
theorem emitUnit_frame {f : Obf} {e e' : Enc} {out : List Byte} (h : emitUnit f e = .ok (e', out)) :
    e' = { e with best := { e.best with len := e'.best.len }, group := e'.group, epcur := e'.epcur } := by
  obtain ⟨e1, h1, h2⟩ := emitUnit_ok h
  have hframe : e1 = { e with best := { e.best with len := e1.best.len }, group := e1.group } := by
    obtain ⟨-, g, -, rfl⟩ | ⟨-, g, -, rfl⟩ := codeUnit_ok h1 <;> rfl
  obtain ⟨-, h3⟩ | ⟨-, -, rfl⟩ := countUnit_ok h2
  · obtain ⟨-, rfl, -⟩ := emitGroup_ok h3
    rw [hframe]
  · rw [hframe]

/-- EMIT_UNIT returns 1, or the clipped length where that is above 2 (40_lzss_encoder.md R107). -/
theorem emitUnit_len {f : Obf} {e e' : Enc} {out : List Byte} (h : emitUnit f e = .ok (e', out)) :
    (e.clippedLen.toNat ≤ 2 ∧ e'.best.len = 1#5) ∨ (2 < e.clippedLen.toNat ∧ e'.best.len = e.clippedLen) := by
  obtain ⟨e1, h1, h2⟩ := emitUnit_ok h
  have hlen : e'.best.len = e1.best.len := by
    obtain ⟨-, h3⟩ | ⟨-, -, rfl⟩ := countUnit_ok h2
    · obtain ⟨-, rfl, -⟩ := emitGroup_ok h3; rfl
    · rfl
  rw [hlen]
  obtain ⟨hle, g, -, rfl⟩ | ⟨hgt, g, -, rfl⟩ := codeUnit_ok h1
  · exact .inl ⟨hle, rfl⟩
  · exact .inr ⟨hgt, rfl⟩

theorem Enc.clippedLen_le (e : Enc) : e.clippedLen.toNat ≤ e.elen.toNat := by
  unfold Enc.clippedLen
  split
  · exact le_refl _
  · next h => simpa [BitVec.lt_def] using h

/-- A unit covers 1 to ELEN bytes of a non-empty look-ahead. -/
theorem emitUnit_len_bounds {f : Obf} {e e' : Enc} {out : List Byte} (h : emitUnit f e = .ok (e', out))
    (he : e.elen ≠ 0#5) : 1 ≤ e'.best.len.toNat ∧ e'.best.len.toNat ≤ e.elen.toNat := by
  have hpos : 1 ≤ e.elen.toNat := by
    rcases Nat.eq_zero_or_pos e.elen.toNat with h0 | h0
    · exact absurd (BitVec.eq_of_toNat_eq (by simpa using h0)) he
    · exact h0
  obtain ⟨-, h1⟩ | ⟨hgt, h1⟩ := emitUnit_len h
  · rw [h1]; exact ⟨by decide, by simpa using hpos⟩
  · rw [h1]; exact ⟨by omega, e.clippedLen_le⟩

/-! ## The window -/

theorem consume_ok {c : Byte} {e e' : Enc} (h : consume c e = .ok e') :
    ∃ t m t', deleteLinks e.s e.links = .ok t ∧
      insertLinks (writeRing e.ebuf e.s c) (e.r + 1#12) t e.best = .ok (t', m) ∧
      e' = { e with ebuf := writeRing e.ebuf e.s c, r := e.r + 1#12, links := t', best := m } := by
  unfold consume at h
  split at h
  · cases h
  · next e1 h1 =>
    obtain ⟨t, ht, rfl⟩ := deleteNode_ok h1
    obtain ⟨t', m, hi, rfl⟩ := insertNode_ok h
    exact ⟨t, m, t', ht, hi, rfl⟩

theorem advanceEmpty_ok {e e' : Enc} (h : advanceEmpty e = .ok e') :
    e' = { e with r := e.r + 1#12, elen := e.elen - 1#5, links := e'.links, best := e'.best } ∧
      ∃ t, deleteLinks e.s e.links = .ok t ∧
        ((e.elen - 1#5 = 0#5 ∧ e'.links = t ∧ e'.best = e.best) ∨
          (e.elen - 1#5 ≠ 0#5 ∧ insertLinks e.ebuf (e.r + 1#12) t e.best = .ok (e'.links, e'.best))) := by
  unfold advanceEmpty at h
  split at h
  · cases h
  · next e1 h1 =>
    obtain ⟨t, ht, rfl⟩ := deleteNode_ok h1
    simp only at h
    split at h
    · next h0 => cases h; exact ⟨rfl, t, ht, .inl ⟨h0, rfl, rfl⟩⟩
    · next h0 =>
      obtain ⟨t', m, hi, rfl⟩ := insertNode_ok h
      exact ⟨rfl, t, ht, .inr ⟨h0, hi⟩⟩

/-- t times ADVANCE_EMPTY: R and ELEN move by t, and otherwise only the trees and the match change. -/
theorem advanceEmptyTimes_frame {t : Nat} {e e' : Enc} (h : advanceEmptyTimes t e = .ok e') :
    e' = { e with r := e.r + BitVec.ofNat 12 t, elen := e.elen - BitVec.ofNat 5 t,
                  links := e'.links, best := e'.best } := by
  induction t generalizing e with
  | zero => cases h; simp
  | succ t ih =>
    simp only [advanceEmptyTimes] at h
    split at h
    · cases h
    · next e1 h1 =>
      have hf := (advanceEmpty_ok h1).1
      have := ih h
      rw [this, hf]
      have h12 : e.r + 1#12 + BitVec.ofNat 12 t = e.r + BitVec.ofNat 12 (t + 1) := by
        rw [BitVec.add_assoc]; congr 1; apply BitVec.eq_of_toNat_eq; simp [Nat.add_comm]
      have h5 : e.elen - 1#5 - BitVec.ofNat 5 t = e.elen - BitVec.ofNat 5 (t + 1) := by
        rw [BitVec.sub_sub]; congr 1; apply BitVec.eq_of_toNat_eq; simp [Nat.add_comm]
      simp only [h12, h5]

/-! ## Draining -/

theorem drainLoop_succ_ok {f : Obf} {n : Nat} {e e' : Enc} {out : List Byte}
    (h : drainLoop f (n + 1) e = .ok (e', out)) :
    (e.elen = 0#5 ∧ e' = e ∧ out = []) ∨
    (e.elen ≠ 0#5 ∧ ∃ e1 o1 e2 o2, emitUnit f e = .ok (e1, o1) ∧
      advanceEmptyTimes e1.best.len.toNat e1 = .ok e2 ∧ drainLoop f n e2 = .ok (e', o2) ∧ out = o1 ++ o2) := by
  simp only [drainLoop] at h
  split at h
  · next h0 => cases h; exact .inl ⟨h0, rfl, rfl⟩
  · next h0 =>
    split at h
    · cases h
    · next e1 o1 h1 =>
      split at h
      · cases h
      · next e2 h2 =>
        split at h
        · cases h
        · next e3 o2 h3 => cases h; exact .inr ⟨h0, e1, o1, e2, o2, h1, h2, h3, rfl⟩

/-- The loop of DRAIN ends with an empty look-ahead: its counter is never the reason it stops
(40_lzss_encoder.md R110). -/
theorem drainLoop_elen {f : Obf} {n : Nat} {e e' : Enc} {out : List Byte} (hn : e.elen.toNat ≤ n)
    (h : drainLoop f n e = .ok (e', out)) : e'.elen = 0#5 := by
  induction n generalizing e out with
  | zero =>
    cases h
    exact BitVec.eq_of_toNat_eq (by simpa using hn)
  | succ n ih =>
    obtain ⟨h0, rfl, -⟩ | ⟨h0, e1, o1, e2, o2, h1, h2, h3, -⟩ := drainLoop_succ_ok h
    · exact h0
    · refine ih ?_ h3
      obtain ⟨hlo, hhi⟩ := emitUnit_len_bounds h1 h0
      have he1 : e1.elen = e.elen := by rw [emitUnit_frame h1]
      rw [advanceEmptyTimes_frame h2]
      simp only [he1, BitVec.ofNat_toNat, BitVec.setWidth_eq]
      rw [BitVec.toNat_sub_of_le (by simpa [BitVec.le_def] using hhi)]
      omega

/-! ## The commands -/

/-- What ENC.PUT can do (40_lzss_encoder.md R112). -/
theorem execEncPut_next {b : Byte} {s t : State} (h : execEncPut b s = .next t) :
    (s.enc.eph = .error ∧ t = s.reject .failed) ∨
    (s.enc.eph = .done ∧ t = s.rejectEncDone) ∨
    (∃ e out, ((s.enc.eph = .fill ∧ putFill s.obf b s.enc = .ok (e, out)) ∨
        (s.enc.eph = .run ∧ putRun s.obf b s.enc = .ok (e, out))) ∧
      t = s.respondEnc (e.countPut out) out) := by
  unfold execEncPut at h
  split at h
  · next h0 => cases h; exact .inl ⟨h0, rfl⟩
  · next h0 => cases h; exact .inr (.inl ⟨h0, rfl⟩)
  · next h0 =>
    split at h
    · cases h
    · next e out he => cases h; exact .inr (.inr ⟨e, out, .inl ⟨h0, he⟩, rfl⟩)
  · next h0 =>
    split at h
    · cases h
    · next e out he => cases h; exact .inr (.inr ⟨e, out, .inr ⟨h0, he⟩, rfl⟩)

/-- What ENC.FINISH can do (40_lzss_encoder.md R113). -/
theorem execEncFinish_next {s t : State} (h : execEncFinish s = .next t) :
    (s.enc.eph = .error ∧ t = s.reject .failed) ∨
    (s.enc.eph = .done ∧ t = s.rejectEncDone) ∨
    (∃ e out, ((s.enc.eph = .fill ∧ finishFill s.obf s.enc = .ok (e, out)) ∨
        (s.enc.eph = .run ∧ finishRun s.obf s.enc = .ok (e, out))) ∧
      t = s.respondEnc (e.countFinish out) out) := by
  unfold execEncFinish at h
  split at h
  · next h0 => cases h; exact .inl ⟨h0, rfl⟩
  · next h0 => cases h; exact .inr (.inl ⟨h0, rfl⟩)
  · next h0 =>
    split at h
    · cases h
    · next e out he => cases h; exact .inr (.inr ⟨e, out, .inl ⟨h0, he⟩, rfl⟩)
  · next h0 =>
    split at h
    · cases h
    · next e out he => cases h; exact .inr (.inr ⟨e, out, .inr ⟨h0, he⟩, rfl⟩)

end Sys2Proof.Machine
end

