-- ==== Sys2Proof/Laws/PerInstr.lean ====
section
/-! SUPPORT. The family WordForm: the encoder's word of every command passes the checks of 30_encoding.md R83 and
R84 (an opcode of the map, reserved argument bits 0). -/

namespace Sys2Proof.Laws.WordForm

/-- The word of i is a command word. -/
def Statement (i : Instr) : Prop := CommandWord.wellFormed (encode i) = true

theorem opcode_append (op : Byte) (arg : Word) : (op ++ arg : CommandWord).extractLsb' 32 8 = op :=
  BitVec.extractLsb'_append_eq_left

theorem argument_append (op : Byte) (arg : Word) : (op ++ arg : CommandWord).extractLsb' 0 32 = arg :=
  BitVec.extractLsb'_append_eq_right

/-- A byte operand leaves the bits format B reserves 0. -/
theorem byte_reserved_clear (b : Byte) : (0#24 ++ b : Word) &&& 0xFFFFFF00#32 = 0#32 := by
  revert b; decide

theorem formatB (op b : Byte) (h : Format.ofOpcode op = some .b) :
    CommandWord.wellFormed (encodeB op b) = true := by
  have hop : (encodeB op b).extractLsb' 32 8 = op := opcode_append op _
  have harg : (encodeB op b).extractLsb' 0 32 = 0#24 ++ b := argument_append op _
  unfold CommandWord.wellFormed CommandWord.hasOpcode CommandWord.reservedClear
  rw [hop, harg, h]
  exact decide_eq_true (byte_reserved_clear b)

theorem nop : Statement .nop := by unfold Statement; decide
theorem encReset : Statement .encReset := by unfold Statement; decide
theorem encPut (b : Byte) : Statement (.encPut b) := formatB 0x02 b rfl
theorem encFinish : Statement .encFinish := by unfold Statement; decide
theorem decReset : Statement .decReset := by unfold Statement; decide
theorem decPut (b : Byte) : Statement (.decPut b) := formatB 0x09 b rfl
theorem decFinish : Statement .decFinish := by unfold Statement; decide
theorem pwdClear : Statement .pwdClear := by unfold Statement; decide
theorem pwdAppend (b : Byte) : Statement (.pwdAppend b) := formatB 0x11 b rfl
theorem obf32 (v : Word) : Statement (.obf32 v) := by
  have hop : (encodeW 0x12 v).extractLsb' 32 8 = 0x12#8 := opcode_append _ v
  have h : Format.ofOpcode 0x12#8 = some .w := rfl
  unfold Statement CommandWord.wellFormed CommandWord.hasOpcode CommandWord.reservedClear encode
  rw [hop, h]
  exact decide_eq_true (BitVec.and_zero)
theorem rdreg (b : Byte) : Statement (.rdreg b) := formatB 0x20 b rfl

end Sys2Proof.Laws.WordForm
end

