-- ==== Sys2Proof/Laws/Step.lean ====
section
/-! SUPPORT. What a step, a password command and a register read can do, and the arrays of the reset state. -/

namespace Sys2Proof.Machine

theorem takeInput_nil {s : State} (h : s.pending = []) : s.takeInput = none := by
  simp [State.takeInput, h]

theorem takeInput_cons {s : State} {i : Input} {rest : List Input} (h : s.pending = i :: rest) :
    s.takeInput = some (i, { s with pending := rest }) := by
  simp [State.takeInput, h]

/-- What a step can do: hold the state, reset the block, perform a command or reject a word. -/
theorem step_next {s t : State} (h : step s = .next t) :
    (s.pending = [] ∧ t = s) ∨
    (∃ rest, s.pending = .powerOn :: rest ∧ t = { s with pending := rest }.powerOnReset) ∨
    (∃ w rest i, s.pending = .command w :: rest ∧ decode w = .ok i ∧ exec i { s with pending := rest } = .next t) ∨
    (∃ w rest e, s.pending = .command w :: rest ∧ decode w = .error e ∧
      t = rejectWord e { s with pending := rest }) := by
  unfold step at h
  cases hp : s.pending with
  | nil =>
    rw [takeInput_nil hp] at h
    cases h
    exact .inl ⟨rfl, rfl⟩
  | cons i rest =>
    rw [takeInput_cons hp] at h
    cases i with
    | powerOn => cases h; exact .inr (.inl ⟨rest, rfl, rfl⟩)
    | command w =>
      simp only at h
      split at h
      · next i hi => exact .inr (.inr (.inl ⟨w, rest, i, rfl, hi, h⟩))
      · next e he => cases h; exact .inr (.inr (.inr ⟨w, rest, e, rfl, he, rfl⟩))

/-- No step is refused: every row of the opcode table has its meaning. -/
theorem exec_not_refused (i : Instr) (s : State) (x : Refusal) : exec i s ≠ .refused x := by
  cases i <;> simp only [exec, execNop, execEncReset, execEncPut, execEncFinish, execDecReset, execDecPut,
    execDecFinish, execPwdClear, execPwdAppend, execObf32, execRdreg, ne_eq]
  all_goals (repeat' split) <;> simp

/-- What PWD.APPEND can do (42_obfuscation.md R184). -/
theorem execPwdAppend_next {b : Byte} {s t : State} (h : execPwdAppend b s = .next t) :
    (b = 0#8 ∧ t = s.rejectMalformed .pzero) ∨
    (b ≠ 0#8 ∧ s.cfg.pwdMax ≤ s.obf.plen ∧ t = s.rejectMalformed .pfull) ∨
    (b ≠ 0#8 ∧ s.obf.plen < s.cfg.pwdMax ∧ t = { s with obf := s.obf.append b }.respondOk 0#32) := by
  unfold execPwdAppend at h
  split at h
  · next h0 => cases h; exact .inl ⟨h0, rfl⟩
  · next h0 =>
    split at h
    · next h1 => cases h; exact .inr (.inl ⟨h0, h1, rfl⟩)
    · next h1 => cases h; exact .inr (.inr ⟨h0, by simpa [BitVec.le_def, BitVec.lt_def] using h1, rfl⟩)

/-- What RDREG can do (43_control.md R201). -/
theorem execRdreg_next {b : Byte} {s t : State} (h : execRdreg b s = .next t) :
    (∃ v, readRegister b s = some v ∧ t = s.respondOk v) ∨
    (readRegister b s = none ∧ t = s.rejectMalformed .badreg) := by
  unfold execRdreg at h
  split at h
  · next v hv => cases h; exact .inl ⟨v, hv, rfl⟩
  · next hv => cases h; exact .inr ⟨hv, rfl⟩

/-- PBYTE_TAKE with a non-empty password keeps the cursor below PLEN (42_obfuscation.md R181). -/
theorem pbyteTake_cursor_lt (f : Obf) (cur : BitVec 8) (h : f.plen ≠ 0#8) :
    (pbyteTake f cur).2.toNat < f.plen.toNat := by
  have hpos : 0 < f.plen.toNat := by
    rcases Nat.eq_zero_or_pos f.plen.toNat with h0 | h0
    · exact absurd (BitVec.eq_of_toNat_eq (by simpa using h0)) h
    · exact h0
  have hlt := Nat.mod_lt (cur.toNat + 1) hpos
  have := f.plen.isLt
  simp only [pbyteTake, h, if_false, BitVec.toNat_ofNat]
  rw [Nat.mod_eq_of_lt (by omega)]
  exact hlt

/-- PBYTE_TAKE keeps a cursor in its range (10_state.md R31, R39). -/
theorem pbyteTake_cursorOk {f : Obf} {cur : BitVec 8} (h : CursorOk f cur) : CursorOk f (pbyteTake f cur).2 := by
  refine ⟨fun h0 => ?_, pbyteTake_cursor_lt f cur⟩
  simp [pbyteTake, h0, h.1 h0]

/-- The arrays of a block after power-on reset are canonical. -/
theorem canonical_powerOn (cfg : Config) : Canonical (State.powerOn cfg) :=
  ⟨rfl, rfl, rfl, rfl, rfl, rfl, rfl⟩

/-- Reset memory has the canonical form. -/
theorem canonical_reset : Canonical State.reset := canonical_powerOn _

end Sys2Proof.Machine
end

