-- ==== Sys2Proof/Laws/Tree.lean ====
section
/-! SUPPORT. The trees as values: their in-order walks under insertion and deletion; and one lemma each for START and
for coding a unit, in the terms of Safety.lean. -/

namespace Sys2Proof.Machine

/-! ## Trees as values -/

@[simp] theorem Tree.inorder_leaf : Tree.leaf.inorder = [] := rfl

@[simp] theorem Tree.inorder_node (l : Tree) (p : Pos) (r : Tree) :
    (Tree.node l p r).inorder = l.inorder ++ p :: r.inorder := rfl

/-- The search meets nodes of the tree only. -/
theorem Tree.mem_inorder_of_mem_path {ring : Memory} {r p : Pos} {t : Tree} (h : p ∈ t.path ring r) :
    p ∈ t.inorder := by
  induction t with
  | leaf => cases h
  | node left q right ihl ihr =>
    simp only [Tree.path, List.mem_cons] at h
    rcases h with rfl | h
    · simp
    · split at h
      · cases h
      · split at h
        · simp [ihr h]
        · simp [ihl h]

theorem Tree.mem_insert_self (ring : Memory) (r : Pos) (t : Tree) : r ∈ (t.insert ring r).inorder := by
  induction t with
  | leaf => simp [Tree.insert]
  | node left q right ihl ihr =>
    simp only [Tree.insert]
    split
    · simp
    · split
      · simp [ihr]
      · simp [ihl]

/-- No node but r is new. -/
theorem Tree.mem_of_mem_insert {ring : Memory} {r p : Pos} {t : Tree} (h : p ∈ (t.insert ring r).inorder) :
    p = r ∨ p ∈ t.inorder := by
  induction t with
  | leaf => simpa [Tree.insert] using h
  | node left q right ihl ihr =>
    simp only [Tree.insert] at h
    split at h
    · simp only [inorder_node, List.mem_append, List.mem_cons] at h ⊢
      tauto
    · split at h
      · simp only [inorder_node, List.mem_append, List.mem_cons] at h ⊢
        tauto
      · simp only [inorder_node, List.mem_append, List.mem_cons] at h ⊢
        tauto

/-- The last node in order, put back at the end, gives the walk again. -/
theorem Tree.inorder_popLast (l : Tree) (p : Pos) (r : Tree) :
    (Tree.popLast l p r).1.inorder ++ [(Tree.popLast l p r).2] = l.inorder ++ p :: r.inorder := by
  induction r generalizing l p with
  | leaf => rfl
  | node rl q rr _ ih =>
    simp only [Tree.popLast, inorder_node, List.append_assoc, List.cons_append]
    rw [ih]

/-- Joining two subtrees keeps their walks in order. -/
theorem Tree.inorder_join (l r : Tree) : (Tree.join l r).inorder = l.inorder ++ r.inorder := by
  cases r with
  | leaf => cases l <;> simp [Tree.join]
  | node rl q rr =>
    cases l with
    | leaf => rfl
    | node ll p lr =>
      rw [inorder_node ll p lr, ← Tree.inorder_popLast]
      simp [Tree.join]

/-- Deletion takes p out of the walk. -/
theorem Tree.inorder_delete {p : Pos} {t : Tree} (h : t.inorder.Nodup) :
    (t.delete p).inorder = t.inorder.filter (fun q => q ≠ p) := by
  induction t with
  | leaf => rfl
  | node left q right ihl ihr =>
    rw [inorder_node, List.nodup_append] at h
    obtain ⟨hl, hr, hd⟩ := h
    rw [List.nodup_cons] at hr
    simp only [Tree.delete]
    split
    · next hq =>
      subst hq
      have h1 : left.inorder.filter (fun x => x ≠ q) = left.inorder := by
        rw [List.filter_eq_self]
        intro a ha
        simpa using hd a ha q (by simp)
      have h2 : right.inorder.filter (fun x => x ≠ q) = right.inorder := by
        rw [List.filter_eq_self]
        intro a ha
        have : a ≠ q := fun e => hr.1 (e ▸ ha)
        simpa using this
      rw [Tree.inorder_join, inorder_node, List.filter_append, List.filter_cons, h1, h2]
      simp
    · next hq =>
      rw [inorder_node, inorder_node, ihl hl, ihr hr.2, List.filter_append, List.filter_cons]
      simp [hq]

/-! ## START and the coded unit -/

@[simp] theorem Match.coded_pos (m : Match) : m.coded.pos = m.pos := by
  unfold Match.coded
  split <;> rfl

theorem insertAll_append (ps qs : List Pos) (e : Enc) : insertAll (ps ++ qs) e =
    (match insertAll ps e with
     | .error x => .error x
     | .ok e => insertAll qs e) := by
  induction ps generalizing e with
  | nil => rfl
  | cons p ps ih =>
    simp only [List.cons_append, insertAll]
    cases insertNode p e with
    | error x => rfl
    | ok e1 => exact ih e1

theorem startFrom_eq_insertAll (n i : Nat) (e : Enc) :
    startFrom n i e = insertAll ((List.range' i n).map (fun k => e.r - BitVec.ofNat 12 k)) e := by
  induction n generalizing i e with
  | zero => rfl
  | succ n ih =>
    simp only [startFrom, List.range'_succ, List.map_cons, insertAll]
    cases h : insertNode (e.r - BitVec.ofNat 12 i) e with
    | error x => rfl
    | ok e1 =>
      obtain ⟨t, m, _, rfl⟩ := insertNode_ok h
      exact ih (i + 1) _

/-- START is INSERT_NODE of its positions in order (40_lzss_encoder.md R105). -/
theorem start_eq_insertAll (e : Enc) : start e = insertAll (startPositions e.r) e := by
  have hs := startFrom_eq_insertAll lookAhead 1 e
  unfold start startPositions
  rw [insertAll_append, ← hs]
  cases h : startFrom lookAhead 1 e with
  | error x => rfl
  | ok e1 =>
    have hr : e1.r = e.r := by rw [startFrom_frame h]
    simp only [insertAll, hr]
    cases insertNode e.r e1 <;> rfl

/-- The second byte of a back-reference as a number (30_encoding.md R90). -/
theorem refHigh_toNat (pos : Pos) (len : Len) (h3 : 3 ≤ len.toNat) (h18 : len.toNat ≤ 18) :
    (refHigh pos len).toNat = pos.toNat / 256 * 16 + (len.toNat - 3) := by
  have hp := pos.isLt
  have hs : (len - 3#5).toNat = len.toNat - 3 := by
    rw [BitVec.toNat_sub_of_le (by simpa [BitVec.le_def] using h3)]
    rfl
  have hlt : len.toNat - 3 < 2 ^ 4 := by omega
  unfold refHigh
  rw [BitVec.toNat_append, BitVec.extractLsb'_toNat, BitVec.extractLsb'_toNat, hs]
  simp only [Nat.shiftRight_zero, Nat.mod_eq_of_lt hlt]
  rw [← Nat.shiftLeft_add_eq_or_of_lt hlt, Nat.shiftLeft_eq, Nat.shiftRight_eq_div_pow]
  omega

/-- What coding a unit adds to the group, and the MLEN it leaves (40_lzss_encoder.md R107). -/
theorem codeUnit_adds {e e' : Enc} (h : codeUnit e = .ok e') (hp : 1 ≤ e.group.cbp.toNat)
    (hc : e.clippedLen.toNat ≤ 18) :
    e.group.Adds (e.ebuf.read e.r.toNat) e.best.pos e.clippedLen.toNat e'.group ∧
      e'.best = ({ e.best with len := e.clippedLen } : Match).coded ∧ e'.group.gunits = e.group.gunits := by
  rcases codeUnit_ok h with ⟨hle, g, hg, rfl⟩ | ⟨hlt, g, hg, rfl⟩
  · obtain ⟨_, rfl⟩ := Group.addLiteral_ok hg
    refine ⟨⟨fun _ => ⟨rfl, fun a => ?_⟩, fun h2 => by omega⟩, by simp [Match.coded, hle], rfl⟩
    simp only [Memory.read, Memory.write, Store.read_write, setLiteral]
    by_cases h0 : a = 0 <;> by_cases h1 : a = e.group.cbp.toNat <;> simp [h0, h1] <;> omega
  · obtain ⟨h17, h17', rfl⟩ := Group.addRef_ok hg
    have hs : (e.group.cbp + 1#5).toNat = e.group.cbp.toNat + 1 := by
      simp only [BitVec.toNat_add, BitVec.toNat_ofNat]
      omega
    refine ⟨⟨fun h2 => by omega, fun _ => ⟨by bv_omega, ?_, ?_, fun a h1 h2 => ?_⟩⟩, ?_, rfl⟩
    · simp [Memory.read, Memory.write, Store.read_write, hs, refLow, BitVec.extractLsb'_toNat]
    · simp only [Memory.read, Memory.write, Store.read_write, hs, if_true]
      exact refHigh_toNat _ _ (by omega) hc
    · simp [Memory.read, Memory.write, Store.read_write, hs, h1, h2]
    · unfold Match.coded
      rw [if_neg (by show ¬ e.clippedLen.toNat ≤ 2; omega)]

end Sys2Proof.Machine
end

