-- ==== Sys2Proof/Tests/Slice0.lean ====
section
/-! SUPPORT. Tests of single steps against 95_test_vectors.md and hand calculation from the rules; the smoke test of
the well-formedness checks; and for every statement with hypotheses a state and operands that meet them. -/

namespace Sys2Proof.Tests

open Sys2Proof.Machine

/-! ## Well-formedness: one ill-formed word a check (30_encoding.md R83, R84) -/

theorem test_reserved_opcode_has_no_opcode : CommandWord.hasOpcode 0x7F00000000#40 = false := by decide
theorem test_formatZ_argument_not_clear : CommandWord.reservedClear 0x0100000001#40 = false := by decide
theorem test_formatB_argument_not_clear : CommandWord.reservedClear 0x0200000141#40 = false := by decide
theorem test_ill_formed_words_refused :
    CommandWord.wellFormed 0x7F00000000#40 = false ∧ CommandWord.wellFormed 0x0100000001#40 = false ∧
    CommandWord.wellFormed 0x0200000141#40 = false := by decide
theorem test_formatW_reserves_nothing : CommandWord.wellFormed 0x12FFFFFFFF#40 = true := by decide

/-! ## Decoding: a word of every row, from the listings of 95_test_vectors.md section 8 -/

theorem test_decode_nop : decodeTableWord 40 0x0000000000 = some .nop := by decide
theorem test_decode_encReset : decodeTableWord 40 0x0100000000 = some .encReset := by decide
theorem test_decode_encPut : decodeTableWord 40 0x0200000041 = some (.encPut 0x41#8) := by decide
theorem test_decode_encFinish : decodeTableWord 40 0x0300000000 = some .encFinish := by decide
theorem test_decode_decReset : decodeTableWord 40 0x0800000000 = some .decReset := by decide
theorem test_decode_decPut : decodeTableWord 40 0x09000000EE = some (.decPut 0xEE#8) := by decide
theorem test_decode_decFinish : decodeTableWord 40 0x0A00000000 = some .decFinish := by decide
theorem test_decode_pwdClear : decodeTableWord 40 0x1000000000 = some .pwdClear := by decide
theorem test_decode_pwdAppend : decodeTableWord 40 0x110000006B = some (.pwdAppend 0x6B#8) := by decide
theorem test_decode_obf32 : decodeTableWord 40 0x12736C6821 = some (.obf32 0x736C6821#32) := by decide
theorem test_decode_rdreg : decodeTableWord 40 0x2000000002 = some (.rdreg 0x02#8) := by decide
theorem test_decode_reserved : decode 0x7F00000000#40 = .error .illop := by decide
theorem test_decode_reserved_bits : decode 0x0200000141#40 = .error .rsvd := by decide

/-! ## Single steps -/

/-- The response a step gives, with CMDERR after it. -/
def answer (o : Host.Outcome State Fault Refusal) : Option (Response × Bool) :=
  match o with
  | .next t => t.responses.getLast?.map (fun r => (r, t.cmderr))
  | .fault _ => none
  | .refused _ => none

/-- The value of a view of the state after a step. -/
def after {α : Type} (view : State → α) (o : Host.Outcome State Fault Refusal) : Option α :=
  match o with
  | .next t => some (view t)
  | .fault _ => none
  | .refused _ => none

/-- The password "secret" (95_test_vectors.md section 3). -/
def secret : Obf :=
  ⟨[(0, 0x73#8), (1, 0x65#8), (2, 0x63#8), (3, 0x72#8), (4, 0x65#8), (5, 0x74#8)], 6#8⟩

/-- A block with a decoder state. -/
def withDec (d : Dec) : State := { State.reset with dec := d }

/-- A block with an encoder state. -/
def withEnc (e : Enc) : State := { State.reset with enc := e }

/-- After ENC.RESET and ENC.PUT 0x41: the byte at R, one byte of look-ahead (40_lzss_encoder.md R112). -/
def oneByteEnc : Enc := { Enc.initial with ebuf := [(4078, 0x41#8)], elen := 1#5, ein := 1#32 }

/-- Links of the forest whose one node is 4078, in tree 0 (10_state.md R24). -/
def oneNodeLinks : Links := ⟨[], [(4097, some 4078#12)], [(4078, .root 0#8)]⟩

/-- The trees of oneNodeLinks. -/
def oneNodeTrees (c : Byte) : Tree := if c = 0#8 then .node .leaf 4078#12 .leaf else .leaf

/-- An encoder in RUN over a zero ring, whose one tree node is R, with 2 bytes to shift in before the next unit. -/
def runEnc : Enc :=
  { Enc.initial with eph := .run, links := oneNodeLinks, elen := 18#5, etodo := 2#5 }

/-- runEnc with the last byte of its unit still to come and seven units pending. -/
def lastByteEnc : Enc :=
  { runEnc with etodo := 1#5, group := ⟨[(0, 0x7F#8)], 8#5, 7#3⟩ }

/-- V-X3: a reserved opcode is answered ILLOP and sets CMDERR. -/
theorem test_step_illop : answer (step (State.reset.placeWord 0x7F00000000#40)) =
    some (⟨.illop, 0#32, [], []⟩, true) := by decide

/-- V-X8: ENC.RESET with a nonzero argument is answered RSVD and does not reset the encoder. -/
theorem test_step_rsvd_keeps_encoder :
    after (fun t => (t.enc.elen, t.cmderr)) (step ((withEnc oneByteEnc).placeWord 0x0100000001#40)) =
      some (1#5, true) := by decide

theorem test_nop : answer (exec .nop State.reset) = some (⟨.ok, 0#32, [], []⟩, false) := by decide

/-- R111: "after any state, ENC.RESET then RDREG ENC_PTR gives data 0x00000FEE". -/
theorem test_encReset : after (fun t => encPtrWord t.enc) (exec .encReset (withEnc runEnc)) =
    some 0x00000FEE#32 := by decide

/-- R112: the first byte goes to EBUF[4078] and nothing is emitted. -/
theorem test_encPut_fill : after (fun t => t.enc) (exec (.encPut 0x41#8) State.reset) = some oneByteEnc := by
  decide

/-- R108, R112, by hand: the new position 4079 holds 17 zero bytes, then 0x05, so it agrees with node 4078 in 17
bytes; one byte of the unit is left. -/
theorem test_encPut_run :
    after (fun t => (t.enc.r, t.enc.best, t.enc.etodo, t.enc.links.getRson (.node 4078#12)))
      (exec (.encPut 5#8) (withEnc runEnc)) = some (4079#12, ⟨17#5, 4078#12⟩, 1#5, some 4079#12) := by
  decide +kernel

/-- V-E2: the one byte 0x41 gives 01 41. -/
theorem test_encFinish_one_literal : answer (exec .encFinish (withEnc oneByteEnc)) =
    some (⟨.ok, 2#32, [0x01#8, 0x41#8], []⟩, false) := by decide +kernel

/-- V-O1: with the password "secret" it gives 72 41. -/
theorem test_encFinish_secret :
    answer (exec .encFinish { withEnc oneByteEnc with obf := secret }) =
      some (⟨.ok, 2#32, [0x72#8, 0x41#8], []⟩, false) := by decide +kernel

/-- V-X1: ENC.FINISH in DONE is answered STATE. -/
theorem test_encFinish_done : answer (exec .encFinish (withEnc { Enc.initial with eph := .done })) =
    some (⟨.state, 0#32, [], []⟩, false) := by decide

/-- R155: "after any state, DEC.RESET then RDREG DEC_PTR gives data 0x00000FEE". -/
theorem test_decReset :
    after (fun t => decPtrWord t.dec) (exec .decReset (withDec { Dec.initial with dr := 5#12, dctl := 3#8 })) =
      some 0x00000FEE#32 := by decide

/-- V-D3, the last byte: position 0xFEE, one behind DR, repeats 0x41 five times; DEC_PTR is EE012FF4. -/
theorem test_decPut_overlapping_copy :
    (fun o => (answer o, after (fun t => decPtrWord t.dec) o))
      (exec (.decPut 0xF2#8) (withDec { Dec.initial with
        dsub := .refhi, dbuf := [(4078, 0x41#8)], dr := 4079#12, dctl := 1#8, dunit := 1#3, dreflo := 0xEE#8 })) =
      (some (⟨.ok, 5#32, [], [0x41#8, 0x41#8, 0x41#8, 0x41#8, 0x41#8]⟩, false), some 0xEE012FF4#32) := by
  decide

/-- V-D11, the first byte: 72 with the password "secret" is the control byte 01, and the cursor moves. -/
theorem test_decPut_control_byte :
    after (fun t => (t.dec.dctl, t.dec.dsub, t.dec.dpcur))
      (exec (.decPut 0x72#8) { State.reset with obf := secret }) = some (0x01#8, .unit, 1#8) := by decide

/-- V-D6: half a back-reference ends TRUNC_REF, data 3. -/
theorem test_decFinish_truncated :
    answer (exec .decFinish (withDec { Dec.initial with dsub := .refhi, dreflo := 0xED#8 })) =
      some (⟨.ok, 3#32, [], []⟩, false) := by decide

/-- V-D7: a control byte with no unit ends CTL_ONLY, data 2. -/
theorem test_decFinish_control_only :
    answer (exec .decFinish (withDec { Dec.initial with dsub := .unit, dctl := 1#8 })) =
      some (⟨.ok, 2#32, [], []⟩, false) := by decide

/-- P4: PWD.CLEAR empties the password. -/
theorem test_pwdClear : after (fun t => (t.obf, t.enc.epcur)) (exec .pwdClear { State.reset with obf := secret }) =
    some (Obf.initial, 0#8) := by decide

/-- R184's example: PWD.APPEND 0x6B then RDREG MASK gives 0x0000006B. -/
theorem test_pwdAppend : after (fun t => mask32 t.obf) (exec (.pwdAppend 0x6B#8) State.reset) =
    some 0x0000006B#32 := by decide

/-- R224: PWD.APPEND 0 with a full password is answered PZERO. -/
theorem test_pwdAppend_zero_before_full :
    answer (exec (.pwdAppend 0#8) { State.reset with obf := ⟨[], 255#8⟩ }) =
      some (⟨.pzero, 0#32, [], []⟩, true) := by decide

/-- P4: OBF32 0x736C6821 with "secret" gives 0x010F7937. -/
theorem test_obf32 : answer (exec (.obf32 0x736C6821#32) { State.reset with obf := secret }) =
    some (⟨.ok, 0x010F7937#32, [], []⟩, false) := by decide

/-- P6: CONFIG reads 0xFF02120C. -/
theorem test_rdreg_config : answer (exec (.rdreg 0x01#8) State.reset) =
    some (⟨.ok, 0xFF02120C#32, [], []⟩, false) := by decide

/-- V-X5: RDREG 0x0E is answered BADREG. -/
theorem test_rdreg_reserved : answer (exec (.rdreg 0x0E#8) State.reset) =
    some (⟨.badreg, 0#32, [], []⟩, true) := by decide

/-- 40_lzss_encoder.md R103: nodes 10 (the root) and 20 both agree with 30 in one byte, and MPOS is the first met. -/
theorem test_insert_tie_first_on_path :
    (match insertLinks [(10, 1#8), (11, 2#8), (20, 1#8), (21, 3#8), (30, 1#8), (31, 5#8)] 30#12
        ⟨[], [(10, some 20#12), (4098, some 10#12)], [(10, .root 1#8), (20, .node 10#12)]⟩ ⟨0#5, 0#12⟩ with
      | .ok (_, m) => m
      | .error _ => ⟨0#5, 0#12⟩) = ⟨1#5, 10#12⟩ := by decide +kernel

/-- 40_lzss_encoder.md R105: START inserts 4077 down to 4060, then 4078. -/
theorem test_start_positions : startPositions 4078#12 = [4077#12, 4076#12, 4075#12, 4074#12, 4073#12, 4072#12,
    4071#12, 4070#12, 4069#12, 4068#12, 4067#12, 4066#12, 4065#12, 4064#12, 4063#12, 4062#12, 4061#12, 4060#12,
    4078#12] := by decide

/-! ## Assembler (30_encoding.md R95) -/

/-- P1's line "ENC.PUT 'A'" with a comment. -/
theorem test_assemble_char :
    assembleLine ['E', 'N', 'C', '.', 'P', 'U', 'T', ' ', '\'', 'A', '\'', ' ', ';', 'x'] =
      .ok (some (.encPut 0x41#8)) := by decide

/-- P1's line "RDREG STATUS". -/
theorem test_assemble_register :
    assembleLine ['R', 'D', 'R', 'E', 'G', ' ', 'S', 'T', 'A', 'T', 'U', 'S'] = .ok (some (.rdreg 2#8)) := by
  decide

/-- A hexadecimal operand out of range is refused, never truncated. -/
theorem test_assemble_out_of_range :
    assembleLine ['E', 'N', 'C', '.', 'P', 'U', 'T', ' ', '0', 'x', '1', '4', '1'] = .error .outOfRange := by
  decide

/-! ## Witnesses: states and operands that meet the hypotheses of the statements -/

/-- A block with one input waiting. -/
def waiting (i : Input) : State := { State.reset with pending := [i] }

theorem witness_StepPerformsTheDecodedCommand :
    (waiting (.command 0x0200000041#40)).pending = [.command 0x0200000041#40] ∧
      decode 0x0200000041#40 = .ok (.encPut 0x41#8) := by decide

theorem witness_CommandWordsHaveOneReading : decode 0x12FFFFFFFF#40 = .ok (.obf32 0xFFFFFFFF#32) := by decide

/-- Both ends of a gap of the opcode map, and the last opcode. -/
theorem witness_ReservedOpcodeAnswersIllop :
    (waiting (.command 0x0400000000#40)).pending = [.command 0x0400000000#40] ∧
    (0x0400000000#40).extractLsb' 32 8 ∉
      [0x00#8, 0x01#8, 0x02#8, 0x03#8, 0x08#8, 0x09#8, 0x0A#8, 0x10#8, 0x11#8, 0x12#8, 0x20#8] ∧
    (0xFFFFFFFFFF#40).extractLsb' 32 8 ∉
      [0x00#8, 0x01#8, 0x02#8, 0x03#8, 0x08#8, 0x09#8, 0x0A#8, 0x10#8, 0x11#8, 0x12#8, 0x20#8] := by decide

/-- The smallest reserved argument of each format, and a state with such a word waiting. -/
theorem witness_ReservedArgumentAnswersRsvd :
    1#32 ≠ 0#32 ∧ (0x100#32).extractLsb' 8 24 ≠ 0#24 ∧ (0xFF#32).extractLsb' 8 24 = 0#24 ∧
    (waiting (.command (0x01#8 ++ 1#32))).pending = [.command (0x01#8 ++ 1#32)] ∧
    (waiting (.command (0x02#8 ++ 0x100#32))).pending = [.command (0x02#8 ++ 0x100#32)] := by decide

theorem witness_BlockHoldsItsStateBetweenCommands : State.reset.pending = [] := rfl

theorem witness_ResetValuesAreThoseOfTheTable :
    (exec .encReset State.reset = .next (State.reset.respondOk 0#32)) ∧
    (exec .decReset State.reset = .next (State.reset.respondOk 0#32)) ∧
    (exec .pwdClear State.reset = .next (State.reset.respondOk 0#32)) ∧
    (exec .nop { State.reset with cmderr := true } = .next ({ State.reset with cmderr := true }.respondOk 0#32)) ∧
    ({ State.reset with cmderr := true } : State).cmderr = true := ⟨rfl, rfl, rfl, rfl, rfl⟩

theorem witness_PowerOnResetIsTheThreeResetsAndClearsCmderr :
    (waiting .powerOn).pending = [.powerOn] := rfl

/-- The last readable and the first reserved index. -/
theorem witness_RdregHasNoSideEffectAndRefusesReservedIndices :
    (0x0D#8).toNat ≤ 0x0D ∧ 0x0D < (0x0E#8).toNat := by decide

/-- The first and the last cursor of "secret", and the empty password. -/
theorem witness_PasswordByteAndCursorWrap :
    Obf.initial.plen = 0#8 ∧ (0#8).toNat + 1 < secret.plen.toNat ∧ (5#8).toNat + 1 = secret.plen.toNat := by decide

theorem witness_MaskFoldsPasswordBytesByLane : 3 < 4 ∧ Obf.initial.plen = 0#8 := by decide

/-- An empty password, the last free entry, and a full password. -/
theorem witness_PwdAppendStoresTheByteOrRefuses :
    0x6B#8 ≠ 0#8 ∧
    (({ State.reset with obf := ⟨[], 254#8⟩ } : State).obf.plen.toNat ≤ State.reset.cfg.pwdMax.toNat ∧
      ({ State.reset with obf := ⟨[], 254#8⟩ } : State).obf.plen ≠ State.reset.cfg.pwdMax) ∧
    (State.reset.obf.plen.toNat ≤ State.reset.cfg.pwdMax.toNat ∧ State.reset.obf.plen ≠ State.reset.cfg.pwdMax) ∧
    ({ State.reset with obf := ⟨[], 255#8⟩ } : State).obf.plen = State.reset.cfg.pwdMax := by decide

theorem witness_Obf32MasksItsOperand : State.reset.obf.plen = 0#8 := rfl

theorem witness_CursorsMoveOnlyWithTheirControlBytes :
    exec .nop State.reset = .next (State.reset.respondOk 0#32) ∧
    (State.reset.respondOk 0#32).responses = State.reset.responses ++ [⟨.ok, 0#32, [], []⟩] ∧
    Instr.nop ≠ .encReset ∧ Instr.nop ≠ .pwdClear ∧ Instr.nop ≠ .decReset ∧
    (⟨.ok, 0#32, [], []⟩ : Response).encOut = [] ∧ (∀ b, Instr.nop = .decPut b → State.reset.dec.dsub ≠ .ctl) := by
  refine ⟨rfl, rfl, by decide, by decide, by decide, rfl, ?_⟩
  intro b h
  cases h

theorem witness_PwdSetLoadsThePassword :
    [0x73#8, 0x65#8].length ≤ State.reset.cfg.pwdMax.toNat ∧ (∀ b ∈ [0x73#8, 0x65#8], b ≠ 0#8) := by decide

theorem witness_DecPutReadsControlByte : State.reset.dec.dph = .active ∧ State.reset.dec.dsub = .ctl := ⟨rfl, rfl⟩

/-- A literal as the last unit of its group, and a first back-reference byte as unit 0. -/
theorem witness_DecPutTakesLiteralOrFirstReferenceByte :
    let lit := withDec { Dec.initial with dsub := .unit, dctl := 0x80#8, dunit := 7#3 }
    let ref := withDec { Dec.initial with dsub := .unit, dctl := 0xFE#8 }
    (lit.dec.dph = .active ∧ lit.dec.dsub = .unit ∧ lit.dec.dctl.getLsbD lit.dec.dunit.toNat = true) ∧
    (ref.dec.dph = .active ∧ ref.dec.dsub = .unit ∧ ref.dec.dctl.getLsbD ref.dec.dunit.toNat = false) := by
  decide

theorem witness_DecPutCopiesBackReference :
    (withDec { Dec.initial with dsub := .refhi }).dec.dph = .active ∧
      (withDec { Dec.initial with dsub := .refhi }).dec.dsub = .refhi := ⟨rfl, rfl⟩

/-- A state for each clause of the end status, with DUNIT at both ends, and for DONE and ERROR. -/
theorem witness_DecFinishClassifiesTheEnd :
    let s (u : DecSub) (k : BitVec 3) := withDec { Dec.initial with dsub := u, dunit := k }
    (s .refhi 7#3).dec.dph = .active ∧ (s .refhi 7#3).dec.dsub = .refhi ∧
    (s .unit 0#3).dec.dsub = .unit ∧ (s .unit 0#3).dec.dunit = 0#3 ∧
    (s .unit 1#3).dec.dsub = .unit ∧ (s .unit 1#3).dec.dunit ≠ 0#3 ∧ (s .ctl 0#3).dec.dsub = .ctl ∧
    (withDec { Dec.initial with dph := .done }).dec.dph = .done ∧
    (withDec { Dec.initial with dph := .error }).dec.dph = .error := by decide

theorem witness_DecoderOutputBurstIsBounded :
    exec (.decPut 0x41#8) (withDec { Dec.initial with dsub := .unit, dctl := 1#8 }) =
      .next ((withDec { Dec.initial with dsub := .unit, dctl := 1#8 }).respondDec
        { Dec.initial with dsub := .unit, dctl := 1#8, dunit := 1#3, dbuf := [(4078, 0x41#8)], dr := 4079#12,
                           din := 1#32, dout := 1#32 } [0x41#8]) ∧
    (∀ b, Instr.nop ≠ .decPut b) := by
  refine ⟨rfl, ?_⟩
  intro b h
  cases h

theorem reset_decoder_in_range : State.reset.dec.InRange := by
  refine ⟨fun _ => rfl, ?_, rfl⟩
  decide

theorem witness_EveryStepKeepsDecoderRanges :
    State.reset.dec.InRange ∧ step State.reset = .next State.reset := ⟨reset_decoder_in_range, rfl⟩

theorem witness_FinishedUnitAnswersStateThenFailed :
    (withEnc { Enc.initial with eph := .done }).enc.eph = .done ∧
    (withEnc { Enc.initial with eph := .error }).enc.eph = .error ∧
    (withDec { Dec.initial with dph := .done }).dec.dph = .done ∧
    (withDec { Dec.initial with dph := .error }).dec.dph = .error ∧
    (step { withEnc { Enc.initial with eph := .error } with pending := [.powerOn] } = .next State.reset ∧
      State.reset.enc.eph ≠ .error) ∧
    (step { withDec { Dec.initial with dph := .error } with pending := [.powerOn] } = .next State.reset ∧
      State.reset.dec.dph ≠ .error) := by
  refine ⟨rfl, rfl, rfl, rfl, ⟨rfl, by decide⟩, ⟨rfl, by decide⟩⟩

/-! ### Encoder states -/

theorem empty_forest (ring : Memory) : Forest ring Links.empty (fun _ => .leaf) where
  linked _ := rfl
  nodup _ := List.nodup_nil
  firstByte _ _ h := absurd h List.not_mem_nil
  placed _ h := absurd rfl h
  sorted _ := List.Pairwise.nil

theorem oneNode_getRson_root (c : Byte) :
    oneNodeLinks.getRson (.root c) = if c = 0#8 then some 4078#12 else none := by
  by_cases hc : c = 0#8
  · subst hc; rfl
  · have : c.toNat ≠ 0 := fun h => hc (BitVec.eq_of_toNat_eq (by simpa using h))
    simp [oneNodeLinks, Links.getRson, Store.read_cons, Link.index, hc, this]

theorem oneNode_getDad (p : Pos) (h : oneNodeLinks.getDad (.node p) ≠ .nil) : p = 4078#12 := by
  by_contra hp
  apply h
  have : p.toNat ≠ 4078 := fun h' => hp (BitVec.eq_of_toNat_eq (by simpa using h'))
  simp [oneNodeLinks, Links.getDad, Store.read_cons, Link.index, this]

theorem oneNode_inorder (c : Byte) : (oneNodeTrees c).inorder = if c = 0#8 then [4078#12] else [] := by
  unfold oneNodeTrees
  split <;> rfl

/-- Over a ring whose byte 4078 is 0, oneNodeLinks hold oneNodeTrees. -/
theorem oneNode_forest {ring : Memory} (h0 : ring.read 4078 = 0#8) : Forest ring oneNodeLinks oneNodeTrees where
  linked c := by
    rw [oneNode_getRson_root]
    unfold oneNodeTrees
    split
    · next hc => subst hc; exact ⟨rfl, rfl, rfl, rfl⟩
    · rfl
  nodup c := by rw [oneNode_inorder]; split <;> simp
  firstByte c p h := by
    rw [oneNode_inorder] at h
    split at h
    · next hc => rw [hc, List.mem_singleton.mp h]; exact h0
    · cases h
  placed p h := ⟨0#8, by rw [oneNode_inorder, oneNode_getDad p h]; simp⟩
  sorted c := by rw [oneNode_inorder]; split <;> simp

theorem initial_encoder_safe : Enc.initial.Safe :=
  ⟨by unfold Enc.InRange; decide, fun _ _ => rfl, fun _ => empty_forest [], nofun⟩

theorem runEnc_trees (e : Enc) (h : e.eph = .run) (hb : e.ebuf = []) (hl : e.links = oneNodeLinks)
    (hr : e.r = 4078#12) : e.TreesOk := by
  refine ⟨fun h' => absurd (h.symm.trans h') (by decide), fun _ => ?_⟩
  refine ⟨oneNodeTrees, by rw [hb, hl]; exact oneNode_forest rfl, by rw [hb, hr]; decide, ?_⟩
  intro k c h1 h17
  rw [oneNode_inorder, hr]
  split
  · rw [List.mem_singleton]
    intro heq
    have := congrArg BitVec.toNat heq
    simp only [BitVec.toNat_add, BitVec.toNat_ofNat] at this
    omega
  · exact List.not_mem_nil

theorem runEnc_safe : runEnc.Safe :=
  ⟨by unfold Enc.InRange; decide, fun _ _ => rfl, runEnc_trees runEnc rfl rfl rfl rfl⟩

theorem lastByteEnc_safe : lastByteEnc.Safe :=
  ⟨by unfold Enc.InRange; decide, fun _ _ => rfl, runEnc_trees lastByteEnc rfl rfl rfl rfl⟩

theorem fullFill_safe : ({ Enc.initial with elen := 17#5 } : Enc).Safe :=
  ⟨by unfold Enc.InRange; decide, fun _ _ => rfl, fun _ => empty_forest [], nofun⟩

theorem witness_InsertIntoEmptyTreeFindsNothing :
    Enc.initial.links.getRson (.root (Enc.initial.ebuf.read (4077#12).toNat)) = none := by decide

theorem zero_not_in_oneNode (c : Byte) : 0#12 ∉ (oneNodeTrees c).inorder := by
  rw [oneNode_inorder]
  split <;> decide

/-- Over a zero ring the search from 0 meets 4078 with the whole key; over a ring whose byte 1 is 1 it meets no node
with it. -/
theorem witness_InsertKeepsTheForest :
    (Forest [] oneNodeLinks oneNodeTrees ∧ (∀ c, 0#12 ∉ (oneNodeTrees c).inorder) ∧
      4078#12 ∈ (oneNodeTrees 0#8).path [] 0#12 ∧ keyAt [] 4078#12 = keyAt [] 0#12) ∧
    (Forest [(1, 1#8)] oneNodeLinks oneNodeTrees ∧
      ∀ p ∈ (oneNodeTrees 0#8).path [(1, 1#8)] 0#12, keyAt [(1, 1#8)] p ≠ keyAt [(1, 1#8)] 0#12) ∧
    (∀ c, (oneNodeTrees c).inorder.Pairwise (fun p q => keyAt [] p ≠ keyAt [] q)) := by
  refine ⟨⟨oneNode_forest rfl, zero_not_in_oneNode, by decide, by decide⟩,
    ⟨oneNode_forest (by decide), by decide⟩, fun c => ?_⟩
  rw [oneNode_inorder]
  split <;> simp

theorem witness_DeleteRemovesExactlyTheNode :
    Forest [] oneNodeLinks oneNodeTrees ∧ 4078#12 ∈ (oneNodeTrees 0#8).inorder :=
  ⟨oneNode_forest rfl, by decide⟩

/-- The search from 0 meets node 4078, whose whole key is equal. -/
theorem witness_InsertFindsALongestMatch :
    Forest [] oneNodeLinks oneNodeTrees ∧ (∀ c, 0#12 ∉ (oneNodeTrees c).inorder) ∧
    (∃ t', insertLinks [] 0#12 oneNodeLinks ⟨0#5, 0#12⟩ = .ok (t', ⟨18#5, 4078#12⟩)) ∧
    (oneNodeTrees (Memory.read [] (0#12).toNat)).inorder ≠ [] := by
  refine ⟨oneNode_forest rfl, zero_not_in_oneNode,
    ⟨⟨[], [(4097, some 0#12)], [(0, .root 0#8), (4096, .node 0#12)]⟩, ?_⟩, by decide⟩
  decide +kernel

theorem witness_MatchAgreesWithTheLookAhead :
    Forest [] oneNodeLinks oneNodeTrees ∧ (∀ c, 0#12 ∉ (oneNodeTrees c).inorder) ∧
    (∃ t', insertLinks [] 0#12 oneNodeLinks ⟨0#5, 0#12⟩ = .ok (t', ⟨18#5, 4078#12⟩)) ∧ 17 < (18#5).toNat :=
  ⟨oneNode_forest rfl, zero_not_in_oneNode, witness_InsertFindsALongestMatch.2.2.1, by decide⟩

theorem witness_BackReferenceBytesReadBack :
    (3 ≤ (3#5).toNat ∧ (3#5).toNat ≤ 18) ∧ (3 ≤ (18#5).toNat ∧ (18#5).toNat ≤ 18) := by decide

theorem witness_EmitGroupWritesControlByteThenUnits :
    1 ≤ lastByteEnc.group.cbp.toNat ∧ lastByteEnc.group.cbp.toNat ≤ 17 := by decide

/-- A literal (MLEN 0) and a back-reference (MLEN 18), with GUNITS 0 and 7. -/
theorem witness_EmitUnitCodesLiteralOrReference :
    (1 ≤ runEnc.group.cbp.toNat ∧ runEnc.group.cbp.toNat ≤ 15 ∧ runEnc.elen.toNat ≤ 18 ∧
      min runEnc.best.len.toNat runEnc.elen.toNat ≤ 2) ∧
    (let e := { lastByteEnc with best := ⟨18#5, 0xFEE#12⟩ }
     1 ≤ e.group.cbp.toNat ∧ e.group.cbp.toNat ≤ 15 ∧ e.elen.toNat ≤ 18 ∧
      2 < min e.best.len.toNat e.elen.toNat) := by decide

/-- The first and the last byte that start no unit. -/
theorem witness_EncPutFillsTheLookAhead :
    (State.reset.enc.eph = .fill ∧ State.reset.enc.r = 4078#12 ∧ State.reset.enc.elen.toNat ≤ 16) ∧
    (let s := withEnc { Enc.initial with elen := 16#5 }
     s.enc.eph = .fill ∧ s.enc.r = 4078#12 ∧ s.enc.elen.toNat ≤ 16) := by decide

theorem witness_EncPutOfTheEighteenthByteStartsTheRun :
    (withEnc { Enc.initial with elen := 17#5 }).enc.Safe ∧
    (withEnc { Enc.initial with elen := 17#5 }).enc.eph = .fill ∧
    (withEnc { Enc.initial with elen := 17#5 }).enc.elen = 17#5 := ⟨fullFill_safe, rfl, rfl⟩

/-- RUN in the middle of a unit, and at its last byte with the eighth unit to come. -/
theorem witness_EncPutInRunShiftsTheWindow :
    ((withEnc runEnc).enc.Safe ∧ (withEnc runEnc).enc.eph = .run ∧ (withEnc runEnc).enc.etodo ≠ 1#5) ∧
    ((withEnc lastByteEnc).enc.Safe ∧ (withEnc lastByteEnc).enc.eph = .run ∧
      (withEnc lastByteEnc).enc.etodo = 1#5 ∧ (withEnc lastByteEnc).enc.group.gunits = 7#3) ∧
    ((withEnc { runEnc with etodo := 1#5 }).enc.Safe ∧ (withEnc { runEnc with etodo := 1#5 }).enc.etodo = 1#5 ∧
      (withEnc { runEnc with etodo := 1#5 }).enc.group.gunits ≠ 7#3) :=
  ⟨⟨runEnc_safe, rfl, by decide⟩, ⟨lastByteEnc_safe, rfl, rfl, rfl⟩,
    ⟨⟨by unfold Enc.InRange; decide, fun _ _ => rfl, runEnc_trees _ rfl rfl rfl rfl⟩, rfl, by decide⟩⟩

theorem oneByteEnc_safe : oneByteEnc.Safe := by
  refine ⟨by unfold Enc.InRange; decide, fun k hk => ?_, fun _ => empty_forest _, nofun⟩
  have h1 : ringSize + k ≠ 4078 := by simp only [ringSize]; omega
  have h2 : k ≠ 4078 := by simp only [lookAhead] at hk; omega
  simp [oneByteEnc, Memory.read, Store.read_cons, h1, h2]

/-- FILL without and with a byte to code, and RUN. -/
theorem witness_EncFinishDrainsTheLookAhead :
    (State.reset.enc.Safe ∧ State.reset.enc.eph = .fill ∧ State.reset.enc.elen = 0#5) ∧
    ((withEnc oneByteEnc).enc.Safe ∧ (withEnc oneByteEnc).enc.eph = .fill ∧ (withEnc oneByteEnc).enc.elen ≠ 0#5) ∧
    ((withEnc runEnc).enc.Safe ∧ (withEnc runEnc).enc.eph = .run) :=
  ⟨⟨initial_encoder_safe, rfl, rfl⟩, ⟨oneByteEnc_safe, rfl, by decide⟩, ⟨runEnc_safe, rfl⟩⟩

/-- oneByteEnc after its unit is coded: a literal pending, then the look-ahead empty. -/
def oneUnitEnc : Enc :=
  { oneByteEnc with best := ⟨1#5, 0#12⟩, group := ⟨[(0, 1#8), (1, 0x41#8)], 2#5, 1#3⟩ }

/-- ELEN 0 with and without a unit pending, ELEN 1 and ELEN 18. -/
theorem witness_DrainCodesTheLookAheadUnitByUnit :
    Enc.initial.elen = 0#5 ∧ ({ oneUnitEnc with elen := 0#5 } : Enc).elen = 0#5 ∧
    oneByteEnc.elen ≠ 0#5 ∧ emitUnit Obf.initial oneByteEnc = .ok (oneUnitEnc, []) ∧
    advanceEmptyTimes oneUnitEnc.best.len.toNat oneUnitEnc = .ok { oneUnitEnc with r := 4079#12, elen := 0#5 } ∧
    drain Obf.initial { oneUnitEnc with r := 4079#12, elen := 0#5 } =
      .ok ({ oneUnitEnc with r := 4079#12, elen := 0#5, group := ⟨[(1, 0x41#8)], 1#5, 0#3⟩ }, [0x01#8, 0x41#8]) ∧
    advanceEmpty oneUnitEnc = .ok { oneUnitEnc with r := 4079#12, elen := 0#5 } ∧
    advanceEmptyTimes 0 Enc.initial = .ok Enc.initial ∧
    (deleteLinks (oneByteEnc.r + 18#12) oneByteEnc.links = .ok Links.empty ∧ oneByteEnc.elen = 1#5) ∧
    (deleteLinks (runEnc.r + 18#12) runEnc.links = .ok oneNodeLinks ∧ runEnc.elen ≠ 1#5 ∧
      ∃ l' m, insertLinks runEnc.ebuf (runEnc.r + 1#12) oneNodeLinks runEnc.best = .ok (l', m)) := by
  refine ⟨rfl, rfl, by decide, by rfl, by rfl, by rfl, by rfl, rfl, ⟨by rfl, rfl⟩, by rfl, by decide, ?_⟩
  refine ⟨⟨[], [(4097, some 4079#12)], [(4079, .root 0#8), (4096, .node 4079#12)]⟩, ⟨18#5, 4078#12⟩, ?_⟩
  decide +kernel

theorem witness_EveryStepKeepsEncoderRangesAndMirror :
    (withEnc runEnc).enc.InRange ∧ Mirrored (withEnc runEnc).enc.ebuf ∧
      step (withEnc runEnc) = .next (withEnc runEnc) := ⟨runEnc_safe.1, runEnc_safe.2.1, rfl⟩

theorem witness_EncoderOutputBurstIsBounded :
    State.reset.enc.InRange ∧
    exec (.encPut 0x41#8) State.reset = .next (State.reset.respondEnc oneByteEnc []) ∧
    exec .encFinish State.reset = .next (State.reset.respondEnc { Enc.initial with eph := .done } []) ∧
    isEncoderCommand .encFinish = true ∧ (∀ b, Instr.nop ≠ .encPut b) ∧ Instr.nop ≠ .encFinish := by
  refine ⟨initial_encoder_safe.1, by rfl, by rfl, rfl, ?_, by decide⟩
  intro b h
  cases h

/-! ### The whole block -/

theorem witness_EveryStepKeepsArraysCanonical :
    Canonical State.reset ∧ step State.reset = .next State.reset := ⟨canonical_reset, rfl⟩

theorem reset_password_ok : PasswordOk State.reset := by
  refine ⟨by decide, by decide, ?_, fun _ _ => rfl, ⟨fun _ => rfl, fun h => absurd rfl h⟩,
    ⟨fun _ => rfl, fun h => absurd rfl h⟩⟩
  intro i hi
  exact absurd hi (Nat.not_lt_zero i)

theorem witness_EveryStepKeepsPasswordRanges :
    PasswordOk State.reset ∧ step State.reset = .next State.reset := ⟨reset_password_ok, rfl⟩

/-- A safe state in RUN with a command waiting. -/
def safeRun : State := { withEnc runEnc with pending := [.command 0x0000000000#40] }

theorem safeRun_safe : Safe safeRun :=
  ⟨⟨rfl, rfl, by decide, by decide, rfl, rfl, rfl⟩, runEnc_safe, reset_decoder_in_range, reset_password_ok⟩

theorem witness_EveryStepKeepsSafety :
    Safe safeRun ∧ step safeRun = .next ((withEnc runEnc).respondOk 0#32) := ⟨safeRun_safe, rfl⟩

theorem witness_SafeStateNeverStops : Safe safeRun := safeRun_safe

theorem witness_PowerOnStateIsSafe : 1 ≤ (⟨1#8⟩ : Config).pwdMax.toNat ∧ 1 ≤ Config.default.pwdMax.toNat := by
  decide

theorem witness_CmderrRecordsEveryMalformedCommand :
    (step State.reset = .next State.reset ∧ State.reset.pending = []) ∧
    (step (waiting .powerOn) = .next State.reset ∧ (waiting .powerOn).pending = [.powerOn]) ∧
    (step (waiting (.command 0x0000000000#40)) = .next (State.reset.respondOk 0#32) ∧
      (waiting (.command 0x0000000000#40)).pending = [.command 0x0000000000#40]) :=
  ⟨⟨rfl, rfl⟩, ⟨rfl, rfl⟩, ⟨rfl, rfl⟩⟩

/-- A malformed command, a failed one and a misuse of a finished unit. -/
theorem witness_RejectedCommandChangesNothingElse :
    step (waiting (.command 0x7F00000000#40)) = .next (State.reset.rejectMalformed .illop) ∧
    step { withEnc { Enc.initial with eph := .error } with pending := [.command 0x0300000000#40] } =
      .next ((withEnc { Enc.initial with eph := .error }).reject .failed) ∧
    step { withEnc { Enc.initial with eph := .done } with pending := [.command 0x0300000000#40] } =
      .next (withEnc { Enc.initial with eph := .done }).rejectEncDone := ⟨rfl, rfl, rfl⟩

theorem witness_UnitsAreIndependent :
    exec (.rdreg 0x00#8) State.reset = .next (State.reset.respondOk idWord) ∧
    isEncoderCommand (.rdreg 0x00#8) = false ∧ isDecoderCommand (.rdreg 0x00#8) = false ∧
    isPasswordCommand (.rdreg 0x00#8) = false ∧ Instr.rdreg 0x00#8 ≠ .pwdClear := by
  refine ⟨rfl, rfl, rfl, rfl, by decide⟩

theorem witness_InterleavedCommandsLeaveTheEncodedStream :
    (∀ i ∈ [Instr.nop, .encPut 0x41#8], isPasswordCommand i = false) ∧
    runCommands [.nop, .encPut 0x41#8] State.reset =
      .next ((State.reset.respondOk 0#32).respondEnc oneByteEnc []) := by
  refine ⟨by decide, by rfl⟩

/-- The bounds of numbers and of printable characters. -/
theorem witness_AssemblerAcceptsExactlyTheOperandsOfTheFormat :
    (255 < 256 ∧ 0xFFFFFFFF < 0x100000000 ∧ (255#8).toNat = 255) ∧
    (0x20 ≤ ' '.toNat ∧ ' '.toNat ≤ 0x7E) ∧ (0x20 ≤ '~'.toNat ∧ '~'.toNat ≤ 0x7E) ∧
    '\t'.toNat < 0x20 ∧ 0x7E < (Char.ofNat 0x7F).toNat := by decide

end Sys2Proof.Tests
end

section
/-! Inversion lemmas for the encoder procedures that emit bytes, one per procedure: what each can do when it
completes (40_lzss_encoder.md R107, R110, R112, R113). -/

namespace Sys2Proof.Machine

theorem emitUnitTodo_ok {f : Obf} {e e' : Enc} {out : List Byte} (h : emitUnitTodo f e = .ok (e', out)) :
    ∃ e1, emitUnit f e = .ok (e1, out) ∧ e' = { e1 with etodo := e1.best.len } := by
  unfold emitUnitTodo at h
  split at h
  · cases h
  · next e1 o1 h1 => cases h; exact ⟨e1, h1, rfl⟩

theorem putFill_ok {f : Obf} {b : Byte} {e e' : Enc} {out : List Byte} (h : putFill f b e = .ok (e', out)) :
    (e.elen + 1#5 ≠ 18#5 ∧ e' = storeLookAhead b e ∧ out = []) ∨
    (e.elen + 1#5 = 18#5 ∧ ∃ e1 e2, start (storeLookAhead b e) = .ok e1 ∧ emitUnit f e1 = .ok (e2, out) ∧
      e' = { e2 with etodo := e2.best.len, eph := .run }) := by
  unfold putFill at h
  split at h
  · next h18 =>
    split at h
    · cases h
    · next e1 h1 =>
      split at h
      · cases h
      · next e2 o2 h2 =>
        obtain ⟨e3, h3, rfl⟩ := emitUnitTodo_ok h2
        cases h
        exact .inr ⟨h18, e1, e3, h1, h3, rfl⟩
  · next h18 => cases h; exact .inl ⟨h18, rfl, rfl⟩

theorem putRun_ok {f : Obf} {b : Byte} {e e' : Enc} {out : List Byte} (h : putRun f b e = .ok (e', out)) :
    ∃ e1, consume b e = .ok e1 ∧
      ((e1.etodo - 1#5 ≠ 0#5 ∧ e' = { e1 with etodo := e1.etodo - 1#5 } ∧ out = []) ∨
       (e1.etodo - 1#5 = 0#5 ∧ ∃ e2, emitUnit f { e1 with etodo := e1.etodo - 1#5 } = .ok (e2, out) ∧
         e' = { e2 with etodo := e2.best.len })) := by
  unfold putRun at h
  split at h
  · cases h
  · next e1 h1 =>
    refine ⟨e1, h1, ?_⟩
    split at h
    · next h0 => exact .inr ⟨h0, emitUnitTodo_ok h⟩
    · next h0 => cases h; exact .inl ⟨h0, rfl, rfl⟩

theorem flushPartial_ok {f : Obf} {e e' : Enc} {out : List Byte} (h : flushPartial f e = .ok (e', out)) :
    (1 < e.group.cbp.toNat ∧ emitGroup f e = .ok (e', out)) ∨
    (e.group.cbp.toNat ≤ 1 ∧ e' = e ∧ out = []) := by
  unfold flushPartial at h
  split at h
  · next h1 => exact .inl ⟨h1, h⟩
  · next h1 => cases h; exact .inr ⟨not_lt.1 h1, rfl, rfl⟩

theorem drain_ok {f : Obf} {e e' : Enc} {out : List Byte} (h : drain f e = .ok (e', out)) :
    ∃ e1 o1 o2, drainLoop f e.elen.toNat e = .ok (e1, o1) ∧ flushPartial f e1 = .ok (e', o2) ∧ out = o1 ++ o2 := by
  unfold drain at h
  split at h
  · cases h
  · next e1 o1 h1 =>
    split at h
    · cases h
    · next e2 o2 h2 => cases h; exact ⟨e1, o1, o2, h1, h2, rfl⟩

theorem finishFill_ok {f : Obf} {e e' : Enc} {out : List Byte} (h : finishFill f e = .ok (e', out)) :
    (e.elen = 0#5 ∧ e' = e ∧ out = []) ∨
    (e.elen ≠ 0#5 ∧ ∃ e1, start e = .ok e1 ∧ drain f e1 = .ok (e', out)) := by
  unfold finishFill at h
  split at h
  · next h0 => cases h; exact .inl ⟨h0, rfl, rfl⟩
  · next h0 =>
    split at h
    · cases h
    · next e1 h1 => exact .inr ⟨h0, e1, h1, h⟩

theorem finishRun_ok {f : Obf} {e e' : Enc} {out : List Byte} (h : finishRun f e = .ok (e', out)) :
    ∃ e1, advanceEmptyTimes e.etodo.toNat e = .ok e1 ∧ drain f { e1 with etodo := 0#5 } = .ok (e', out) := by
  unfold finishRun at h
  split at h
  · cases h
  · next e1 h1 => exact ⟨e1, h1, h⟩

end Sys2Proof.Machine
end

section
/-! The two cursors: EPCUR moves by PBYTE_TAKE where a group is emitted and DPCUR where a control byte is read, so
each procedure keeps its cursor in range (10_state.md R31, R39). -/

namespace Sys2Proof.Machine

theorem cursorOk_zero (f : Obf) : CursorOk f 0#8 := by
  refine ⟨fun _ => rfl, fun h => ?_⟩
  have h0 : f.plen.toNat ≠ 0 := fun h' => h (BitVec.eq_of_toNat_eq h')
  exact Nat.pos_of_ne_zero h0

theorem emitGroup_cursorOk {f : Obf} {e e' : Enc} {out : List Byte} (hc : CursorOk f e.epcur)
    (h : emitGroup f e = .ok (e', out)) : CursorOk f e'.epcur := by
  obtain ⟨-, rfl, -⟩ := emitGroup_ok h
  exact pbyteTake_cursorOk hc

theorem codeUnit_epcur {e e' : Enc} (h : codeUnit e = .ok e') : e'.epcur = e.epcur := by
  obtain ⟨-, g, -, rfl⟩ | ⟨-, g, -, rfl⟩ := codeUnit_ok h <;> rfl

theorem emitUnit_cursorOk {f : Obf} {e e' : Enc} {out : List Byte} (hc : CursorOk f e.epcur)
    (h : emitUnit f e = .ok (e', out)) : CursorOk f e'.epcur := by
  obtain ⟨e1, h1, h2⟩ := emitUnit_ok h
  rw [← codeUnit_epcur h1] at hc
  obtain ⟨-, h3⟩ | ⟨-, -, rfl⟩ := countUnit_ok h2
  · exact emitGroup_cursorOk hc h3
  · exact hc

theorem start_epcur {e e' : Enc} (h : start e = .ok e') : e'.epcur = e.epcur := by
  rw [start_frame h]

theorem consume_epcur {c : Byte} {e e' : Enc} (h : consume c e = .ok e') : e'.epcur = e.epcur := by
  obtain ⟨t, m, t', -, -, rfl⟩ := consume_ok h
  rfl

theorem advanceEmptyTimes_epcur {n : Nat} {e e' : Enc} (h : advanceEmptyTimes n e = .ok e') :
    e'.epcur = e.epcur := by
  rw [advanceEmptyTimes_frame h]

theorem drainLoop_cursorOk {f : Obf} {n : Nat} {e e' : Enc} {out : List Byte} (hc : CursorOk f e.epcur)
    (h : drainLoop f n e = .ok (e', out)) : CursorOk f e'.epcur := by
  induction n generalizing e out with
  | zero => cases h; exact hc
  | succ n ih =>
    obtain ⟨-, rfl, -⟩ | ⟨-, e1, o1, e2, o2, h1, h2, h3, -⟩ := drainLoop_succ_ok h
    · exact hc
    · refine ih ?_ h3
      rw [advanceEmptyTimes_epcur h2]
      exact emitUnit_cursorOk hc h1

theorem drain_cursorOk {f : Obf} {e e' : Enc} {out : List Byte} (hc : CursorOk f e.epcur)
    (h : drain f e = .ok (e', out)) : CursorOk f e'.epcur := by
  obtain ⟨e1, o1, o2, h1, h2, -⟩ := drain_ok h
  have hc1 := drainLoop_cursorOk hc h1
  obtain ⟨-, h3⟩ | ⟨-, rfl, -⟩ := flushPartial_ok h2
  · exact emitGroup_cursorOk hc1 h3
  · exact hc1

theorem putFill_cursorOk {f : Obf} {b : Byte} {e e' : Enc} {out : List Byte} (hc : CursorOk f e.epcur)
    (h : putFill f b e = .ok (e', out)) : CursorOk f e'.epcur := by
  obtain ⟨-, rfl, -⟩ | ⟨-, e1, e2, h1, h2, rfl⟩ := putFill_ok h
  · exact hc
  · rw [← storeLookAhead_epcur b e, ← start_epcur h1] at hc
    exact emitUnit_cursorOk (e' := e2) hc h2

theorem putRun_cursorOk {f : Obf} {b : Byte} {e e' : Enc} {out : List Byte} (hc : CursorOk f e.epcur)
    (h : putRun f b e = .ok (e', out)) : CursorOk f e'.epcur := by
  obtain ⟨e1, h1, h2⟩ := putRun_ok h
  rw [← consume_epcur h1] at hc
  obtain ⟨-, rfl, -⟩ | ⟨-, e2, h3, rfl⟩ := h2
  · exact hc
  · exact emitUnit_cursorOk (e := { e1 with etodo := e1.etodo - 1#5 }) (e' := e2) hc h3

theorem finishFill_cursorOk {f : Obf} {e e' : Enc} {out : List Byte} (hc : CursorOk f e.epcur)
    (h : finishFill f e = .ok (e', out)) : CursorOk f e'.epcur := by
  obtain ⟨-, rfl, -⟩ | ⟨-, e1, h1, h2⟩ := finishFill_ok h
  · exact hc
  · rw [← start_epcur h1] at hc
    exact drain_cursorOk hc h2

theorem finishRun_cursorOk {f : Obf} {e e' : Enc} {out : List Byte} (hc : CursorOk f e.epcur)
    (h : finishRun f e = .ok (e', out)) : CursorOk f e'.epcur := by
  obtain ⟨e1, h1, h2⟩ := finishRun_ok h
  rw [← advanceEmptyTimes_epcur h1] at hc
  exact drain_cursorOk (e := { e1 with etodo := 0#5 }) hc h2

@[simp] theorem decCopy_dpcur (n : Nat) (src : Pos) (d : Dec) : (decCopy n src d).1.dpcur = d.dpcur := by
  rw [decCopy_frame]

/-- A byte step takes a password byte where it reads a control byte, and only there (41_lzss_decoder.md R152). -/
theorem decByte_dpcur (f : Obf) (b : Byte) (d : Dec) :
    (decByte f b d).1.dpcur = if d.dsub = .ctl then (pbyteTake f d.dpcur).2 else d.dpcur := by
  obtain ⟨hs, h⟩ | ⟨hs, -, h⟩ | ⟨hs, -, h⟩ | ⟨hs, h⟩ := decByte_cases f b d <;> rw [h, hs]
  · simp
  · simp
  · simp
  · simp

theorem decByte_cursorOk {f : Obf} {d : Dec} (b : Byte) (hc : CursorOk f d.dpcur) :
    CursorOk f (decByte f b d).1.dpcur := by
  rw [decByte_dpcur]
  split
  · exact pbyteTake_cursorOk hc
  · exact hc

end Sys2Proof.Machine
end

section
/-! The password's ranges (10_state.md R31, R39, R42; 42_obfuscation.md R180), kept by every command and every
step. -/

namespace Sys2Proof.Machine

/-- What every input keeps, every step keeps: the four ways a step goes, packaged once. -/
theorem step_keeps {P : State → Prop}
    (take : ∀ (s : State) (rest : List Input), P s → P { s with pending := rest })
    (reset : ∀ s : State, P s → P s.powerOnReset)
    (command : ∀ (i : Instr) (s t : State), P s → exec i s = .next t → P t)
    (reject : ∀ (e : DecodeError) (s : State), P s → P (rejectWord e s))
    {s t : State} (hs : P s) (h : step s = .next t) : P t := by
  obtain ⟨-, rfl⟩ | ⟨rest, -, rfl⟩ | ⟨w, rest, i, -, -, hx⟩ | ⟨w, rest, e, -, -, rfl⟩ := step_next h
  · exact hs
  · exact reset _ (take s rest hs)
  · exact command i _ t (take s rest hs) hx
  · exact reject e _ (take s rest hs)

theorem PasswordOk.pwdMax_pos {s : State} (h : PasswordOk s) : 1 ≤ s.cfg.pwdMax.toNat := h.1

theorem PasswordOk.encCursor {s : State} (h : PasswordOk s) : CursorOk s.obf s.enc.epcur := by
  obtain ⟨-, -, -, -, henc, -⟩ := h
  exact henc

theorem PasswordOk.decCursor {s : State} (h : PasswordOk s) : CursorOk s.obf s.dec.dpcur := by
  obtain ⟨-, -, -, -, -, hdec⟩ := h
  exact hdec

/-- With the parameter and the password unchanged, only the cursors are left to check. -/
theorem PasswordOk.of_cursors {s t : State} (hs : PasswordOk s) (hcfg : t.cfg = s.cfg) (hobf : t.obf = s.obf)
    (henc : CursorOk s.obf t.enc.epcur) (hdec : CursorOk s.obf t.dec.dpcur) : PasswordOk t := by
  obtain ⟨hmax, hlen, hset, hclear, -, -⟩ := hs
  unfold PasswordOk
  rw [hcfg, hobf]
  exact ⟨hmax, hlen, hset, hclear, henc, hdec⟩

/-- The empty password with both cursors 0 is in range. -/
theorem passwordOk_of_empty {t : State} (hmax : 1 ≤ t.cfg.pwdMax.toNat) (hobf : t.obf = Obf.initial)
    (henc : t.enc.epcur = 0#8) (hdec : t.dec.dpcur = 0#8) : PasswordOk t := by
  unfold PasswordOk
  rw [hobf, henc, hdec]
  exact ⟨hmax, Nat.zero_le _, fun i hi => absurd hi (Nat.not_lt_zero i), fun i _ => Obf.initial_byte i,
    cursorOk_zero _, cursorOk_zero _⟩

theorem Obf.append_byte (f : Obf) (b : Byte) (i : Nat) :
    (f.append b).byte i = if i = f.plen.toNat then b else f.byte i := Memory.read_write ..

/-- PLEN below 255 grows by one; it does not wrap. -/
theorem Obf.append_plen_toNat {f : Obf} (h : f.plen.toNat < 255) (b : Byte) :
    (f.append b).plen.toNat = f.plen.toNat + 1 := by
  rw [Obf.append_plen, BitVec.toNat_add, BitVec.toNat_ofNat]
  omega

/-- A cursor in range stays in range when the password grows. -/
theorem CursorOk.append {f : Obf} {cur : BitVec 8} (hc : CursorOk f cur) (hlen : f.plen.toNat < 255) (b : Byte) :
    CursorOk (f.append b) cur := by
  have hgrow := Obf.append_plen_toNat hlen b
  obtain ⟨hzero, hlt⟩ := hc
  refine ⟨fun h0 => ?_, fun _ => ?_⟩
  · rw [h0] at hgrow
    exact absurd hgrow (Nat.succ_ne_zero _).symm
  · by_cases h0 : f.plen = 0#8
    · rw [hzero h0, hgrow]; exact Nat.succ_pos _
    · have := hlt h0; omega

/-- A nonzero byte appended to a password that is not full keeps the ranges (42_obfuscation.md R184). -/
theorem PasswordOk.append {s : State} (hs : PasswordOk s) {b : Byte} (hb : b ≠ 0#8)
    (hroom : s.obf.plen < s.cfg.pwdMax) : PasswordOk { s with obf := s.obf.append b } := by
  obtain ⟨hmax, -, hset, hclear, henc, hdec⟩ := hs
  have hroom : s.obf.plen.toNat < s.cfg.pwdMax.toNat := BitVec.lt_def.1 hroom
  have hlen : s.obf.plen.toNat < 255 := by have := s.cfg.pwdMax.isLt; omega
  have hgrow := Obf.append_plen_toNat hlen b
  refine ⟨hmax, ?_, fun i hi => ?_, fun i hi => ?_, henc.append hlen b, hdec.append hlen b⟩
  · show (s.obf.append b).plen.toNat ≤ s.cfg.pwdMax.toNat
    omega
  · show (s.obf.append b).byte i ≠ 0#8
    have hi : i < (s.obf.append b).plen.toNat := hi
    rw [Obf.append_byte]
    split
    · exact hb
    · exact hset i (by omega)
  · show (s.obf.append b).byte i = 0#8
    have hi : (s.obf.append b).plen.toNat ≤ i := hi
    rw [Obf.append_byte, if_neg (by omega)]
    exact hclear i (by omega)

section
variable {s t : State}

theorem execEncPut_keeps_passwordOk {b : Byte} (hs : PasswordOk s) (h : execEncPut b s = .next t) :
    PasswordOk t := by
  obtain ⟨-, rfl⟩ | ⟨-, rfl⟩ | ⟨e, out, he, rfl⟩ := execEncPut_next h
  · exact hs
  · exact hs
  · have hc : CursorOk s.obf e.epcur := by
      obtain ⟨-, he⟩ | ⟨-, he⟩ := he
      · exact putFill_cursorOk hs.encCursor he
      · exact putRun_cursorOk hs.encCursor he
    exact hs.of_cursors rfl rfl hc hs.decCursor

theorem execEncFinish_keeps_passwordOk (hs : PasswordOk s) (h : execEncFinish s = .next t) : PasswordOk t := by
  obtain ⟨-, rfl⟩ | ⟨-, rfl⟩ | ⟨e, out, he, rfl⟩ := execEncFinish_next h
  · exact hs
  · exact hs
  · have hc : CursorOk s.obf e.epcur := by
      obtain ⟨-, he⟩ | ⟨-, he⟩ := he
      · exact finishFill_cursorOk hs.encCursor he
      · exact finishRun_cursorOk hs.encCursor he
    exact hs.of_cursors rfl rfl hc hs.decCursor

theorem execDecPut_keeps_passwordOk {b : Byte} (hs : PasswordOk s) (h : execDecPut b s = .next t) :
    PasswordOk t := by
  obtain ⟨-, rfl⟩ | ⟨-, rfl⟩ | ⟨-, rfl⟩ := execDecPut_next h
  · exact hs
  · exact hs
  · exact hs.of_cursors rfl rfl hs.encCursor (decByte_cursorOk b hs.decCursor)

theorem execDecFinish_keeps_passwordOk (hs : PasswordOk s) (h : execDecFinish s = .next t) : PasswordOk t := by
  obtain ⟨-, rfl⟩ | ⟨-, rfl⟩ | ⟨-, rfl⟩ := execDecFinish_next h <;> exact hs

theorem execPwdAppend_keeps_passwordOk {b : Byte} (hs : PasswordOk s) (h : execPwdAppend b s = .next t) :
    PasswordOk t := by
  obtain ⟨-, rfl⟩ | ⟨-, -, rfl⟩ | ⟨hb, hroom, rfl⟩ := execPwdAppend_next h
  · exact hs
  · exact hs
  · exact hs.append hb hroom

theorem execRdreg_keeps_passwordOk {b : Byte} (hs : PasswordOk s) (h : execRdreg b s = .next t) :
    PasswordOk t := by
  obtain ⟨v, -, rfl⟩ | ⟨-, rfl⟩ := execRdreg_next h <;> exact hs

end

theorem exec_keeps_passwordOk (i : Instr) (s t : State) (hs : PasswordOk s) (h : exec i s = .next t) :
    PasswordOk t := by
  cases i with
  | nop => cases h; exact hs
  | encReset => cases h; exact hs.of_cursors rfl rfl (cursorOk_zero _) hs.decCursor
  | encPut b => exact execEncPut_keeps_passwordOk hs h
  | encFinish => exact execEncFinish_keeps_passwordOk hs h
  | decReset => cases h; exact hs.of_cursors rfl rfl hs.encCursor (cursorOk_zero _)
  | decPut b => exact execDecPut_keeps_passwordOk hs h
  | decFinish => exact execDecFinish_keeps_passwordOk hs h
  | pwdClear => cases h; exact passwordOk_of_empty hs.pwdMax_pos rfl rfl rfl
  | pwdAppend b => exact execPwdAppend_keeps_passwordOk hs h
  | obf32 v => cases h; exact hs
  | rdreg b => exact execRdreg_keeps_passwordOk hs h

/-- Settles O50: the only writes to the password are PWD.CLEAR, PWD.APPEND and a reset, and a cursor moves by
PBYTE_TAKE or to 0. -/
theorem everyStepKeepsPasswordRanges : Obligations.EveryStepKeepsPasswordRanges :=
  fun _ _ hs h => step_keeps (P := PasswordOk) (fun _ _ hs => hs)
    (fun _ hs => passwordOk_of_empty hs.pwdMax_pos rfl rfl rfl) exec_keeps_passwordOk (fun _ _ hs => hs) hs h

end Sys2Proof.Machine
end

section
/-! The reset state and CMDERR: no command clears it (10_state.md R57, 60_exceptions.md R222). -/

namespace Sys2Proof.Machine

/-- A command keeps CMDERR or sets it. -/
theorem exec_cmderr {i : Instr} {s t : State} (h : exec i s = .next t) :
    t.cmderr = s.cmderr ∨ t.cmderr = true := by
  cases i with
  | nop => cases h; exact .inl rfl
  | encReset => cases h; exact .inl rfl
  | encPut b => obtain ⟨-, rfl⟩ | ⟨-, rfl⟩ | ⟨e, out, -, rfl⟩ := execEncPut_next h <;> exact .inl rfl
  | encFinish => obtain ⟨-, rfl⟩ | ⟨-, rfl⟩ | ⟨e, out, -, rfl⟩ := execEncFinish_next h <;> exact .inl rfl
  | decReset => cases h; exact .inl rfl
  | decPut b => obtain ⟨-, rfl⟩ | ⟨-, rfl⟩ | ⟨-, rfl⟩ := execDecPut_next h <;> exact .inl rfl
  | decFinish => obtain ⟨-, rfl⟩ | ⟨-, rfl⟩ | ⟨-, rfl⟩ := execDecFinish_next h <;> exact .inl rfl
  | pwdClear => cases h; exact .inl rfl
  | pwdAppend b =>
    obtain ⟨-, rfl⟩ | ⟨-, -, rfl⟩ | ⟨-, -, rfl⟩ := execPwdAppend_next h
    · exact .inr rfl
    · exact .inr rfl
    · exact .inl rfl
  | obf32 v => cases h; exact .inl rfl
  | rdreg b =>
    obtain ⟨v, -, rfl⟩ | ⟨-, rfl⟩ := execRdreg_next h
    · exact .inl rfl
    · exact .inr rfl

theorem exec_encReset_enc {s t : State} (h : exec .encReset s = .next t) : t.enc = Enc.initial := by
  cases h
  rfl

theorem exec_decReset_dec {s t : State} (h : exec .decReset s = .next t) : t.dec = Dec.initial := by
  cases h
  rfl

theorem exec_pwdClear_password {s t : State} (h : exec .pwdClear s = .next t) :
    t.obf = Obf.initial ∧ t.enc.epcur = 0#8 ∧ t.dec.dpcur = 0#8 := by
  cases h
  exact ⟨rfl, rfl, rfl⟩

/-- Settles O8: the arrays of the reset state list no entry, so each index reads as its reset value. -/
theorem resetValuesAreThoseOfTheTable : Obligations.ResetValuesAreThoseOfTheTable := by
  refine ⟨?encoder, ?decoder, ?others, fun _ _ => exec_encReset_enc, fun _ _ => exec_decReset_dec,
    fun _ _ => exec_pwdClear_password, fun i s t h hs => ?keepsCmderr⟩
  case encoder =>
    exact ⟨rfl, fun a _ => Memory.read_nil a, fun i => ⟨rfl, rfl, rfl⟩, rfl, rfl, rfl, rfl, rfl,
      fun k _ => Memory.read_nil k, rfl, rfl, rfl, rfl, rfl⟩
  case decoder =>
    exact ⟨rfl, rfl, fun a _ => Memory.read_nil a, rfl, rfl, rfl, rfl, rfl, rfl, rfl, rfl⟩
  case others => exact ⟨Obf.initial_byte, rfl, rfl⟩
  case keepsCmderr =>
    obtain hkept | hset := exec_cmderr h
    · rw [hkept, hs]
    · exact hset

end Sys2Proof.Machine
end

section
/-! The host-visible registers: what RDREG of a register answers, and the fields of the packed words
(10_state.md R44 to R53). -/

namespace Sys2Proof.Machine

open BitVec (extractLsb'_append_eq_of_le extractLsb'_append_eq_right extractLsb'_eq_self)

/-- RDREG of a register that can be read answers its value and changes nothing (43_control.md R201). -/
theorem exec_rdreg_eq {b : Byte} {s : State} {v : Word} (h : readRegister b s = some v) :
    exec (.rdreg b) s = .next { s with responses := s.responses ++ [⟨.ok, v, [], []⟩] } := by
  show execRdreg b s = _
  rw [execRdreg, h]
  rfl

/-- A one-bit field read as a bit. -/
theorem getLsbD_of_extractLsb'_one {v : Word} {k : Nat} {b : Bool} (h : v.extractLsb' k 1 = BitVec.ofBool b) :
    v.getLsbD k = b := by
  have hbit : (v.extractLsb' k 1).getLsbD 0 = v.getLsbD k := by simp
  rw [← hbit, h]
  cases b <;> rfl

/-! Each field of a packed word lies above the fields appended after it: those are skipped, and it is then the low
part of what is left. -/

theorem configWord_fields (c : Config) :
    (configWord c).extractLsb' 0 4 = 12#4 ∧ (configWord c).extractLsb' 4 4 = 0#4 ∧
    (configWord c).extractLsb' 8 5 = 18#5 ∧ (configWord c).extractLsb' 13 3 = 0#3 ∧
    (configWord c).extractLsb' 16 4 = 2#4 ∧ (configWord c).extractLsb' 20 4 = 0#4 ∧
    (configWord c).extractLsb' 24 8 = c.pwdMax := by
  unfold configWord
  refine ⟨?_, ?_, ?_, ?_, ?_, ?_, ?_⟩ <;> repeat rw [extractLsb'_append_eq_of_le (by decide)]
  iterate 6 exact extractLsb'_append_eq_right
  exact extractLsb'_eq_self

theorem statusWord_fields (s : State) :
    (statusWord s).extractLsb' 0 2 = s.enc.eph.bits ∧ (statusWord s).extractLsb' 2 2 = s.dec.dph.bits ∧
    (statusWord s).extractLsb' 4 2 = s.dec.dsub.bits ∧ (statusWord s).extractLsb' 6 2 = s.dec.dend.bits ∧
    (statusWord s).extractLsb' 8 1 = cmderrBit s.cmderr ∧ (statusWord s).extractLsb' 9 23 = 0#23 := by
  unfold statusWord
  refine ⟨?_, ?_, ?_, ?_, ?_, ?_⟩ <;> repeat rw [extractLsb'_append_eq_of_le (by decide)]
  iterate 5 exact extractLsb'_append_eq_right
  exact extractLsb'_eq_self

theorem encPtrWord_fields (e : Enc) :
    (encPtrWord e).extractLsb' 0 12 = e.r ∧ (encPtrWord e).extractLsb' 12 5 = e.elen ∧
    (encPtrWord e).extractLsb' 17 5 = e.etodo ∧ (encPtrWord e).extractLsb' 22 3 = e.group.gunits ∧
    (encPtrWord e).extractLsb' 25 7 = 0#7 := by
  unfold encPtrWord
  refine ⟨?_, ?_, ?_, ?_, ?_⟩ <;> repeat rw [extractLsb'_append_eq_of_le (by decide)]
  iterate 4 exact extractLsb'_append_eq_right
  exact extractLsb'_eq_self

theorem encMatchWord_fields (e : Enc) :
    (encMatchWord e).extractLsb' 0 12 = e.best.pos ∧ (encMatchWord e).extractLsb' 12 5 = e.best.len ∧
    (encMatchWord e).extractLsb' 17 15 = 0#15 := by
  unfold encMatchWord
  refine ⟨?_, ?_, ?_⟩ <;> repeat rw [extractLsb'_append_eq_of_le (by decide)]
  iterate 2 exact extractLsb'_append_eq_right
  exact extractLsb'_eq_self

theorem decPtrWord_fields (d : Dec) :
    (decPtrWord d).extractLsb' 0 12 = d.dr ∧ (decPtrWord d).extractLsb' 12 3 = d.dunit ∧
    (decPtrWord d).extractLsb' 15 1 = 0#1 ∧ (decPtrWord d).extractLsb' 16 8 = d.dctl ∧
    (decPtrWord d).extractLsb' 24 8 = d.dreflo := by
  unfold decPtrWord
  refine ⟨?_, ?_, ?_, ?_, ?_⟩ <;> repeat rw [extractLsb'_append_eq_of_le (by decide)]
  iterate 4 exact extractLsb'_append_eq_right
  exact extractLsb'_eq_self

theorem configWord_of_default {c : Config} (h : c.pwdMax = 255#8) : configWord c = 0xFF02120C#32 := by
  unfold configWord
  rw [h]
  rfl

/-- Settles O11, by the fields of CONFIG. -/
theorem rdregReadsIdAndConfig : Obligations.RdregReadsIdAndConfig := by
  intro s
  obtain ⟨hn, hn0, hf, hf0, ht, ht0, hp⟩ := configWord_fields s.cfg
  exact ⟨exec_rdreg_eq rfl, configWord s.cfg, exec_rdreg_eq rfl, hn, hn0, hf, hf0, ht, ht0, hp,
    configWord_of_default⟩

/-- Settles O12: the codes of the phases and of the end status are those of 10_state.md R21, R33, R34, R40. -/
theorem rdregReadsStatus : Obligations.RdregReadsStatus := by
  refine ⟨fun s => ?_, exec_rdreg_eq (s := State.reset) rfl⟩
  obtain ⟨heph, hdph, hdsub, hdend, herr, hzero⟩ := statusWord_fields s
  refine ⟨statusWord s, exec_rdreg_eq rfl, heph.trans ?_, hdph.trans ?_, hdsub.trans ?_, hdend.trans ?_,
    getLsbD_of_extractLsb'_one herr, hzero⟩
  · cases s.enc.eph <;> rfl
  · cases s.dec.dph <;> rfl
  · cases s.dec.dsub <;> rfl
  · cases s.dec.dend <;> rfl

/-- RDREG of an 8-bit register answers its value zero-extended (10_state.md R49). -/
theorem exec_rdreg_eq_ofNat {b x : Byte} {s : State} (h : readRegister b s = some (x.setWidth 32)) :
    exec (.rdreg b) s =
      .next { s with responses := s.responses ++ [⟨.ok, BitVec.ofNat 32 x.toNat, [], []⟩] } := by
  rw [BitVec.ofNat_toNat]
  exact exec_rdreg_eq h

/-- Settles O13: each register answers its state, the 8-bit ones zero-extended, and each reset value is 0. -/
theorem rdregReadsCountersAndPassword : Obligations.RdregReadsCountersAndPassword := by
  intro s
  refine ⟨exec_rdreg_eq rfl, exec_rdreg_eq rfl, exec_rdreg_eq rfl, exec_rdreg_eq rfl, exec_rdreg_eq_ofNat rfl,
    exec_rdreg_eq_ofNat rfl, exec_rdreg_eq_ofNat rfl, exec_rdreg_eq rfl, ?_⟩
  rintro rfl
  exact ⟨rfl, rfl, rfl, rfl, rfl, rfl, rfl, rfl⟩

/-- Settles O14, by the fields of the three pointer words. -/
theorem rdregReadsPointers : Obligations.RdregReadsPointers := by
  refine ⟨fun s => ?_, exec_rdreg_eq (s := State.reset) rfl, exec_rdreg_eq (s := State.reset) rfl,
    exec_rdreg_eq (s := State.reset) rfl⟩
  obtain ⟨hr, helen, hetodo, hgunits, hp0⟩ := encPtrWord_fields s.enc
  obtain ⟨hpos, hlen, hm0⟩ := encMatchWord_fields s.enc
  obtain ⟨hdr, hdunit, hd0, hdctl, hdreflo⟩ := decPtrWord_fields s.dec
  exact ⟨encPtrWord s.enc, encMatchWord s.enc, decPtrWord s.dec,
    exec_rdreg_eq rfl, hr, helen, hetodo, hgunits, hp0, exec_rdreg_eq rfl, hpos, hlen, hm0,
    exec_rdreg_eq rfl, hdr, hdunit, getLsbD_of_extractLsb'_one hd0, hdctl, hdreflo⟩

end Sys2Proof.Machine
end

section
/-! The canonical form of the encoder's arrays through its procedures: every store is an array write at an index
inside the array's range (20_memory.md R60; log 9). -/

namespace Sys2Proof.Machine

/-- The encoder's arrays are in their canonical form: its part of Canonical (canonical_iff). -/
structure Enc.ArraysCanonical (e : Enc) : Prop where
  ring : Memory.wf 4113 e.ebuf
  trees : e.links.Canonical
  buffer : Memory.wf 17 e.group.cbuf

/-- Only the arrays matter: the registers, counters and cursors beside them may differ. -/
theorem Enc.ArraysCanonical.of_eq {e e' : Enc} (hc : e.ArraysCanonical) (hring : e'.ebuf = e.ebuf)
    (htrees : e'.links = e.links) (hbuffer : e'.group.cbuf = e.group.cbuf) : e'.ArraysCanonical :=
  ⟨hring ▸ hc.ring, htrees ▸ hc.trees, hbuffer ▸ hc.buffer⟩

theorem Enc.arraysCanonical_initial : Enc.initial.ArraysCanonical :=
  ⟨Memory.wf_nil _, Links.canonical_empty, Memory.wf_nil _⟩

section
variable {f : Obf} {b : Byte} {e e' : Enc} {out : List Byte}

/-! ## The match finder -/

theorem insertNode_canonical {r : Pos} (hc : e.ArraysCanonical) (h : insertNode r e = .ok e') :
    e'.ArraysCanonical := by
  obtain ⟨t, m, ht, rfl⟩ := insertNode_ok h
  exact { hc with trees := insertLinks_canonical hc.trees ht }

theorem insertAll_canonical {ps : List Pos} (hc : e.ArraysCanonical) (h : insertAll ps e = .ok e') :
    e'.ArraysCanonical := by
  induction ps generalizing e with
  | nil => cases h; exact hc
  | cons p ps ih =>
    simp only [insertAll] at h
    split at h
    · cases h
    · next e1 h1 => exact ih (insertNode_canonical hc h1) h

theorem start_canonical (hc : e.ArraysCanonical) (h : start e = .ok e') : e'.ArraysCanonical := by
  rw [start_eq_insertAll] at h
  exact insertAll_canonical hc h

/-! ## Units and groups -/

theorem Group.addLiteral_wf {g g' : Group} (hg : Memory.wf 17 g.cbuf) (h : g.addLiteral b = .ok g') :
    Memory.wf 17 g'.cbuf := by
  obtain ⟨hcbp, rfl⟩ := Group.addLiteral_ok h
  exact Memory.wf_write (Memory.wf_write hg (by decide) _) hcbp _

theorem Group.addRef_wf {g g' : Group} {m : Match} (hg : Memory.wf 17 g.cbuf) (h : g.addRef m = .ok g') :
    Memory.wf 17 g'.cbuf := by
  obtain ⟨hcbp, hcbp', rfl⟩ := Group.addRef_ok h
  exact Memory.wf_write (Memory.wf_write hg hcbp _) hcbp' _

theorem Group.restart_wf {g : Group} (hg : Memory.wf 17 g.cbuf) : Memory.wf 17 g.restart.cbuf := by
  rw [Group.restart_cbuf]
  exact Memory.wf_write hg (by decide) _

theorem codeUnit_canonical (hc : e.ArraysCanonical) (h : codeUnit e = .ok e') : e'.ArraysCanonical := by
  obtain ⟨-, g, hg, rfl⟩ | ⟨-, g, hg, rfl⟩ := codeUnit_ok h
  · exact { hc with buffer := Group.addLiteral_wf hc.buffer hg }
  · exact { hc with buffer := Group.addRef_wf hc.buffer hg }

theorem emitGroup_canonical (hc : e.ArraysCanonical) (h : emitGroup f e = .ok (e', out)) :
    e'.ArraysCanonical := by
  obtain ⟨-, rfl, -⟩ := emitGroup_ok h
  exact { hc with buffer := Group.restart_wf hc.buffer }

theorem emitUnit_canonical (hc : e.ArraysCanonical) (h : emitUnit f e = .ok (e', out)) : e'.ArraysCanonical := by
  obtain ⟨e1, h1, h2⟩ := emitUnit_ok h
  have hc1 := codeUnit_canonical hc h1
  obtain ⟨-, h3⟩ | ⟨-, -, rfl⟩ := countUnit_ok h2
  · exact emitGroup_canonical hc1 h3
  · exact hc1.of_eq rfl rfl rfl

theorem flushPartial_canonical (hc : e.ArraysCanonical) (h : flushPartial f e = .ok (e', out)) :
    e'.ArraysCanonical := by
  obtain ⟨-, h1⟩ | ⟨-, rfl, -⟩ := flushPartial_ok h
  · exact emitGroup_canonical hc h1
  · exact hc

/-! ## The window -/

/-- A ring write and its mirror stay below N + F − 1, the size of EBUF (10_state.md R23). -/
theorem writeRing_wf {ring : Memory} (hring : Memory.wf 4113 ring) (s : Pos) (c : Byte) :
    Memory.wf 4113 (writeRing ring s c) := by
  have hs : s.toNat < 4096 := s.isLt
  have hwrite : Memory.wf 4113 (ring.write s.toNat c) := Memory.wf_write hring (by omega) c
  unfold writeRing
  split
  · next hmirror =>
    have hlow : s.toNat < 17 := hmirror
    exact Memory.wf_write hwrite (show s.toNat + 4096 < 4113 by omega) c
  · exact hwrite

theorem storeLookAhead_canonical (hc : e.ArraysCanonical) (b : Byte) : (storeLookAhead b e).ArraysCanonical := by
  have hindex : (e.r + e.elen.setWidth 12).toNat < 4096 := BitVec.isLt _
  exact { hc with ring := Memory.wf_write hc.ring (by omega) b }

theorem consume_canonical (hc : e.ArraysCanonical) (h : consume b e = .ok e') : e'.ArraysCanonical := by
  obtain ⟨t, m, t', ht, ht', rfl⟩ := consume_ok h
  exact { hc with
    ring := writeRing_wf hc.ring _ _
    trees := insertLinks_canonical (deleteLinks_canonical hc.trees ht) ht' }

theorem advanceEmpty_canonical (hc : e.ArraysCanonical) (h : advanceEmpty e = .ok e') : e'.ArraysCanonical := by
  obtain ⟨hframe, t, ht, hlinks⟩ := advanceEmpty_ok h
  have hct := deleteLinks_canonical hc.trees ht
  have htrees : e'.links.Canonical := by
    obtain ⟨-, hl, -⟩ | ⟨-, hi⟩ := hlinks
    · rw [hl]; exact hct
    · exact insertLinks_canonical hct hi
  rw [hframe]
  exact { hc with trees := htrees }

theorem advanceEmptyTimes_canonical {n : Nat} (hc : e.ArraysCanonical) (h : advanceEmptyTimes n e = .ok e') :
    e'.ArraysCanonical := by
  induction n generalizing e with
  | zero => cases h; exact hc
  | succ n ih =>
    simp only [advanceEmptyTimes] at h
    split at h
    · cases h
    · next e1 h1 => exact ih (advanceEmpty_canonical hc h1) h

/-! ## The commands' procedures -/

theorem drainLoop_canonical {n : Nat} (hc : e.ArraysCanonical) (h : drainLoop f n e = .ok (e', out)) :
    e'.ArraysCanonical := by
  induction n generalizing e out with
  | zero => cases h; exact hc
  | succ n ih =>
    obtain ⟨-, rfl, -⟩ | ⟨-, e1, o1, e2, o2, h1, h2, h3, -⟩ := drainLoop_succ_ok h
    · exact hc
    · exact ih (advanceEmptyTimes_canonical (emitUnit_canonical hc h1) h2) h3

theorem drain_canonical (hc : e.ArraysCanonical) (h : drain f e = .ok (e', out)) : e'.ArraysCanonical := by
  obtain ⟨e1, o1, o2, h1, h2, -⟩ := drain_ok h
  exact flushPartial_canonical (drainLoop_canonical hc h1) h2

theorem putFill_canonical (hc : e.ArraysCanonical) (h : putFill f b e = .ok (e', out)) : e'.ArraysCanonical := by
  have hstore := storeLookAhead_canonical hc b
  obtain ⟨-, rfl, -⟩ | ⟨-, e1, e2, h1, h2, rfl⟩ := putFill_ok h
  · exact hstore
  · exact (emitUnit_canonical (start_canonical hstore h1) h2).of_eq rfl rfl rfl

theorem putRun_canonical (hc : e.ArraysCanonical) (h : putRun f b e = .ok (e', out)) : e'.ArraysCanonical := by
  obtain ⟨e1, h1, h2⟩ := putRun_ok h
  have hc1 := consume_canonical hc h1
  obtain ⟨-, rfl, -⟩ | ⟨-, e2, h3, rfl⟩ := h2
  · exact hc1.of_eq rfl rfl rfl
  · have hc1' : { e1 with etodo := e1.etodo - 1#5 }.ArraysCanonical := hc1.of_eq rfl rfl rfl
    exact (emitUnit_canonical hc1' h3).of_eq rfl rfl rfl

theorem finishFill_canonical (hc : e.ArraysCanonical) (h : finishFill f e = .ok (e', out)) :
    e'.ArraysCanonical := by
  obtain ⟨-, rfl, -⟩ | ⟨-, e1, h1, h2⟩ := finishFill_ok h
  · exact hc
  · exact drain_canonical (start_canonical hc h1) h2

theorem finishRun_canonical (hc : e.ArraysCanonical) (h : finishRun f e = .ok (e', out)) : e'.ArraysCanonical := by
  obtain ⟨e1, h1, h2⟩ := finishRun_ok h
  have hc1 : { e1 with etodo := 0#5 }.ArraysCanonical := (advanceEmptyTimes_canonical hc h1).of_eq rfl rfl rfl
  exact drain_canonical hc1 h2

end

end Sys2Proof.Machine
end

section
/-! The canonical form of all seven arrays (20_memory.md R60; log 9), kept by every command and every step. -/

namespace Sys2Proof.Machine

/-- The arrays are those of the encoder, the decoder's ring and the password. -/
theorem canonical_iff {s : State} : Canonical s ↔
    s.enc.ArraysCanonical ∧ Memory.wf 4096 s.dec.dbuf ∧ Memory.wf s.cfg.pwdMax.toNat s.obf.pwd := by
  constructor
  · rintro ⟨hring, hlson, hrson, hdad, hbuffer, hdec, hpwd⟩
    exact ⟨⟨hring, ⟨hlson, hrson, hdad⟩, hbuffer⟩, hdec, hpwd⟩
  · rintro ⟨⟨hring, ⟨hlson, hrson, hdad⟩, hbuffer⟩, hdec, hpwd⟩
    exact ⟨hring, hlson, hrson, hdad, hbuffer, hdec, hpwd⟩

section
variable {s t : State}

/-- Where only the encoder changes, its arrays are left to check. -/
theorem Canonical.of_enc (hs : Canonical s) (henc : t.enc.ArraysCanonical) (hdec : t.dec = s.dec)
    (hobf : t.obf = s.obf) (hcfg : t.cfg = s.cfg) : Canonical t := by
  obtain ⟨-, hring, hpwd⟩ := canonical_iff.1 hs
  rw [canonical_iff, hdec, hobf, hcfg]
  exact ⟨henc, hring, hpwd⟩

/-- Where only the decoder changes, its ring is left to check. -/
theorem Canonical.of_dec (hs : Canonical s) (hdec : Memory.wf 4096 t.dec.dbuf) (henc : t.enc = s.enc)
    (hobf : t.obf = s.obf) (hcfg : t.cfg = s.cfg) : Canonical t := by
  obtain ⟨harrays, -, hpwd⟩ := canonical_iff.1 hs
  rw [canonical_iff, henc, hobf, hcfg]
  exact ⟨harrays, hdec, hpwd⟩

theorem execEncPut_keeps_canonical {b : Byte} (hs : Canonical s) (h : execEncPut b s = .next t) :
    Canonical t := by
  obtain ⟨-, rfl⟩ | ⟨-, rfl⟩ | ⟨e, out, he, rfl⟩ := execEncPut_next h
  · exact hs
  · exact hs
  · obtain ⟨harrays, -, -⟩ := canonical_iff.1 hs
    have hc : e.ArraysCanonical := by
      obtain ⟨-, he⟩ | ⟨-, he⟩ := he
      · exact putFill_canonical harrays he
      · exact putRun_canonical harrays he
    exact hs.of_enc (hc.of_eq rfl rfl rfl) rfl rfl rfl

theorem execEncFinish_keeps_canonical (hs : Canonical s) (h : execEncFinish s = .next t) : Canonical t := by
  obtain ⟨-, rfl⟩ | ⟨-, rfl⟩ | ⟨e, out, he, rfl⟩ := execEncFinish_next h
  · exact hs
  · exact hs
  · obtain ⟨harrays, -, -⟩ := canonical_iff.1 hs
    have hc : e.ArraysCanonical := by
      obtain ⟨-, he⟩ | ⟨-, he⟩ := he
      · exact finishFill_canonical harrays he
      · exact finishRun_canonical harrays he
    exact hs.of_enc (hc.of_eq rfl rfl rfl) rfl rfl rfl

theorem execDecPut_keeps_canonical {b : Byte} (hs : Canonical s) (h : execDecPut b s = .next t) :
    Canonical t := by
  obtain ⟨-, rfl⟩ | ⟨-, rfl⟩ | ⟨-, rfl⟩ := execDecPut_next h
  · exact hs
  · exact hs
  · obtain ⟨-, hring, -⟩ := canonical_iff.1 hs
    exact hs.of_dec (decByte_wf hring) rfl rfl rfl

theorem execDecFinish_keeps_canonical (hs : Canonical s) (h : execDecFinish s = .next t) : Canonical t := by
  obtain ⟨-, rfl⟩ | ⟨-, rfl⟩ | ⟨-, rfl⟩ := execDecFinish_next h <;> exact hs

/-- PWD.APPEND stores at PLEN only where PLEN is below PWD_MAX, the size of PWD (42_obfuscation.md R184). -/
theorem execPwdAppend_keeps_canonical {b : Byte} (hs : Canonical s) (h : execPwdAppend b s = .next t) :
    Canonical t := by
  obtain ⟨-, rfl⟩ | ⟨-, -, rfl⟩ | ⟨-, hroom, rfl⟩ := execPwdAppend_next h
  · exact hs
  · exact hs
  · obtain ⟨harrays, hring, hpwd⟩ := canonical_iff.1 hs
    exact canonical_iff.2 ⟨harrays, hring, Memory.wf_write hpwd (BitVec.lt_def.1 hroom) b⟩

theorem execPwdClear_keeps_canonical (hs : Canonical s) (h : execPwdClear s = .next t) : Canonical t := by
  cases h
  obtain ⟨harrays, hring, -⟩ := canonical_iff.1 hs
  exact canonical_iff.2 ⟨harrays.of_eq rfl rfl rfl, hring, Memory.wf_nil _⟩

theorem execRdreg_keeps_canonical {b : Byte} (hs : Canonical s) (h : execRdreg b s = .next t) :
    Canonical t := by
  obtain ⟨v, -, rfl⟩ | ⟨-, rfl⟩ := execRdreg_next h <;> exact hs

end

theorem exec_keeps_canonical (i : Instr) (s t : State) (hs : Canonical s) (h : exec i s = .next t) :
    Canonical t := by
  cases i with
  | nop => cases h; exact hs
  | encReset => cases h; exact hs.of_enc Enc.arraysCanonical_initial rfl rfl rfl
  | encPut b => exact execEncPut_keeps_canonical hs h
  | encFinish => exact execEncFinish_keeps_canonical hs h
  | decReset => cases h; exact hs.of_dec (Memory.wf_nil _) rfl rfl rfl
  | decPut b => exact execDecPut_keeps_canonical hs h
  | decFinish => exact execDecFinish_keeps_canonical hs h
  | pwdClear => exact execPwdClear_keeps_canonical hs h
  | pwdAppend b => exact execPwdAppend_keeps_canonical hs h
  | obf32 v => cases h; exact hs
  | rdreg b => exact execRdreg_keeps_canonical hs h

/-- Settles O49: every store of a command is an array write at an index inside its array, and a reset lists no
entry. -/
theorem everyStepKeepsArraysCanonical : Obligations.EveryStepKeepsArraysCanonical :=
  fun _ _ hs h => step_keeps (P := Canonical) (fun _ _ hs => hs) (fun s _ => canonical_powerOn s.cfg)
    exec_keeps_canonical (fun _ _ hs => hs) hs h

end Sys2Proof.Machine
end

section
/-! The decoder and the encoder: one equation for each row of the opcode map, the reading of a word by the format of
its opcode, and the statements that the two agree (30_encoding.md R80 to R85). -/

namespace Sys2Proof

open Laws.WordForm (opcode_append argument_append)

/-! ## The two fields of a word (30_encoding.md R80) -/

theorem opcodeOf_append (op : Byte) (arg : Word) : opcodeOf (op ++ arg) = op := opcode_append op arg

theorem argOf_append (op : Byte) (arg : Word) : argOf (op ++ arg) = arg := argument_append op arg

theorem opcodeOf_append_argOf (w : CommandWord) : opcodeOf w ++ argOf w = w := by
  have hjoin : opcodeOf w ++ argOf w = w.extractLsb' 0 40 :=
    BitVec.extractLsb'_append_extractLsb'_eq_extractLsb' rfl
  rw [hjoin, BitVec.extractLsb'_eq_self]

/-! ## The formats' checks of the argument (30_encoding.md R81, R84) -/

theorem decodeZ_of_ne_zero {arg : Word} (h : arg ≠ 0#32) (i : Instr) : decodeZ arg i = .error .rsvd := if_neg h

theorem decodeZ_ok {arg : Word} {i j : Instr} (h : decodeZ arg i = .ok j) : arg = 0#32 ∧ j = i := by
  unfold decodeZ at h
  split at h
  · next h0 => cases h; exact ⟨h0, rfl⟩
  · cases h

theorem decodeB_of_ne_zero {arg : Word} (h : arg.extractLsb' 8 24 ≠ 0#24) (f : Byte → Instr) :
    decodeB arg f = .error .rsvd := if_neg h

theorem decodeB_byte (b : Byte) (f : Byte → Instr) : decodeB (0#24 ++ b) f = .ok (f b) := by
  have hhigh : (0#24 ++ b : Word).extractLsb' 8 24 = 0#24 := BitVec.extractLsb'_append_eq_left
  have hlow : (0#24 ++ b : Word).extractLsb' 0 8 = b := BitVec.extractLsb'_append_eq_right
  rw [decodeB, if_pos hhigh, hlow]

/-- An argument with ARG[31:8] = 0 is its low byte. -/
theorem argument_eq_byte {arg : Word} (h : arg.extractLsb' 8 24 = 0#24) : arg = 0#24 ++ arg.extractLsb' 0 8 := by
  have hjoin : arg.extractLsb' 8 24 ++ arg.extractLsb' 0 8 = arg.extractLsb' 0 32 :=
    BitVec.extractLsb'_append_extractLsb'_eq_extractLsb' rfl
  rw [← h, hjoin, BitVec.extractLsb'_eq_self]

theorem decodeB_ok {arg : Word} {f : Byte → Instr} {j : Instr} (h : decodeB arg f = .ok j) :
    ∃ b : Byte, arg = 0#24 ++ b ∧ j = f b := by
  unfold decodeB at h
  split at h
  · next h0 => cases h; exact ⟨_, argument_eq_byte h0, rfl⟩
  · cases h

/-! ## The opcode map (30_encoding.md R82, R83) -/

section
variable (arg : Word)

theorem decode_nop : decode (0x00#8 ++ arg) = decodeZ arg .nop := by
  rw [decode, opcodeOf_append, argOf_append]; rfl

theorem decode_encReset : decode (0x01#8 ++ arg) = decodeZ arg .encReset := by
  rw [decode, opcodeOf_append, argOf_append]; rfl

theorem decode_encPut : decode (0x02#8 ++ arg) = decodeB arg .encPut := by
  rw [decode, opcodeOf_append, argOf_append]; rfl

theorem decode_encFinish : decode (0x03#8 ++ arg) = decodeZ arg .encFinish := by
  rw [decode, opcodeOf_append, argOf_append]; rfl

theorem decode_decReset : decode (0x08#8 ++ arg) = decodeZ arg .decReset := by
  rw [decode, opcodeOf_append, argOf_append]; rfl

theorem decode_decPut : decode (0x09#8 ++ arg) = decodeB arg .decPut := by
  rw [decode, opcodeOf_append, argOf_append]; rfl

theorem decode_decFinish : decode (0x0A#8 ++ arg) = decodeZ arg .decFinish := by
  rw [decode, opcodeOf_append, argOf_append]; rfl

theorem decode_pwdClear : decode (0x10#8 ++ arg) = decodeZ arg .pwdClear := by
  rw [decode, opcodeOf_append, argOf_append]; rfl

theorem decode_pwdAppend : decode (0x11#8 ++ arg) = decodeB arg .pwdAppend := by
  rw [decode, opcodeOf_append, argOf_append]; rfl

theorem decode_obf32 : decode (0x12#8 ++ arg) = .ok (.obf32 arg) := by
  rw [decode, opcodeOf_append, argOf_append]; rfl

theorem decode_rdreg : decode (0x20#8 ++ arg) = decodeB arg .rdreg := by
  rw [decode, opcodeOf_append, argOf_append]; rfl

theorem decode_of_reserved {op : Byte} (h : Format.ofOpcode op = none) : decode (op ++ arg) = .error .illop := by
  have hop : Format.ofOpcode (BitVec.ofNat 8 op.toNat) = none := by simpa using h
  rw [decode, opcodeOf_append]
  split
  case h_12 => rfl
  all_goals
    next hval => rw [hval] at hop; cases hop

end

/-! ## The formats of the opcodes (30_encoding.md R81 to R83) -/

theorem ofOpcode_eq_z_iff {op : Byte} :
    Format.ofOpcode op = some .z ↔ op ∈ [0x00#8, 0x01#8, 0x03#8, 0x08#8, 0x0A#8, 0x10#8] := by
  revert op; decide

theorem ofOpcode_eq_b_iff {op : Byte} :
    Format.ofOpcode op = some .b ↔ op ∈ [0x02#8, 0x09#8, 0x11#8, 0x20#8] := by
  revert op; decide

theorem ofOpcode_eq_w_iff {op : Byte} : Format.ofOpcode op = some .w ↔ op = 0x12#8 := by
  revert op; decide

theorem ofOpcode_eq_none_iff {op : Byte} : Format.ofOpcode op = none ↔ op ∉
    [0x00#8, 0x01#8, 0x02#8, 0x03#8, 0x08#8, 0x09#8, 0x0A#8, 0x10#8, 0x11#8, 0x12#8, 0x20#8] := by
  revert op; decide

/-- No opcode of the map is above 0x20. -/
theorem ofOpcode_eq_none_of_gt {op : Byte} (h : 0x20#8 < op) : Format.ofOpcode op = none := by
  revert op; decide

/-- 245 opcodes are reserved: 22 of those up to 0x20, and all 223 above (30_encoding.md R83). -/
theorem length_reserved_opcodes :
    ((List.range 256).filter (fun n => (Format.ofOpcode (BitVec.ofNat 8 n)).isNone)).length = 245 := by
  have hlow : ((List.range 33).filter (fun n => (Format.ofOpcode (BitVec.ofNat 8 n)).isNone)).length = 22 := by
    decide
  have hhigh : ∀ n ∈ List.range' 33 223, (Format.ofOpcode (BitVec.ofNat 8 n)).isNone = true := by
    intro n hn
    obtain ⟨hge, hlt⟩ := List.mem_range'_1.1 hn
    have hgt : 0x20#8 < BitVec.ofNat 8 n := by
      simp only [BitVec.lt_def, BitVec.toNat_ofNat]
      omega
    rw [ofOpcode_eq_none_of_gt hgt, Option.isNone_none]
  have hsplit : List.range 256 = List.range 33 ++ List.range' 33 223 := by
    rw [List.range_eq_range', List.range_eq_range', List.range'_append_1]
  rw [hsplit, List.filter_append, List.length_append, hlow, List.filter_eq_self.2 hhigh, List.length_range']
/-- A format Z opcode has one command, whose word carries the argument 0. -/
theorem decode_of_format_z {op : Byte} (h : Format.ofOpcode op = some .z) :
    ∃ i, encode i = encodeZ op ∧ ∀ arg, decode (op ++ arg) = decodeZ arg i := by
  have hop := ofOpcode_eq_z_iff.1 h
  simp only [List.mem_cons, List.not_mem_nil, or_false] at hop
  obtain rfl | rfl | rfl | rfl | rfl | rfl := hop
  · exact ⟨.nop, rfl, decode_nop⟩
  · exact ⟨.encReset, rfl, decode_encReset⟩
  · exact ⟨.encFinish, rfl, decode_encFinish⟩
  · exact ⟨.decReset, rfl, decode_decReset⟩
  · exact ⟨.decFinish, rfl, decode_decFinish⟩
  · exact ⟨.pwdClear, rfl, decode_pwdClear⟩

/-- A format B opcode has one command for each byte. -/
theorem decode_of_format_b {op : Byte} (h : Format.ofOpcode op = some .b) :
    ∃ f : Byte → Instr, (∀ b, encode (f b) = encodeB op b) ∧ ∀ arg, decode (op ++ arg) = decodeB arg f := by
  have hop := ofOpcode_eq_b_iff.1 h
  simp only [List.mem_cons, List.not_mem_nil, or_false] at hop
  obtain rfl | rfl | rfl | rfl := hop
  · exact ⟨.encPut, fun _ => rfl, decode_encPut⟩
  · exact ⟨.decPut, fun _ => rfl, decode_decPut⟩
  · exact ⟨.pwdAppend, fun _ => rfl, decode_pwdAppend⟩
  · exact ⟨.rdreg, fun _ => rfl, decode_rdreg⟩

/-! ## Decode and encode agree -/

theorem decode_encodeZ {op : Byte} {i : Instr} (h : ∀ arg, decode (op ++ arg) = decodeZ arg i) :
    decode (encodeZ op) = .ok i := h 0#32

theorem decode_encodeB {op : Byte} {f : Byte → Instr} (h : ∀ arg, decode (op ++ arg) = decodeB arg f) (b : Byte) :
    decode (encodeB op b) = .ok (f b) := (h _).trans (decodeB_byte b f)

theorem decode_encode (i : Instr) : decode (encode i) = .ok i := by
  cases i with
  | nop => exact decode_encodeZ decode_nop
  | encReset => exact decode_encodeZ decode_encReset
  | encPut b => exact decode_encodeB decode_encPut b
  | encFinish => exact decode_encodeZ decode_encFinish
  | decReset => exact decode_encodeZ decode_decReset
  | decPut b => exact decode_encodeB decode_decPut b
  | decFinish => exact decode_encodeZ decode_decFinish
  | pwdClear => exact decode_encodeZ decode_pwdClear
  | pwdAppend b => exact decode_encodeB decode_pwdAppend b
  | obf32 v => exact decode_obf32 v
  | rdreg b => exact decode_encodeB decode_rdreg b

/-- Settles O1, by the equation of each row of the opcode map. -/
theorem decodeOfEncodeIsTheCommand : Obligations.DecodeOfEncodeIsTheCommand := decode_encode

theorem encode_of_decode_append {op : Byte} {arg : Word} {i : Instr} (h : decode (op ++ arg) = .ok i) :
    encode i = op ++ arg := by
  cases hf : Format.ofOpcode op with
  | none =>
    rw [decode_of_reserved arg hf] at h
    cases h
  | some fmt =>
    cases fmt with
    | z =>
      obtain ⟨j, henc, hdec⟩ := decode_of_format_z hf
      rw [hdec] at h
      obtain ⟨rfl, rfl⟩ := decodeZ_ok h
      exact henc
    | b =>
      obtain ⟨f, henc, hdec⟩ := decode_of_format_b hf
      rw [hdec] at h
      obtain ⟨b, rfl, rfl⟩ := decodeB_ok h
      exact henc b
    | w =>
      obtain rfl := ofOpcode_eq_w_iff.1 hf
      rw [decode_obf32] at h
      cases h
      rfl

theorem encode_of_decode {w : CommandWord} {i : Instr} (h : decode w = .ok i) : encode i = w := by
  rw [← opcodeOf_append_argOf w] at h ⊢
  exact encode_of_decode_append h

theorem wellFormed_encode (i : Instr) : CommandWord.wellFormed (encode i) = true := by
  cases i with
  | nop => exact Laws.WordForm.nop
  | encReset => exact Laws.WordForm.encReset
  | encPut b => exact Laws.WordForm.encPut b
  | encFinish => exact Laws.WordForm.encFinish
  | decReset => exact Laws.WordForm.decReset
  | decPut b => exact Laws.WordForm.decPut b
  | decFinish => exact Laws.WordForm.decFinish
  | pwdClear => exact Laws.WordForm.pwdClear
  | pwdAppend b => exact Laws.WordForm.pwdAppend b
  | obf32 v => exact Laws.WordForm.obf32 v
  | rdreg b => exact Laws.WordForm.rdreg b

/-- The checks of R83 and R84 on a word given by its two fields. -/
theorem wellFormed_append {op : Byte} {arg : Word} (h : CommandWord.wellFormed (op ++ arg) = true) :
    ∃ fmt, Format.ofOpcode op = some fmt ∧ arg &&& fmt.reservedMask = 0#32 := by
  unfold CommandWord.wellFormed CommandWord.hasOpcode CommandWord.reservedClear at h
  rw [opcode_append, argument_append] at h
  cases hf : Format.ofOpcode op with
  | none => rw [hf] at h; cases h
  | some fmt => rw [hf] at h; exact ⟨fmt, rfl, of_decide_eq_true h⟩

/-- ARG[31:8] is 0 where the mask of format B finds no bit. -/
theorem reserved_zero_of_mask {arg : Word} (h : arg &&& 0xFFFFFF00#32 = 0#32) : arg.extractLsb' 8 24 = 0#24 := by
  have hmask : (0xFFFFFF00#32).extractLsb' 8 24 = BitVec.allOnes 24 := by decide
  have hand := congrArg (BitVec.extractLsb' 8 24) h
  rwa [BitVec.extractLsb'_and, hmask, BitVec.and_allOnes] at hand

theorem decode_of_wellFormed {op : Byte} {arg : Word} (h : CommandWord.wellFormed (op ++ arg) = true) :
    ∃ i, decode (op ++ arg) = .ok i := by
  obtain ⟨fmt, hf, hmask⟩ := wellFormed_append h
  cases fmt with
  | z =>
    obtain ⟨i, -, hdec⟩ := decode_of_format_z hf
    have hzero : arg = 0#32 := by rwa [← BitVec.and_allOnes (x := arg)]
    exact ⟨i, by rw [hdec, hzero]; rfl⟩
  | b =>
    obtain ⟨f, -, hdec⟩ := decode_of_format_b hf
    exact ⟨_, by rw [hdec, argument_eq_byte (reserved_zero_of_mask hmask), decodeB_byte]⟩
  | w =>
    obtain rfl := ofOpcode_eq_w_iff.1 hf
    exact ⟨_, decode_obf32 arg⟩

/-- Settles O2: a word read as a command is that command's encoding, which passes the checks, and a word that passes
them is read by its opcode's format. -/
theorem commandWordsHaveOneReading : Obligations.CommandWordsHaveOneReading := by
  refine ⟨fun w i => encode_of_decode, fun w => ⟨?checked, fun h => ?read⟩⟩
  case checked =>
    rintro ⟨i, hi⟩
    rw [← encode_of_decode hi]
    exact wellFormed_encode i
  case read =>
    rw [← opcodeOf_append_argOf w] at h ⊢
    exact decode_of_wellFormed h

end Sys2Proof
end

section
/-! What a step does with a command word: it performs the command the word decodes to, or answers a word that is no
command with ILLOP or RSVD (30_encoding.md R83 to R85). -/

namespace Sys2Proof.Machine

section
variable {s : State} {w : CommandWord} {rest : List Input}

theorem step_of_decode_ok {i : Instr} (hp : s.pending = .command w :: rest) (h : decode w = .ok i) :
    step s = exec i { s with pending := rest } := by
  rw [step, takeInput_cons hp]
  simp only [h]

theorem step_of_decode_error {e : DecodeError} (hp : s.pending = .command w :: rest) (h : decode w = .error e) :
    step s = .next { s with pending := rest, cmderr := true,
                            responses := s.responses ++ [⟨DecodeError.code e, 0#32, [], []⟩] } := by
  rw [step, takeInput_cons hp]
  simp only [h]
  rfl

end

/-- Settles O4. -/
theorem stepPerformsTheDecodedCommand : Obligations.StepPerformsTheDecodedCommand :=
  fun _ _ _ _ => step_of_decode_ok

/-- Settles O5: the decoder refuses every opcode outside the map before it looks at the argument. -/
theorem reservedOpcodeAnswersIllop : Obligations.ReservedOpcodeAnswersIllop := by
  refine ⟨fun s w rest hp hop => step_of_decode_error (e := .illop) hp ?_, length_reserved_opcodes⟩
  rw [← opcodeOf_append_argOf w]
  exact decode_of_reserved _ (ofOpcode_eq_none_iff.2 hop)

theorem answersRsvd_of_decode {op : Byte} {arg : Word} (h : decode (op ++ arg) = .error .rsvd) :
    AnswersRsvd op arg := fun _ _ hp => step_of_decode_error (e := .rsvd) hp h

/-- Settles O6, by the argument check of each format. -/
theorem reservedArgumentAnswersRsvd : Obligations.ReservedArgumentAnswersRsvd := by
  refine ⟨fun op arg hop harg => ?formatZ, fun op arg hop harg => ?formatB, decode_obf32⟩
  case formatZ =>
    obtain ⟨i, -, hdec⟩ := decode_of_format_z (ofOpcode_eq_z_iff.2 hop)
    exact answersRsvd_of_decode ((hdec arg).trans (decodeZ_of_ne_zero harg i))
  case formatB =>
    obtain ⟨f, -, hdec⟩ := decode_of_format_b (ofOpcode_eq_b_iff.2 hop)
    exact answersRsvd_of_decode ((hdec arg).trans (decodeB_of_ne_zero harg f))

end Sys2Proof.Machine
end

section
/-! PWD.SET: the password grows byte by byte (30_encoding.md R96, 42_obfuscation.md R183, R184). -/

namespace Sys2Proof.Machine

/-- The password is exactly these bytes, and the store is 0 after them (42_obfuscation.md R180). -/
structure Obf.Holds (f : Obf) (bytes : List Byte) : Prop where
  plen : f.plen.toNat = bytes.length
  byte : ∀ i : Nat, f.byte i = bytes.getD i 0#8

theorem Obf.holds_initial : Obf.initial.Holds [] := ⟨rfl, Obf.initial_byte⟩

theorem Obf.Holds.append {f : Obf} {bytes : List Byte} (h : f.Holds bytes) (hlen : bytes.length < 255) (b : Byte) :
    (f.append b).Holds (bytes ++ [b]) where
  plen := by
    rw [Obf.append_plen_toNat (h.plen.trans_lt hlen), h.plen, List.length_append, List.length_singleton]
  byte i := by
    rw [Obf.append_byte, h.plen, h.byte]
    obtain hlt | rfl | hgt := lt_trichotomy i bytes.length
    · rw [if_neg hlt.ne, List.getD_append _ _ _ _ hlt]
    · simp
    · rw [if_neg hgt.ne', List.getD_eq_default _ _ hgt.le, List.getD_eq_default]
      simpa using hgt

/-- PWD.APPEND of a nonzero byte where the password is not full (42_obfuscation.md R184). -/
theorem exec_pwdAppend_eq {s : State} {b : Byte} (hb : b ≠ 0#8) (hroom : s.obf.plen.toNat < s.cfg.pwdMax.toNat) :
    exec (.pwdAppend b) s = .next ({ s with obf := s.obf.append b }.respondOk 0#32) := by
  have hnotfull : ¬ s.cfg.pwdMax ≤ s.obf.plen := by rw [BitVec.le_def]; omega
  show execPwdAppend b s = _
  rw [execPwdAppend, if_neg hb, if_neg hnotfull]

theorem runCommands_cons {i : Instr} {rest : List Instr} {s t : State} (h : exec i s = .next t) :
    runCommands (i :: rest) s = runCommands rest t := by
  rw [runCommands, h]

/-- Appending nonzero bytes, none of which finds the password full, changes the password and the responses only. -/
theorem runCommands_pwdAppend {bytes loaded : List Byte} {s : State} (hs : s.obf.Holds loaded)
    (hroom : loaded.length + bytes.length ≤ s.cfg.pwdMax.toNat) (hbytes : ∀ b ∈ bytes, b ≠ 0#8) :
    ∃ f : Obf, f.Holds (loaded ++ bytes) ∧ runCommands (bytes.map .pwdAppend) s =
      .next { s with obf := f,
                     responses := s.responses ++ List.replicate bytes.length ⟨.ok, 0#32, [], []⟩ } := by
  induction bytes generalizing loaded s with
  | nil => exact ⟨s.obf, by simpa using hs, by simp [runCommands]⟩
  | cons b bytes ih =>
    obtain ⟨hb, hbytes⟩ := List.forall_mem_cons.1 hbytes
    rw [List.length_cons] at hroom
    have hmax := s.cfg.pwdMax.isLt
    have hplen := hs.plen
    obtain ⟨f, hf, hrun⟩ := ih (s := { s with obf := s.obf.append b }.respondOk 0#32)
      (hs.append (by omega) b)
      (by simp only [List.length_append, List.length_singleton, State.respondOk_cfg]; omega) hbytes
    refine ⟨f, by simpa using hf, ?_⟩
    rw [List.map_cons, runCommands_cons (exec_pwdAppend_eq hb (by omega)), hrun]
    simp [List.replicate_succ, State.respondOk, State.respond]

/-- PWD.CLEAR empties the password, zeroes both cursors and answers OK (42_obfuscation.md R183). -/
theorem exec_pwdClear_frame (s : State) : ∃ t : State, exec .pwdClear s = .next t ∧ t.obf = Obf.initial ∧
    t.enc = { s.enc with epcur := 0#8 } ∧ t.dec = { s.dec with dpcur := 0#8 } ∧ t.cmderr = s.cmderr ∧
    t.cfg = s.cfg ∧ t.responses = s.responses ++ [⟨.ok, 0#32, [], []⟩] :=
  ⟨_, rfl, rfl, rfl, rfl, rfl, rfl, rfl⟩

/-- Settles O23, by induction on the bytes from the empty password PWD.CLEAR leaves. -/
theorem pwdSetLoadsThePassword : Obligations.PwdSetLoadsThePassword := by
  intro bytes s hlen hbytes
  obtain ⟨t, hclear, hobf, henc, hdec, herr, hcfg, hresp⟩ := exec_pwdClear_frame s
  have hempty : t.obf.Holds [] := hobf ▸ Obf.holds_initial
  have hroom : ([] : List Byte).length + bytes.length ≤ t.cfg.pwdMax.toNat := by
    rw [hcfg, List.length_nil, Nat.zero_add]
    exact hlen
  obtain ⟨f, hf, hrun⟩ := runCommands_pwdAppend hempty hroom hbytes
  refine ⟨_, (runCommands_cons hclear).trans hrun, hf.plen, hf.byte, henc, hdec, herr, ?_⟩
  simp [hresp, List.replicate_succ]

end Sys2Proof.Machine
end

section
/-! The two bytes of a back-reference as numbers, and their round trip (30_encoding.md R90, R91). -/

namespace Sys2Proof.Machine

theorem refLow_toNat (pos : Pos) : (refLow pos).toNat = pos.toNat % 256 := by
  simp [refLow, BitVec.extractLsb'_toNat]

theorem refPos_toNat (b0 b1 : Byte) : (refPos b0 b1).toNat = b1.toNat / 16 * 256 + b0.toNat := by
  have h0 : b0.toNat < 2 ^ 8 := b0.isLt
  have h1 := b1.isLt
  unfold refPos
  rw [BitVec.toNat_append, ← Nat.shiftLeft_add_eq_or_of_lt h0, Nat.shiftLeft_eq, BitVec.extractLsb'_toNat,
    Nat.shiftRight_eq_div_pow]
  omega

theorem refLen_eq (b1 : Byte) : refLen b1 = b1.toNat % 16 + 3 := by
  simp [refLen, BitVec.extractLsb'_toNat]

/-- Settles O38: the bytes are the digits of the position and the length, and the reading puts them together. -/
theorem backReferenceBytesReadBack : Obligations.BackReferenceBytesReadBack := by
  refine ⟨fun pos len h3 h18 => ?_, fun b0 b1 => ⟨refPos_toNat b0 b1, refLen_eq b1⟩⟩
  have hhigh := refHigh_toNat pos len h3 h18
  have hpos : (refPos (refLow pos) (refHigh pos len)).toNat = pos.toNat := by
    rw [refPos_toNat, refLow_toNat, hhigh]
    omega
  have hlen : refLen (refHigh pos len) = len.toNat := by
    rw [refLen_eq, hhigh]
    omega
  exact ⟨refLow_toNat pos, hhigh, BitVec.eq_of_toNat_eq hpos, hlen⟩

end Sys2Proof.Machine
end

section
/-! What the assembler makes of an operand, format by format (30_encoding.md R95). -/

namespace Sys2Proof

/-! ## Operands that give a command -/

theorem operandValue_number {max n : Nat} (h : n ≤ max) : operandValue max (some (.number n)) = .ok n := if_pos h

theorem operandValue_number_of_gt {max n : Nat} (h : max < n) :
    operandValue max (some (.number n)) = .error .outOfRange := if_neg (by omega)

theorem isPrintable_iff {c : Char} : isPrintable c = true ↔ 0x20 ≤ c.toNat ∧ c.toNat ≤ 0x7E := by
  simp [isPrintable]

theorem operandValue_char (max : Nat) {c : Char} (h : 0x20 ≤ c.toNat ∧ c.toNat ≤ 0x7E) :
    operandValue max (some (.char c)) = .ok c.toNat := if_pos (isPrintable_iff.2 h)

theorem operandValue_char_of_not_printable (max : Nat) {c : Char} (h : c.toNat < 0x20 ∨ 0x7E < c.toNat) :
    operandValue max (some (.char c)) = .error .badOperand :=
  if_neg fun hp => by have := isPrintable_iff.1 hp; omega

section
variable {o : Option Operand}

theorem assembleB_ok {n : Nat} (h : operandValue 255 o = .ok n) (f : Byte → Instr) :
    assembleB f o = .ok (f (BitVec.ofNat 8 n)) := by rw [assembleB, h]

theorem assembleW_ok {n : Nat} (h : operandValue 0xFFFFFFFF o = .ok n) (f : Word → Instr) :
    assembleW f o = .ok (f (BitVec.ofNat 32 n)) := by rw [assembleW, h]

theorem assembleB_error {e : AsmError} (h : operandValue 255 o = .error e) (f : Byte → Instr) :
    assembleB f o = .error e := by rw [assembleB, h]

theorem assembleW_error {e : AsmError} (h : operandValue 0xFFFFFFFF o = .error e) (f : Word → Instr) :
    assembleW f o = .error e := by rw [assembleW, h]

end

theorem assembleB_number (f : Byte → Instr) (b : Byte) : assembleB f (some (.number b.toNat)) = .ok (f b) := by
  rw [assembleB_ok (operandValue_number (Nat.le_of_lt_succ b.isLt)), BitVec.ofNat_toNat, BitVec.setWidth_eq]

theorem assembleW_number (f : Word → Instr) (v : Word) : assembleW f (some (.number v.toNat)) = .ok (f v) := by
  rw [assembleW_ok (operandValue_number (Nat.le_of_lt_succ v.isLt)), BitVec.ofNat_toNat, BitVec.setWidth_eq]

/-- Every command can be written: its mnemonic, and its operand as a number. -/
theorem exists_assemble (i : Instr) : ∃ (m : Mnemonic) (o : Option Operand), assemble m o = .ok i := by
  cases i with
  | nop => exact ⟨.nop, none, rfl⟩
  | encReset => exact ⟨.encReset, none, rfl⟩
  | encPut b => exact ⟨.encPut, _, assembleB_number _ b⟩
  | encFinish => exact ⟨.encFinish, none, rfl⟩
  | decReset => exact ⟨.decReset, none, rfl⟩
  | decPut b => exact ⟨.decPut, _, assembleB_number _ b⟩
  | decFinish => exact ⟨.decFinish, none, rfl⟩
  | pwdClear => exact ⟨.pwdClear, none, rfl⟩
  | pwdAppend b => exact ⟨.pwdAppend, _, assembleB_number _ b⟩
  | obf32 v => exact ⟨.obf32, _, assembleW_number _ v⟩
  | rdreg b => exact ⟨.rdreg, some (.number b.toNat), assembleB_number _ b⟩

/-! ## Operands that are refused -/

section
variable {m : Mnemonic} {o : Option Operand} {e : AsmError}

theorem assemble_formatZ_some (hm : m ∈ [Mnemonic.nop, .encReset, .encFinish, .decReset, .decFinish, .pwdClear])
    (o : Operand) : assemble m (some o) = .error .unexpectedOperand := by
  simp only [List.mem_cons, List.not_mem_nil, or_false] at hm
  obtain rfl | rfl | rfl | rfl | rfl | rfl := hm <;> rfl

/-- On RDREG an operand that is no register name is that of any format B mnemonic. -/
theorem assemble_rdreg_eq (ho : ∀ r, o ≠ some (.reg r)) : assemble .rdreg o = assembleB .rdreg o := by
  cases o with
  | none => rfl
  | some x =>
    cases x with
    | number n => rfl
    | char c => rfl
    | reg r => exact absurd rfl (ho r)

theorem assemble_formatB_error (hm : m ∈ [Mnemonic.encPut, .decPut, .pwdAppend, .rdreg])
    (ho : ∀ r, o ≠ some (.reg r)) (h : operandValue 255 o = .error e) : assemble m o = .error e := by
  simp only [List.mem_cons, List.not_mem_nil, or_false] at hm
  obtain rfl | rfl | rfl | rfl := hm
  · exact assembleB_error h _
  · exact assembleB_error h _
  · exact assembleB_error h _
  · exact (assemble_rdreg_eq ho).trans (assembleB_error h _)

/-- A refusal that does not depend on the range is that of both formats with an operand. -/
theorem assemble_operand_error (hm : m ∈ [Mnemonic.encPut, .decPut, .pwdAppend, .obf32, .rdreg])
    (ho : ∀ r, o ≠ some (.reg r)) (h : ∀ max, operandValue max o = .error e) : assemble m o = .error e := by
  by_cases hw : m = .obf32
  · subst hw
    exact assembleW_error (h _) _
  · exact assemble_formatB_error (by simpa [hw] using hm) ho (h 255)

theorem assemble_register_error (hm : m ∈ [Mnemonic.encPut, .decPut, .pwdAppend, .obf32]) (r : RegName) :
    assemble m (some (.reg r)) = .error .registerNotAllowed := by
  simp only [List.mem_cons, List.not_mem_nil, or_false] at hm
  obtain rfl | rfl | rfl | rfl := hm <;> rfl

end

/-- Settles O59, one clause of 30_encoding.md R95 at a time. -/
theorem assemblerAcceptsExactlyTheOperandsOfTheFormat :
    Obligations.AssemblerAcceptsExactlyTheOperandsOfTheFormat := by
  refine ⟨exists_assemble, ⟨rfl, rfl, rfl, rfl, rfl, rfl⟩, fun m o hm => assemble_formatZ_some hm o,
    fun m hm => ?missing, fun m n hm hn => ?outOfByte, fun n hn => ?outOfWord,
    fun m r hm => assemble_register_error hm r, fun r => rfl, fun b => ?byte, assembleW_number _,
    fun c hlow hhigh => ?printable, fun m c hm hc => ?notPrintable⟩
  case missing => exact assemble_operand_error hm nofun fun _ => rfl
  case outOfByte => exact assemble_formatB_error hm nofun (operandValue_number_of_gt hn)
  case outOfWord => exact assembleW_error (operandValue_number_of_gt hn) _
  case byte => exact ⟨assembleB_number _ b, assembleB_number _ b, assembleB_number _ b, assembleB_number _ b⟩
  case printable =>
    have hvalue := fun max => operandValue_char max ⟨hlow, hhigh⟩
    exact ⟨assembleB_ok (hvalue _) _, assembleB_ok (hvalue _) _, assembleB_ok (hvalue _) _,
      assembleB_ok (hvalue _) _, assembleW_ok (hvalue _) _⟩
  case notPrintable =>
    exact assemble_operand_error hm nofun fun max => operandValue_char_of_not_printable max hc

end Sys2Proof
end

section
/-! Keys (40_lzss_encoder.md R101, R102): what the comparison of two keys says about their bytes, and the order of
keys byte by byte. -/

namespace Sys2Proof.Machine

/-! ## The comparison loop -/

theorem compareFrom_agrees (ring : Memory) (r p left i : Nat) {j : Nat} (hij : i ≤ j)
    (hj : j < (compareFrom ring r p left i).1) : ring.read (r + j) = ring.read (p + j) := by
  induction left generalizing i with
  | zero => exact absurd hj (not_lt.2 hij)
  | succ left ih =>
    simp only [compareFrom] at hj
    split at hj
    · exact absurd hj (not_lt.2 hij)
    · next heq =>
      obtain rfl | hlt := hij.eq_or_lt
      · have hzero : ((ring.read (r + i)).toNat : Int) - (ring.read (p + i)).toNat = 0 := not_not.1 heq
        exact BitVec.eq_of_toNat_eq (by omega)
      · exact ih (i + 1) hlt hj

theorem compareFrom_differs (ring : Memory) (r p left i : Nat) (h : (compareFrom ring r p left i).1 < i + left) :
    (compareFrom ring r p left i).2 ≠ 0 ∧ (compareFrom ring r p left i).2 =
      ((ring.read (r + (compareFrom ring r p left i).1)).toNat : Int) -
        (ring.read (p + (compareFrom ring r p left i).1)).toNat := by
  induction left generalizing i with
  | zero => exact absurd h (Nat.lt_irrefl i)
  | succ left ih =>
    by_cases heq : ((ring.read (r + i)).toNat : Int) - (ring.read (p + i)).toNat = 0
    · have hstep : compareFrom ring r p (left + 1) i = compareFrom ring r p left (i + 1) :=
        if_neg (not_not.2 heq)
      rw [hstep] at h ⊢
      exact ih (i + 1) (by omega)
    · have hstep : compareFrom ring r p (left + 1) i =
          (i, ((ring.read (r + i)).toNat : Int) - (ring.read (p + i)).toNat) := if_pos heq
      rw [hstep]
      exact ⟨heq, rfl⟩

theorem compareFrom_end (ring : Memory) (r p left i : Nat) (h : (compareFrom ring r p left i).1 = i + left) :
    (compareFrom ring r p left i).2 = 0 := by
  induction left generalizing i with
  | zero => rfl
  | succ left ih =>
    simp only [compareFrom] at h ⊢
    split at h
    · simp at h
    · next heq => rw [if_neg heq]; exact ih (i + 1) (by omega)

section
variable {ring : Memory} {r p q : Pos}

theorem compareKeys_differs (h : (compareKeys ring r p).1 < 18) :
    (compareKeys ring r p).2 ≠ 0 ∧ (compareKeys ring r p).2 =
      ((ring.read (r.toNat + (compareKeys ring r p).1)).toNat : Int) -
        (ring.read (p.toNat + (compareKeys ring r p).1)).toNat :=
  compareFrom_differs ring r.toNat p.toNat 17 1 h

theorem compareKeys_end (h : (compareKeys ring r p).1 = 18) : (compareKeys ring r p).2 = 0 :=
  compareFrom_end ring r.toNat p.toNat 17 1 h

/-- Settles O32, by the comparison loop from byte 1 on. -/
theorem keyComparisonCountsLeadingEqualBytes : Obligations.KeyComparisonCountsLeadingEqualBytes := fun ring r p =>
  ⟨(compareKeys ring r p).1, (compareKeys ring r p).2, rfl, compareKeys_fst_pos ring r p,
    compareKeys_fst_le ring r p, fun _ h1 hj => compareFrom_agrees ring r.toNat p.toNat 17 1 h1 hj,
    compareKeys_differs, compareKeys_end⟩

/-- Two keys of one tree agree in as many leading bytes as the comparison counts, the first among them. -/
theorem compareKeys_agrees (hb : ring.read p.toNat = ring.read r.toNat) {j : Nat}
    (hj : j < (compareKeys ring r p).1) : ring.read (r.toNat + j) = ring.read (p.toNat + j) := by
  obtain rfl | h1 := Nat.eq_zero_or_pos j
  · exact hb.symm
  · exact compareFrom_agrees ring r.toNat p.toNat 17 1 h1 hj

/-! ## The order of keys -/

theorem keyAt_length (ring : Memory) (p : Pos) : (keyAt ring p).length = 18 := by simp [keyAt]

theorem keyAt_eq_iff : keyAt ring p = keyAt ring q ↔
    ∀ j : Nat, j < 18 → ring.read (p.toNat + j) = ring.read (q.toNat + j) := by
  simp [keyAt, List.map_inj_left]

theorem keyAt_lt_iff : keyAt ring p < keyAt ring q ↔
    ∃ i : Nat, i < 18 ∧ (∀ j : Nat, j < i → ring.read (p.toNat + j) = ring.read (q.toNat + j)) ∧
      (ring.read (p.toNat + i)).toNat < (ring.read (q.toNat + i)).toNat := by
  rw [List.lt_iff_exists]
  simp only [keyAt_length, Nat.lt_irrefl, and_false, false_or]
  constructor
  · rintro ⟨i, h1, _, hj, hi⟩
    refine ⟨i, h1, fun j hlt => ?_, ?_⟩
    · simpa [keyAt] using hj j hlt
    · simpa [keyAt, BitVec.lt_def] using hi
  · rintro ⟨i, h1, hj, hi⟩
    refine ⟨i, h1, h1, fun j hlt => ?_, ?_⟩
    · simpa [keyAt] using hj j hlt
    · simpa [keyAt, BitVec.lt_def] using hi

theorem keyAt_firstByte (h : keyAt ring p = keyAt ring q) : ring.read p.toNat = ring.read q.toNat :=
  keyAt_eq_iff.1 h 0 (by decide)

/-! What the comparison decides between keys of one tree, those with one first byte. -/

theorem compareKeys_whole_iff (hb : ring.read p.toNat = ring.read r.toNat) :
    18 ≤ (compareKeys ring r p).1 ↔ keyAt ring p = keyAt ring r := by
  constructor
  · intro h
    exact keyAt_eq_iff.2 fun j hj => (compareKeys_agrees hb (by omega)).symm
  · intro h
    by_contra hlt
    obtain ⟨hne, hdiff⟩ := compareKeys_differs (not_le.1 hlt)
    rw [keyAt_eq_iff.1 h _ (not_le.1 hlt)] at hdiff
    omega

theorem keyAt_lt_of_compareKeys (hb : ring.read p.toNat = ring.read r.toNat) (hlt : (compareKeys ring r p).1 < 18)
    (hcmp : 0 ≤ (compareKeys ring r p).2) : keyAt ring p < keyAt ring r := by
  obtain ⟨hne, hdiff⟩ := compareKeys_differs hlt
  exact keyAt_lt_iff.2 ⟨_, hlt, fun j hj => (compareKeys_agrees hb hj).symm, by omega⟩

theorem lt_keyAt_of_compareKeys (hb : ring.read p.toNat = ring.read r.toNat)
    (hcmp : (compareKeys ring r p).2 < 0) : keyAt ring r < keyAt ring p := by
  have hlt : (compareKeys ring r p).1 < 18 := by
    by_contra h
    have hend := compareKeys_end (le_antisymm (compareKeys_fst_le ring r p) (not_lt.1 h))
    omega
  obtain ⟨hne, hdiff⟩ := compareKeys_differs hlt
  exact keyAt_lt_iff.2 ⟨_, hlt, fun j hj => compareKeys_agrees hb hj, by omega⟩

/-- A key on the far side of q from r agrees with r in no more bytes than q does: it would else lie on the near
side. -/
theorem compareKeys_fst_le_of_le_of_lt (hp : ring.read p.toNat = ring.read r.toNat)
    (hq : ring.read q.toNat = ring.read r.toNat) (hpq : keyAt ring p ≤ keyAt ring q)
    (hqr : 0 ≤ (compareKeys ring r q).2) (hlt : (compareKeys ring r q).1 < 18) :
    (compareKeys ring r p).1 ≤ (compareKeys ring r q).1 := by
  by_contra hgt
  obtain ⟨hne, hdiff⟩ := compareKeys_differs hlt
  refine absurd (keyAt_lt_iff.2 ⟨_, hlt, fun j hj => ?_, ?_⟩) (List.not_lt.2 hpq)
  · exact (compareKeys_agrees hq hj).symm.trans (compareKeys_agrees hp (by omega))
  · rw [← compareKeys_agrees hp (not_le.1 hgt)]
    omega

theorem compareKeys_fst_le_of_ge_of_gt (hp : ring.read p.toNat = ring.read r.toNat)
    (hq : ring.read q.toNat = ring.read r.toNat) (hqp : keyAt ring q ≤ keyAt ring p)
    (hrq : (compareKeys ring r q).2 < 0) (hlt : (compareKeys ring r q).1 < 18) :
    (compareKeys ring r p).1 ≤ (compareKeys ring r q).1 := by
  by_contra hgt
  obtain ⟨hne, hdiff⟩ := compareKeys_differs hlt
  refine absurd (keyAt_lt_iff.2 ⟨_, hlt, fun j hj => ?_, ?_⟩) (List.not_lt.2 hqp)
  · exact (compareKeys_agrees hp (by omega)).symm.trans (compareKeys_agrees hq hj)
  · rw [← compareKeys_agrees hp (not_le.1 hgt)]
    omega

end

end Sys2Proof.Machine
end

section
/-! Child links as slots: the one link LSON[i] or RSON[i] a node hangs on, what a write to it leaves unchanged, and
the difference between two states of the link arrays (10_state.md R24). -/

namespace Sys2Proof.Machine

/-- A child link's place: LSON (false) or RSON (true) of a link. -/
abbrev Slot := Link × Bool

/-- The child link at a slot. -/
def Links.childAt (t : Links) (x : Slot) : Option Pos := if x.2 then t.getRson x.1 else t.getLson x.1

/-- The child link at a slot set to v. -/
def Links.setChild (t : Links) (x : Slot) (v : Option Pos) : Links :=
  if x.2 then t.setRson x.1 v else t.setLson x.1 v

/-! The link arrays' operations in terms of slots. -/

theorem Links.getLson_eq (t : Links) (i : Link) : t.getLson i = t.childAt (i, false) := rfl

theorem Links.getRson_eq (t : Links) (i : Link) : t.getRson i = t.childAt (i, true) := rfl

theorem Links.setLson_eq (t : Links) (i : Link) (v : Option Pos) : t.setLson i v = t.setChild (i, false) v := rfl

theorem Links.setRson_eq (t : Links) (i : Link) (v : Option Pos) : t.setRson i v = t.setChild (i, true) v := rfl

theorem Links.childAt_setChild (t : Links) (x y : Slot) (v : Option Pos) :
    (t.setChild x v).childAt y = if y = x then v else t.childAt y := by
  obtain ⟨i, a⟩ := x
  obtain ⟨j, b⟩ := y
  cases a <;> cases b <;> simp [setChild, childAt, getLson_setLson, getRson_setRson]

@[simp] theorem Links.childAt_setDad (t : Links) (i v : Link) (x : Slot) : (t.setDad i v).childAt x = t.childAt x :=
  rfl

@[simp] theorem Links.getDad_setChild (t : Links) (x : Slot) (v : Option Pos) (i : Link) :
    (t.setChild x v).getDad i = t.getDad i := by
  unfold setChild
  split <;> rfl

@[simp] theorem Link.ofChild_eq_node {c : Option Pos} {p : Pos} : Link.ofChild c = .node p ↔ c = some p := by
  cases c <;> simp [Link.ofChild]

@[simp] theorem Link.node_eq_ofChild {c : Option Pos} {p : Pos} : Link.node p = Link.ofChild c ↔ c = some p :=
  eq_comm.trans Link.ofChild_eq_node

/-- p hangs on the slot x and on no other: the slot leads to p, DAD[p] leads back, and where the slot is a left one,
the right one beside it does not lead to p too. -/
structure Links.HangsOn (t : Links) (p : Pos) (x : Slot) : Prop where
  child : t.childAt x = some p
  dad : t.getDad (.node p) = x.1
  side : x.2 = false → t.getRson x.1 ≠ some p

/-- The parent's link to p is the slot p hangs on (40_lzss_encoder.md R103, R104). -/
theorem Links.HangsOn.relinkParent {t : Links} {p : Pos} {x : Slot} (h : t.HangsOn p x) (v : Option Pos) :
    t.relinkParent p v = t.setChild x v := by
  obtain ⟨i, b⟩ := x
  have hdad : t.getDad (.node p) = i := h.dad
  unfold Links.relinkParent setChild
  rw [hdad]
  cases b with
  | false => exact if_neg (h.side rfl)
  | true => exact if_pos h.child

/-! ## Edits -/

/-- t' differs from t at most in the child link at x and in the links of the positions ps. -/
structure Links.Edited (t t' : Links) (x : Option Slot) (ps : List Pos) : Prop where
  child : ∀ y : Slot, x ≠ some y → (∀ p ∈ ps, y.1 ≠ .node p) → t'.childAt y = t.childAt y
  dad : ∀ p, p ∉ ps → t'.getDad (.node p) = t.getDad (.node p)

namespace Links.Edited
variable {t t' t'' : Links} {x : Option Slot} {y : Slot} {ps qs : List Pos} {q : Pos}

theorem refl (t : Links) (x : Option Slot) (ps : List Pos) : t.Edited t x ps := ⟨fun _ _ _ => rfl, fun _ _ => rfl⟩

theorem trans (h : t.Edited t' x ps) (h' : t'.Edited t'' x ps) : t.Edited t'' x ps where
  child y hy hps := (h'.child y hy hps).trans (h.child y hy hps)
  dad p hp := (h'.dad p hp).trans (h.dad p hp)

theorem mono (h : t.Edited t' x ps) (hsub : ps ⊆ qs) : t.Edited t' x qs where
  child y hy hqs := h.child y hy fun p hp => hqs p (hsub hp)
  dad p hp := h.dad p fun h => hp (hsub h)

theorem mono_slot (h : t.Edited t' none ps) (x : Option Slot) : t.Edited t' x ps where
  child y _ hps := h.child y nofun hps
  dad := h.dad

theorem setChild (h : t.Edited t' x ps) (hq : q ∈ ps) (b : Bool) (v : Option Pos) :
    t.Edited (t'.setChild (.node q, b) v) x ps where
  child y hy hps := by
    have hne : y ≠ (.node q, b) := fun he => hps q hq (by rw [he])
    rw [childAt_setChild, if_neg hne]
    exact h.child y hy hps
  dad p hp := by simpa using h.dad p hp

theorem setSlot (h : t.Edited t' (some y) ps) (v : Option Pos) : t.Edited (t'.setChild y v) (some y) ps where
  child z hz hps := by
    have hne : z ≠ y := fun he => hz (by rw [he])
    rw [childAt_setChild, if_neg hne]
    exact h.child z hz hps
  dad p hp := by simpa using h.dad p hp

theorem setDad (h : t.Edited t' x ps) {i : Link} (hi : ∀ q, i = .node q → q ∈ ps) (v : Link) :
    t.Edited (t'.setDad i v) x ps where
  child y hy hps := by simpa using h.child y hy hps
  dad p hp := by
    have hne : Link.node p ≠ i := fun he => hp (hi p he.symm)
    rw [getDad_setDad, if_neg hne]
    exact h.dad p hp

/-- A node outside an edit hangs where it did. -/
theorem hangsOn (h : t.Edited t' none ps) (hp : t.HangsOn q y) (hq : q ∉ ps) (hy : ∀ p ∈ ps, y.1 ≠ .node p) :
    t'.HangsOn q y where
  child := (h.child y nofun hy).trans hp.child
  dad := (h.dad q hq).trans hp.dad
  side hb := by rw [getRson_eq, h.child (y.1, true) nofun hy]; exact hp.side hb

end Links.Edited

/-! ## Linked trees under edits -/

@[simp] theorem linked_leaf {t : Links} {i : Link} {c : Option Pos} : Linked t i c .leaf ↔ c = none := Iff.rfl

theorem linked_node {t : Links} {i : Link} {c : Option Pos} {l r : Tree} {p : Pos} :
    Linked t i c (.node l p r) ↔ c = some p ∧ t.getDad (.node p) = i ∧
      Linked t (.node p) (t.childAt (.node p, false)) l ∧ Linked t (.node p) (t.childAt (.node p, true)) r := Iff.rfl

section
variable {t t' : Links} {i j : Link} {c : Option Pos} {S : Tree}

/-- A child link that leads to a tree leads to a node of it. -/
theorem Linked.mem_of_child {p : Pos} (h : Linked t i c S) (hc : c = some p) : p ∈ S.inorder := by
  cases S with
  | leaf => rw [linked_leaf] at h; rw [h] at hc; cases hc
  | node l q r =>
    obtain ⟨hq, -, -, -⟩ := linked_node.1 h
    rw [hc] at hq
    cases hq
    simp

theorem Linked.congr (h : Linked t i c S)
    (hchild : ∀ p ∈ S.inorder, ∀ b, t'.childAt (.node p, b) = t.childAt (.node p, b))
    (hdad : ∀ p ∈ S.inorder, t'.getDad (.node p) = t.getDad (.node p)) : Linked t' i c S := by
  induction S generalizing i c with
  | leaf => exact h
  | node l p r ihl ihr =>
    obtain ⟨hc, hp, hl, hr⟩ := linked_node.1 h
    rw [linked_node, hdad p (by simp), hchild p (by simp), hchild p (by simp)]
    exact ⟨hc, hp, ihl hl (fun q hq => hchild q (by simp [hq])) (fun q hq => hdad q (by simp [hq])),
      ihr hr (fun q hq => hchild q (by simp [hq])) (fun q hq => hdad q (by simp [hq]))⟩

/-- A tree moved below another link: its top node has the new parent, every other link is the old one. -/
theorem Linked.reparent (h : Linked t i c S) (hnodup : S.inorder.Nodup)
    (hchild : ∀ p ∈ S.inorder, ∀ b, t'.childAt (.node p, b) = t.childAt (.node p, b))
    (hdad : ∀ p ∈ S.inorder, t'.getDad (.node p) = if c = some p then j else t.getDad (.node p)) :
    Linked t' j c S := by
  cases S with
  | leaf => exact h
  | node l p r =>
    obtain ⟨hc, hp, hl, hr⟩ := linked_node.1 h
    have hne : ∀ q, q ∈ l.inorder ∨ q ∈ r.inorder → c ≠ some q := by
      rintro q hq rfl
      cases hc
      rw [Tree.inorder_node, List.nodup_middle, List.nodup_cons, List.mem_append] at hnodup
      exact hnodup.1 hq
    rw [linked_node, hdad p (by simp), if_pos hc, hchild p (by simp), hchild p (by simp)]
    refine ⟨hc, rfl, hl.congr (fun q hq => hchild q (by simp [hq])) fun q hq => ?_,
      hr.congr (fun q hq => hchild q (by simp [hq])) fun q hq => ?_⟩
    · rw [hdad q (by simp [hq]), if_neg (hne q (.inl hq))]
    · rw [hdad q (by simp [hq]), if_neg (hne q (.inr hq))]

/-- A tree is not changed by an edit of other positions and of a slot that is none of its own. -/
theorem Linked.of_edited {x : Option Slot} {ps : List Pos} (h : Linked t i c S) (he : t.Edited t' x ps)
    (hx : ∀ y, x = some y → ∀ p ∈ S.inorder, y.1 ≠ .node p) (hps : ∀ p ∈ S.inorder, p ∉ ps) : Linked t' i c S := by
  refine h.congr (fun p hp b => he.child _ (fun hy => hx _ hy p hp rfl) fun q hq => ?_) fun p hp =>
    he.dad p (hps p hp)
  rintro ⟨⟩
  exact hps p hp hq

end

end Sys2Proof.Machine
end

section
/-! A tree as a subtree in its surroundings: the place of a subtree, the slot it hangs on, and the replacement of one
subtree by another in the link arrays. -/

namespace Sys2Proof.Machine

theorem Tree.nodup_node {l r : Tree} {p : Pos} : (Tree.node l p r).inorder.Nodup ↔
    l.inorder.Nodup ∧ r.inorder.Nodup ∧ p ∉ l.inorder ∧ p ∉ r.inorder ∧ ∀ q ∈ l.inorder, q ∉ r.inorder := by
  rw [inorder_node, List.nodup_middle, List.nodup_cons, List.mem_append, List.nodup_append]
  constructor
  · rintro ⟨hp, hl, hr, hlr⟩
    exact ⟨hl, hr, fun h => hp (.inl h), fun h => hp (.inr h), fun q hq hq' => hlr q hq q hq' rfl⟩
  · rintro ⟨hl, hr, hpl, hpr, hlr⟩
    exact ⟨not_or.2 ⟨hpl, hpr⟩, hl, hr, fun q hq q' hq' he => hlr q hq (he ▸ hq')⟩

/-- A tree with a subtree left out. -/
inductive Surround where
  | hole
  | left (C : Surround) (p : Pos) (right : Tree)
  | right (left : Tree) (p : Pos) (C : Surround)

namespace Surround

/-- The tree with S as the subtree left out. -/
def fill : Surround → Tree → Tree
  | hole, S => S
  | left C p r, S => .node (C.fill S) p r
  | right l p C, S => .node l p (C.fill S)

/-- The nodes around the subtree. -/
def nodes : Surround → List Pos
  | hole => []
  | left C p r => C.nodes ++ p :: r.inorder
  | right l p C => l.inorder ++ p :: C.nodes

/-- The slot the subtree hangs on, where the whole tree hangs on x. -/
def slot : Surround → Slot → Slot
  | hole, x => x
  | left C p _, _ => C.slot (.node p, false)
  | right _ p C, _ => C.slot (.node p, true)

theorem mem_fill {C : Surround} {S : Tree} {p : Pos} : p ∈ (C.fill S).inorder ↔ p ∈ C.nodes ∨ p ∈ S.inorder := by
  induction C with
  | hole => simp [fill, nodes]
  | left C q r ih => simp only [fill, nodes, Tree.inorder_node, List.mem_append, List.mem_cons, ih]; tauto
  | right l q C ih => simp only [fill, nodes, Tree.inorder_node, List.mem_append, List.mem_cons, ih]; tauto

/-- Where no node stands twice, the subtree and what surrounds it have no node in common. -/
theorem nodup_of_fill {C : Surround} {S : Tree} (h : (C.fill S).inorder.Nodup) :
    S.inorder.Nodup ∧ ∀ p ∈ C.nodes, p ∉ S.inorder := by
  induction C with
  | hole => exact ⟨h, nofun⟩
  | left C q r ih =>
    obtain ⟨hC, -, hqC, -, hCr⟩ := Tree.nodup_node.1 h
    obtain ⟨hS, hdisj⟩ := ih hC
    refine ⟨hS, fun p hp hpS => ?_⟩
    obtain hp | rfl | hp : p ∈ C.nodes ∨ p = q ∨ p ∈ r.inorder := by simpa [nodes] using hp
    · exact hdisj p hp hpS
    · exact hqC (mem_fill.2 (.inr hpS))
    · exact hCr p (mem_fill.2 (.inr hpS)) hp
  | right l q C ih =>
    obtain ⟨-, hC, -, hqC, hlC⟩ := Tree.nodup_node.1 h
    obtain ⟨hS, hdisj⟩ := ih hC
    refine ⟨hS, fun p hp hpS => ?_⟩
    obtain hp | rfl | hp : p ∈ l.inorder ∨ p = q ∨ p ∈ C.nodes := by simpa [nodes] using hp
    · exact hlC p hp (mem_fill.2 (.inr hpS))
    · exact hqC (mem_fill.2 (.inr hpS))
    · exact hdisj p hp hpS

/-- The subtree hangs on the slot of the whole tree or on a node around it. -/
theorem slot_cases (C : Surround) (x : Slot) : C.slot x = x ∨ ∃ p ∈ C.nodes, (C.slot x).1 = .node p := by
  induction C generalizing x with
  | hole => exact .inl rfl
  | left C p r ih =>
    right
    obtain h | ⟨q, hq, h⟩ := ih (.node p, false)
    · exact ⟨p, by simp [nodes], by rw [slot, h]⟩
    · exact ⟨q, by simp [nodes, hq], h⟩
  | right l p C ih =>
    right
    obtain h | ⟨q, hq, h⟩ := ih (.node p, true)
    · exact ⟨p, by simp [nodes], by rw [slot, h]⟩
    · exact ⟨q, by simp [nodes, hq], h⟩

/-- A node that is neither around the subtree nor above the whole tree is not above the subtree. -/
theorem slot_fst_ne {C : Surround} {x : Slot} {p : Pos} (hx : x.1 ≠ .node p) (hp : p ∉ C.nodes) :
    (C.slot x).1 ≠ .node p := by
  obtain h | ⟨q, hq, h⟩ := C.slot_cases x
  · rwa [h]
  · rw [h]
    rintro ⟨⟩
    exact hp hq

/-- A slot of a link that is no node of the tree is not the one the subtree hangs on. -/
theorem slot_ne {C : Surround} {x : Slot} {p : Pos} (b : Bool) (hp : x.1 ≠ .node p)
    (hC : ∀ q ∈ C.nodes, x.1 ≠ .node q) : C.slot (.node p, b) ≠ x := by
  rintro rfl
  obtain h | ⟨q, hq, h⟩ := C.slot_cases (.node p, b)
  · exact hp (by rw [h])
  · exact hC q hq h

end Surround

/-- The link arrays hold a tree with a subtree left out: its nodes are linked as in Linked, but for the subtree. -/
def LinkedAround (t : Links) : Slot → Surround → Prop
  | _, .hole => True
  | x, .left C p r => t.childAt x = some p ∧ t.getDad (.node p) = x.1 ∧ LinkedAround t (.node p, false) C ∧
      Linked t (.node p) (t.childAt (.node p, true)) r
  | x, .right l p C => t.childAt x = some p ∧ t.getDad (.node p) = x.1 ∧
      Linked t (.node p) (t.childAt (.node p, false)) l ∧ LinkedAround t (.node p, true) C

section
variable {t t' : Links} {x : Slot} {C : Surround} {S S' : Tree} {ps : List Pos}

theorem linked_fill : Linked t x.1 (t.childAt x) (C.fill S) ↔
    LinkedAround t x C ∧ Linked t (C.slot x).1 (t.childAt (C.slot x)) S := by
  induction C generalizing x with
  | hole => simp [Surround.fill, LinkedAround, Surround.slot]
  | left C p r ih =>
    have ih := ih (x := (.node p, false))
    simp only [Surround.fill, linked_node, LinkedAround, Surround.slot] at ih ⊢
    rw [ih]
    tauto
  | right l p C ih =>
    have ih := ih (x := (.node p, true))
    simp only [Surround.fill, linked_node, LinkedAround, Surround.slot] at ih ⊢
    rw [ih]
    tauto

/-- Where a subtree hangs on a left slot, the right slot beside it does not lead into the subtree too. -/
theorem side_of_fill (h : Linked t x.1 (t.childAt x) (C.fill S)) (hnodup : (C.fill S).inorder.Nodup)
    (hx : x.2 = false → ∀ p ∈ (C.fill S).inorder, t.getRson x.1 ≠ some p) (hC : (C.slot x).2 = false) :
    ∀ p ∈ S.inorder, t.getRson (C.slot x).1 ≠ some p := by
  induction C generalizing x with
  | hole => exact hx hC
  | left C q r ih =>
    obtain ⟨-, -, hl, hr⟩ := linked_node.1 h
    obtain ⟨hn, -, -, -, hdisj⟩ := Tree.nodup_node.1 hnodup
    exact ih (x := (.node q, false)) hl hn (fun _ p hp hq => hdisj p hp (hr.mem_of_child hq)) hC
  | right l q C ih =>
    obtain ⟨-, -, -, hr⟩ := linked_node.1 h
    obtain ⟨-, hn, -, -, -⟩ := Tree.nodup_node.1 hnodup
    exact ih (x := (.node q, true)) hr hn nofun hC

/-- One side of a node is not changed by an edit inside the other side. -/
theorem Linked.side_of_edited {p : Pos} {b : Bool} {R : Tree} (h : Linked t (.node p) (t.childAt (.node p, !b)) R)
    (he : t.Edited t' (some (C.slot (.node p, b))) ps) (hpC : p ∉ C.nodes) (hpR : p ∉ R.inorder)
    (hCR : ∀ q ∈ C.nodes, q ∉ R.inorder) (hp : p ∉ ps) (hR : ∀ q ∈ R.inorder, q ∉ ps) :
    Linked t' (.node p) (t'.childAt (.node p, !b)) R := by
  have hchild : t'.childAt (.node p, !b) = t.childAt (.node p, !b) := by
    refine he.child _ (fun heq => ?_) fun q hq => ?_
    · rw [Option.some.injEq] at heq
      obtain h0 | ⟨q, hq, h0⟩ := C.slot_cases (.node p, b)
      · rw [h0] at heq; cases b <;> cases heq
      · rw [heq] at h0; cases h0; exact hpC hq
    · rintro ⟨⟩; exact hp hq
  rw [hchild]
  refine h.of_edited he (fun y hy q hq => ?_) hR
  cases hy
  refine Surround.slot_fst_ne ?_ fun hqC => hCR q hqC hq
  rintro ⟨⟩
  exact hpR hq

/-- What surrounds a subtree is not changed by an edit of the subtree and of the slot it hangs on. -/
theorem LinkedAround.of_edited (h : LinkedAround t x C) (hnodup : (C.fill S).inorder.Nodup)
    (hx : ∀ p, p ∈ C.nodes ∨ p ∈ ps → x.1 ≠ .node p) (he : t.Edited t' (some (C.slot x)) ps)
    (hps : ∀ p ∈ C.nodes, p ∉ ps) : LinkedAround t' x C := by
  induction C generalizing x with
  | hole => trivial
  | left C p r ih =>
    obtain ⟨hp, hdad, hC, hr⟩ := h
    obtain ⟨hCn, -, hpC, hpr, hCr⟩ := Tree.nodup_node.1 hnodup
    simp only [Surround.nodes, List.mem_append, List.mem_cons] at hx hps
    have hpC : p ∉ C.nodes := fun h => hpC (Surround.mem_fill.2 (.inl h))
    have hCr : ∀ q ∈ C.nodes, q ∉ r.inorder := fun q hq => hCr q (Surround.mem_fill.2 (.inl hq))
    have hpps : p ∉ ps := hps p (by simp)
    have hslot : C.slot (.node p, false) ≠ x :=
      Surround.slot_ne false (hx p (by simp)) fun q hq => hx q (by simp [hq])
    refine ⟨?_, (he.dad p hpps).trans hdad, ih hC hCn ?_ he fun q hq => hps q (.inl hq),
      hr.side_of_edited he hpC hpr hCr hpps fun q hq => hps q (.inr (.inr hq))⟩
    · rw [he.child x (fun heq => hslot (Option.some.inj heq)) fun q hq => hx q (.inr hq)]
      exact hp
    · rintro q (hq | hq) ⟨⟩
      · exact hpC hq
      · exact hpps hq
  | right l p C ih =>
    obtain ⟨hp, hdad, hl, hC⟩ := h
    obtain ⟨-, hCn, hpl, hpC, hlC⟩ := Tree.nodup_node.1 hnodup
    simp only [Surround.nodes, List.mem_append, List.mem_cons] at hx hps
    have hpC : p ∉ C.nodes := fun h => hpC (Surround.mem_fill.2 (.inl h))
    have hCl : ∀ q ∈ C.nodes, q ∉ l.inorder := fun q hq hql => hlC q hql (Surround.mem_fill.2 (.inl hq))
    have hpps : p ∉ ps := hps p (by simp)
    have hslot : C.slot (.node p, true) ≠ x :=
      Surround.slot_ne true (hx p (by simp)) fun q hq => hx q (by simp [hq])
    refine ⟨?_, (he.dad p hpps).trans hdad,
      hl.side_of_edited he hpC hpl hCl hpps fun q hq => hps q (.inl hq),
      ih hC hCn ?_ he fun q hq => hps q (.inr (.inr hq))⟩
    · rw [he.child x (fun heq => hslot (Option.some.inj heq)) fun q hq => hx q (.inr hq)]
      exact hp
    · rintro q (hq | hq) ⟨⟩
      · exact hpC hq
      · exact hpps hq

/-- One subtree replaced by another: an edit that leaves what surrounds the subtree and links the new one into the
slot of the old one links the whole tree. -/
theorem Linked.refill (h : Linked t x.1 (t.childAt x) (C.fill S)) (hnodup : (C.fill S).inorder.Nodup)
    (hx : ∀ p, p ∈ C.nodes ∨ p ∈ ps → x.1 ≠ .node p) (he : t.Edited t' (some (C.slot x)) ps)
    (hps : ∀ p ∈ C.nodes, p ∉ ps) (hS' : Linked t' (C.slot x).1 (t'.childAt (C.slot x)) S') :
    Linked t' x.1 (t'.childAt x) (C.fill S') :=
  linked_fill.2 ⟨(linked_fill.1 h).1.of_edited hnodup hx he hps, hS'⟩

end

/-! ## The trees -/

section
variable {ring : Memory} {t t' : Links} {T : Byte → Tree} {c : Byte} {C : Surround} {S S' : Tree} {ps : List Pos}
  {p : Pos}

/-- The slot the tree of first byte c hangs on (10_state.md R24). -/
abbrev rootSlot (c : Byte) : Slot := (.root c, true)

/-- A node is in the tree of its first byte only. -/
theorem Forest.eq_of_mem (h : Forest ring t T) {c c' : Byte} (hp : p ∈ (T c).inorder) (hp' : p ∈ (T c').inorder) :
    c = c' := (h.firstByte c p hp).symm.trans (h.firstByte c' p hp')

theorem Forest.getDad_eq_nil (h : Forest ring t T) (hp : ∀ c, p ∉ (T c).inorder) : t.getDad (.node p) = .nil := by
  by_contra hne
  obtain ⟨c, hc⟩ := h.placed p hne
  exact hp c hc

/-- A subtree of the tree of first byte c, as the operations on it need it: linked into its slot, which belongs to no
node of it, and where that is a left one, the right one beside it does not lead into the subtree too. -/
theorem Forest.subtree (h : Forest ring t T) (hT : T c = C.fill S) :
    Linked t (C.slot (rootSlot c)).1 (t.childAt (C.slot (rootSlot c))) S ∧ S.inorder.Nodup ∧
      (∀ p ∈ S.inorder, (C.slot (rootSlot c)).1 ≠ .node p) ∧
      ((C.slot (rootSlot c)).2 = false → ∀ p ∈ S.inorder, t.getRson (C.slot (rootSlot c)).1 ≠ some p) := by
  have hlinked : Linked t (rootSlot c).1 (t.childAt (rootSlot c)) (C.fill S) := hT ▸ h.linked c
  have hnodup : (C.fill S).inorder.Nodup := hT ▸ h.nodup c
  obtain ⟨hS, hdisj⟩ := Surround.nodup_of_fill hnodup
  exact ⟨(linked_fill.1 hlinked).2, hS, fun p hp => Surround.slot_fst_ne nofun fun hC => hdisj p hC hp,
    side_of_fill hlinked hnodup nofun⟩

/-- Replacing a subtree of one tree keeps the forest: the edit touches only positions of the old subtree and
positions in no tree, the new subtree is linked in, the new tree is ordered, and a node that leaves has no parent. -/
theorem Forest.refill (h : Forest ring t T) (hT : T c = C.fill S)
    (he : t.Edited t' (some (C.slot (rootSlot c))) ps)
    (hps : ∀ p ∈ ps, p ∈ S.inorder ∨ ∀ c, p ∉ (T c).inorder)
    (hS' : Linked t' (C.slot (rootSlot c)).1 (t'.childAt (C.slot (rootSlot c))) S')
    (hnodup : (C.fill S').inorder.Nodup)
    (hbyte : ∀ p ∈ (C.fill S').inorder, ring.read p.toNat = c)
    (hsorted : (C.fill S').inorder.Pairwise (fun p q => keyAt ring p ≤ keyAt ring q))
    (hgone : ∀ p ∈ ps, p ∉ S'.inorder → t'.getDad (.node p) = .nil)
    (hsub : ∀ p ∈ S.inorder, p ∉ S'.inorder → p ∈ ps) :
    Forest ring t' (Function.update T c (C.fill S')) := by
  have hnodupC := h.nodup c
  rw [hT] at hnodupC
  have hCS := (Surround.nodup_of_fill hnodupC).2
  have hmemC : ∀ p, p ∈ (T c).inorder ↔ p ∈ C.nodes ∨ p ∈ S.inorder := fun p => by rw [hT, Surround.mem_fill]
  have hCps : ∀ p ∈ C.nodes, p ∉ ps := fun p hp hps' =>
    (hps p hps').elim (hCS p hp) fun hno => hno c ((hmemC p).2 (.inl hp))
  refine ⟨fun c' => ?linked, fun c' => ?nodup, fun c' p hp => ?byte, fun p hp => ?placed, fun c' => ?sorted⟩
  case linked =>
    by_cases hc : c' = c
    · subst hc
      rw [Function.update_self]
      have hlinked := h.linked c'
      rw [hT] at hlinked
      exact Linked.refill (x := rootSlot c') hlinked hnodupC (fun _ _ => nofun) he hCps hS'
    · rw [Function.update_of_ne hc]
      have hother : ∀ p ∈ (T c').inorder, p ∉ (T c).inorder := fun p hp hp' => hc (h.eq_of_mem hp hp')
      have hroot : C.slot (rootSlot c) ≠ rootSlot c' := by
        intro heq
        obtain h0 | ⟨q, -, h0⟩ := C.slot_cases (rootSlot c) <;> rw [heq] at h0
        · cases h0; exact hc rfl
        · cases h0
      have hchild : t'.getRson (.root c') = t.getRson (.root c') :=
        he.child (rootSlot c') (fun heq => hroot (Option.some.inj heq)) fun _ _ => nofun
      rw [hchild]
      refine (h.linked c').of_edited he (fun y hy p hp => ?_) fun p hp hpps => ?_
      · cases hy
        exact Surround.slot_fst_ne nofun fun hC => hother p hp ((hmemC p).2 (.inl hC))
      · exact (hps p hpps).elim (fun hS => hother p hp ((hmemC p).2 (.inr hS))) fun hno => hno c' hp
  case nodup =>
    by_cases hc : c' = c
    · rw [hc, Function.update_self]; exact hnodup
    · rw [Function.update_of_ne hc]; exact h.nodup c'
  case byte =>
    by_cases hc : c' = c
    · rw [hc, Function.update_self] at hp; rw [hc]; exact hbyte p hp
    · rw [Function.update_of_ne hc] at hp; exact h.firstByte c' p hp
  case sorted =>
    by_cases hc : c' = c
    · rw [hc, Function.update_self]; exact hsorted
    · rw [Function.update_of_ne hc]; exact h.sorted c'
  case placed =>
    by_cases hnew : p ∈ (C.fill S').inorder
    · exact ⟨c, by rwa [Function.update_self]⟩
    · rw [Surround.mem_fill, not_or] at hnew
      have hpps : p ∉ ps := fun hpps => hp (hgone p hpps hnew.2)
      rw [he.dad p hpps] at hp
      obtain ⟨c', hc'⟩ := h.placed p hp
      refine ⟨c', ?_⟩
      rw [Function.update_of_ne fun hc => ?_]
      · exact hc'
      · subst hc
        exact ((hmemC p).1 hc').elim hnew.1 fun hS => hpps (hsub p hS hnew.2)

end

end Sys2Proof.Machine
end

section
/-! The operations of INSERT_NODE and DELETE_NODE on one subtree of the link arrays: hanging a new leaf on an empty
slot, and giving a node's slot to another node (40_lzss_encoder.md R103, R104). -/

namespace Sys2Proof.Machine

section
variable {t : Links} {x : Slot} {r p : Pos} {l rr S : Tree} {c : Option Pos} {i : Link}

/-! ## A new leaf -/

theorem Links.attach_eq (t : Links) (cmp : Int) (i : Link) (r : Pos) :
    t.attach cmp i r = (t.setChild (i, decide (0 ≤ cmp)) (some r)).setDad (.node r) i := by
  unfold attach setChild
  by_cases h : 0 ≤ cmp <;> simp [h]

theorem Links.child_eq (t : Links) (cmp : Int) (i : Link) : t.child cmp i = t.childAt (i, decide (0 ≤ cmp)) := by
  unfold child childAt
  by_cases h : 0 ≤ cmp <;> simp [h]

theorem edited_attach (t : Links) (cmp : Int) (i : Link) (r : Pos) :
    t.Edited (t.attach cmp i r) (some (i, decide (0 ≤ cmp))) [r] := by
  rw [Links.attach_eq]
  refine ((Links.Edited.refl t _ _).setSlot _).setDad ?_ _
  rintro q ⟨⟩
  simp

theorem linked_attach {cmp : Int} (hr : ∀ b, t.childAt (.node r, b) = none) (hi : i ≠ .node r) :
    Linked (t.attach cmp i r) i ((t.attach cmp i r).childAt (i, decide (0 ≤ cmp))) (.node .leaf r .leaf) := by
  have hne : ∀ b b', ((.node r, b) : Slot) ≠ (i, b') := fun b b' he => hi (congrArg Prod.fst he).symm
  rw [Links.attach_eq, linked_node]
  simp [Links.childAt_setChild, Links.getDad_setDad, hne, hr]

/-! ## A node gives its slot away -/

/-- The slot of p leads to v, and p has no parent any more: the last steps of INSERT_NODE's replacement and of
DELETE_NODE (40_lzss_encoder.md R103, R104). -/
def Links.detach (t : Links) (p : Pos) (v : Option Pos) : Links := (t.relinkParent p v).setDad (.node p) .nil

theorem Links.unlink_eq (t : Links) (p : Pos) (q : Option Pos) :
    t.unlink p q = (t.setDad (Link.ofChild q) (t.getDad (.node p))).detach p q := rfl

theorem getDad_detach (t : Links) (p : Pos) (v : Option Pos) : (t.detach p v).getDad (.node p) = .nil := by
  simp [Links.detach, Links.getDad_setDad]

theorem edited_detach (hp : t.HangsOn p x) (v : Option Pos) : t.Edited (t.detach p v) (some x) [p] := by
  unfold Links.detach
  rw [hp.relinkParent]
  refine ((Links.Edited.refl t _ _).setSlot _).setDad ?_ _
  rintro q ⟨⟩
  simp

theorem childAt_detach (hp : t.HangsOn p x) (v : Option Pos) : (t.detach p v).childAt x = v := by
  unfold Links.detach
  rw [hp.relinkParent]
  simp [Links.childAt_setChild]

theorem linked_detach (hp : t.HangsOn p x) (h : Linked t x.1 c S) (hpS : p ∉ S.inorder)
    (hx : ∀ q ∈ S.inorder, x.1 ≠ .node q) : Linked (t.detach p c) x.1 ((t.detach p c).childAt x) S := by
  rw [childAt_detach hp]
  refine h.of_edited (edited_detach hp c) (fun y hy => Option.some.inj hy ▸ hx) fun q hq hqp => ?_
  rw [List.mem_singleton.1 hqp] at hq
  exact hpS hq

/-- The node that takes p's slot is not p: the tree below it does not hold p. -/
theorem Links.HangsOn.setDad_child (hp : t.HangsOn p x) (h : Linked t i c S) (hpS : p ∉ S.inorder) (v : Link) :
    (t.setDad (Link.ofChild c) v).HangsOn p x where
  child := hp.child
  dad := by
    have hne : Link.node p ≠ Link.ofChild c := fun he => hpS (h.mem_of_child (Link.node_eq_ofChild.1 he))
    rw [Links.getDad_setDad, if_neg hne]
    exact hp.dad
  side := hp.side

theorem linked_unlink (hp : t.HangsOn p x) (h : Linked t i c S) (hS : S.inorder.Nodup) (hpS : p ∉ S.inorder)
    (hx : ∀ q ∈ S.inorder, x.1 ≠ .node q) : Linked (t.unlink p c) x.1 ((t.unlink p c).childAt x) S := by
  rw [Links.unlink_eq, hp.dad]
  refine linked_detach (hp.setDad_child h hpS _) (h.reparent hS (fun _ _ _ => rfl) fun q hq => ?_) hpS hx
  simp [Links.getDad_setDad]

theorem edited_unlink (hp : t.HangsOn p x) (h : Linked t i c S) (hpS : p ∉ S.inorder) :
    t.Edited (t.unlink p c) (some x) (p :: S.inorder) := by
  rw [Links.unlink_eq]
  refine ((Links.Edited.refl t (some x) (p :: S.inorder)).setDad (fun q hq => ?_) _).trans
    ((edited_detach (hp.setDad_child h hpS _) c).mono (by simp))
  exact List.mem_cons_of_mem _ (h.mem_of_child (Link.ofChild_eq_node.1 hq))

/-! ## A node in the place of another -/

/-- r gets the parent and the subtrees of p: the steps of INSERT_NODE's replacement before the last
(40_lzss_encoder.md R103). -/
def Links.copyLinks (t : Links) (r p : Pos) : Links :=
  let t := t.setDad (.node r) (t.getDad (.node p))
  let t := t.setLson (.node r) (t.getLson (.node p))
  let t := t.setRson (.node r) (t.getRson (.node p))
  let t := t.setDad (Link.ofChild (t.getLson (.node p))) (.node r)
  t.setDad (Link.ofChild (t.getRson (.node p))) (.node r)

theorem Links.replace_eq (t : Links) (r p : Pos) : t.replace r p = (t.copyLinks r p).detach p (some r) := rfl

theorem childAt_copyLinks (hne : p ≠ r) (y : Slot) : (t.copyLinks r p).childAt y =
    if y.1 = .node r then t.childAt (.node p, y.2) else t.childAt y := by
  obtain ⟨j, b⟩ := y
  cases b <;> by_cases hj : j = .node r <;>
    simp [Links.copyLinks, Links.setLson_eq, Links.setRson_eq, Links.getLson_eq, Links.getRson_eq,
      Links.childAt_setChild, hne, hj]

theorem getDad_copyLinks (hne : p ≠ r) (j : Link) : (t.copyLinks r p).getDad j =
    if ∃ b, j = Link.ofChild (t.childAt (.node p, b)) then .node r
    else if j = .node r then t.getDad (.node p) else t.getDad j := by
  simp only [Links.copyLinks, Links.setLson_eq, Links.setRson_eq, Links.getLson_eq, Links.getRson_eq,
    Links.childAt_setChild, Links.getDad_setDad, Links.childAt_setDad, Links.getDad_setChild, Bool.exists_bool]
  simp only [Prod.mk.injEq, Link.node.injEq, hne, false_and, if_false]
  by_cases h1 : j = Link.ofChild (t.childAt (.node p, true)) <;>
    by_cases h0 : j = Link.ofChild (t.childAt (.node p, false)) <;> simp [h0, h1]

theorem edited_copyLinks {x : Option Slot} {ps : List Pos} (hr : r ∈ ps)
    (hchild : ∀ b q, t.childAt (.node p, b) = some q → q ∈ ps) (hne : p ≠ r) : t.Edited (t.copyLinks r p) x ps where
  child y _ hps := by rw [childAt_copyLinks hne, if_neg (hps r hr)]
  dad q hq := by
    have hqr : q ≠ r := fun he => hq (he ▸ hr)
    have hqc : ¬ ∃ b, t.childAt (.node p, b) = some q := fun ⟨b, hb⟩ => hq (hchild b q hb)
    simp [getDad_copyLinks hne, hqr, hqc]

/-- A subtree of p below r: its top node has the new parent. -/
theorem linked_copyLinks {b : Bool} (h : Linked t (.node p) (t.childAt (.node p, b)) S) (hS : S.inorder.Nodup)
    (hother : ∀ q, t.childAt (.node p, !b) = some q → q ∉ S.inorder) (hr : r ∉ S.inorder) (hne : p ≠ r) :
    Linked (t.copyLinks r p) (.node r) ((t.copyLinks r p).childAt (.node r, b)) S := by
  rw [childAt_copyLinks hne, if_pos rfl]
  refine h.reparent hS (fun q hq b' => ?_) fun q hq => ?_
  · have hqr : q ≠ r := fun he => hr (he ▸ hq)
    simp [childAt_copyLinks hne, hqr]
  · have hqr : q ≠ r := fun he => hr (he ▸ hq)
    have hiff : (∃ b', t.childAt (.node p, b') = some q) ↔ t.childAt (.node p, b) = some q := by
      refine ⟨fun ⟨b', hb'⟩ => ?_, fun h => ⟨b, h⟩⟩
      by_cases hbb : b' = b
      · rw [← hbb, hb']
      · rw [(Bool.eq_not).2 hbb] at hb'
        exact absurd hq (hother q hb')
    simp [getDad_copyLinks hne, hqr, hiff]

section
variable (h : Linked t x.1 (t.childAt x) (.node l p rr)) (hside : x.2 = false → t.getRson x.1 ≠ some p)
  (hnodup : (Tree.node l p rr).inorder.Nodup) (hx : ∀ q ∈ (Tree.node l p rr).inorder, x.1 ≠ .node q)
include h hside

theorem hangsOn_of_linked : t.HangsOn p x :=
  have ⟨hp, hdad, _, _⟩ := linked_node.1 h
  ⟨hp, hdad, hside⟩

include hnodup hx

/-- r, in no tree, takes the place of p: the subtree of p becomes that of r (40_lzss_encoder.md R103). -/
theorem linked_replace (hr : r ∉ (Tree.node l p rr).inorder) (hxr : x.1 ≠ .node r) :
    Linked (t.replace r p) x.1 ((t.replace r p).childAt x) (.node l r rr) ∧
      t.Edited (t.replace r p) (some x) (r :: (Tree.node l p rr).inorder) ∧
      (t.replace r p).getDad (.node p) = .nil := by
  have hp := hangsOn_of_linked h hside
  obtain ⟨-, hdad, hl, hrr⟩ := linked_node.1 h
  obtain ⟨hln, hrrn, hpl, hpr, hlr⟩ := Tree.nodup_node.1 hnodup
  simp only [Tree.inorder_node, List.mem_append, List.mem_cons, not_or] at hr hx
  obtain ⟨hrl, hrp, hrrr⟩ := hr
  have hne : p ≠ r := fun he => hrp he.symm
  have hchild : ∀ b q, t.childAt (.node p, b) = some q → q ∈ l.inorder ∨ q ∈ rr.inorder := by
    rintro (_ | _) q hq
    · exact .inl (hl.mem_of_child hq)
    · exact .inr (hrr.mem_of_child hq)
  have hcopy : t.Edited (t.copyLinks r p) none (r :: (l.inorder ++ rr.inorder)) :=
    edited_copyLinks (by simp) (fun b q hq => by simpa using .inr (hchild b q hq)) hne
  have hp1 : (t.copyLinks r p).HangsOn p x := by
    refine hcopy.hangsOn hp ?_ fun q hq => ?_
    · simp [hne, hpl, hpr]
    · obtain rfl | hq := List.mem_cons.1 hq
      · exact hxr
      · exact hx q ((List.mem_append.1 hq).imp_right .inr)
  have hlinked : Linked (t.copyLinks r p) x.1 (some r) (.node l r rr) := by
    have hr1 : ¬ ∃ b, t.childAt (.node p, b) = some r := fun ⟨b, hb⟩ => (hchild b r hb).elim hrl hrrr
    refine linked_node.2 ⟨rfl, ?_, linked_copyLinks hl hln (fun q hq hql => ?_) hrl hne,
      linked_copyLinks hrr hrrn (fun q hq hqr => ?_) hrrr hne⟩
    · simp [getDad_copyLinks hne, hr1, hdad]
    · exact hlr q hql (hrr.mem_of_child hq)
    · exact hlr q (hl.mem_of_child hq) hqr
  rw [Links.replace_eq]
  refine ⟨linked_detach hp1 hlinked ?_ fun q hq => ?_, ?_, getDad_detach _ _ _⟩
  · simp [hpl, hpr, hne]
  · simp only [Tree.inorder_node, List.mem_append, List.mem_cons] at hq
    obtain hq | rfl | hq := hq
    · exact hx q (.inl hq)
    · exact hxr
    · exact hx q (.inr (.inr hq))
  · refine ((hcopy.mono_slot _).mono ?_).trans ((edited_detach hp1 _).mono ?_)
    · exact List.cons_subset_cons _ (List.append_subset.2
        ⟨List.subset_append_left _ _, List.Subset.trans (List.subset_cons_self _ _) (List.subset_append_right _ _)⟩)
    · simp

end

end

end Sys2Proof.Machine
end

section
/-! INSERT_NODE on the trees as values: its walk stays ordered, and which nodes it keeps (40_lzss_encoder.md R101,
R103). -/

namespace Sys2Proof.Machine

section
variable {ring : Memory} {r p q : Pos} {S l rr : Tree}

/-- Every node of a tree has the first byte of r, as all nodes of the tree INSERT_NODE(r) searches. -/
abbrev Tree.SameByte (ring : Memory) (r : Pos) (S : Tree) : Prop :=
  ∀ p ∈ S.inorder, ring.read p.toNat = ring.read r.toNat

theorem Tree.SameByte.parts (h : Tree.SameByte ring r (.node l p rr)) :
    Tree.SameByte ring r l ∧ ring.read p.toNat = ring.read r.toNat ∧ Tree.SameByte ring r rr :=
  ⟨fun q hq => h q (by simp [hq]), h p (by simp), fun q hq => h q (by simp [hq])⟩

/-! Where the search goes from a node. -/

theorem Tree.insert_of_whole (h : 18 ≤ (compareKeys ring r p).1) :
    (Tree.node l p rr).insert ring r = .node l r rr := if_pos h

theorem Tree.insert_of_greater (h : (compareKeys ring r p).1 < 18) (hcmp : 0 ≤ (compareKeys ring r p).2) :
    (Tree.node l p rr).insert ring r = .node l p (rr.insert ring r) :=
  (if_neg (not_le.2 h)).trans (if_pos hcmp)

theorem Tree.insert_of_less (h : (compareKeys ring r p).1 < 18) (hcmp : (compareKeys ring r p).2 < 0) :
    (Tree.node l p rr).insert ring r = .node (l.insert ring r) p rr :=
  (if_neg (not_le.2 h)).trans (if_neg (not_le.2 hcmp))

theorem Tree.path_of_whole (h : 18 ≤ (compareKeys ring r p).1) : (Tree.node l p rr).path ring r = [p] :=
  congrArg (p :: ·) (if_pos h)

theorem Tree.path_of_greater (h : (compareKeys ring r p).1 < 18) (hcmp : 0 ≤ (compareKeys ring r p).2) :
    (Tree.node l p rr).path ring r = p :: rr.path ring r :=
  congrArg (p :: ·) ((if_neg (not_le.2 h)).trans (if_pos hcmp))

theorem Tree.path_of_less (h : (compareKeys ring r p).1 < 18) (hcmp : (compareKeys ring r p).2 < 0) :
    (Tree.node l p rr).path ring r = p :: l.path ring r :=
  congrArg (p :: ·) ((if_neg (not_le.2 h)).trans (if_neg (not_le.2 hcmp)))

/-- Induction along the search of INSERT_NODE(r): an empty subtree, a node with r's whole key, or a step to one
side. -/
theorem Tree.searchInduction {motive : Tree → Prop} (ring : Memory) (r : Pos) (leaf : motive .leaf)
    (whole : ∀ l p rr, 18 ≤ (compareKeys ring r p).1 → motive (.node l p rr))
    (greater : ∀ l p rr, (compareKeys ring r p).1 < 18 → 0 ≤ (compareKeys ring r p).2 → motive rr →
      motive (.node l p rr))
    (less : ∀ l p rr, (compareKeys ring r p).1 < 18 → (compareKeys ring r p).2 < 0 → motive l →
      motive (.node l p rr)) (S : Tree) : motive S := by
  induction S with
  | leaf => exact leaf
  | node l p rr ihl ihr =>
    by_cases hw : 18 ≤ (compareKeys ring r p).1
    · exact whole l p rr hw
    · by_cases hcmp : 0 ≤ (compareKeys ring r p).2
      · exact greater l p rr (not_le.1 hw) hcmp ihr
      · exact less l p rr (not_le.1 hw) (not_le.1 hcmp) ihl

/-! ## The nodes -/

theorem Tree.nodup_insert (hS : S.inorder.Nodup) (hr : r ∉ S.inorder) : (S.insert ring r).inorder.Nodup := by
  induction S using Tree.searchInduction ring r with
  | leaf => simp [Tree.insert]
  | whole l p rr hw =>
    rw [insert_of_whole hw, nodup_node]
    simp only [inorder_node, List.mem_append, List.mem_cons, not_or] at hr
    obtain ⟨hl, hrr, -, -, hdisj⟩ := nodup_node.1 hS
    exact ⟨hl, hrr, hr.1, hr.2.2, hdisj⟩
  | greater l p rr hlt hcmp ih =>
    rw [insert_of_greater hlt hcmp, nodup_node]
    simp only [inorder_node, List.mem_append, List.mem_cons, not_or] at hr
    obtain ⟨hrl, hrp, hrr'⟩ := hr
    obtain ⟨hl, hrr, hpl, hpr, hdisj⟩ := nodup_node.1 hS
    refine ⟨hl, ih hrr hrr', hpl, fun h => ?_, fun q hq h => ?_⟩
    · exact (mem_of_mem_insert h).elim (fun he => hrp he.symm) hpr
    · exact (mem_of_mem_insert h).elim (fun he => hrl (he ▸ hq)) (hdisj q hq)
  | less l p rr hlt hcmp ih =>
    rw [insert_of_less hlt hcmp, nodup_node]
    simp only [inorder_node, List.mem_append, List.mem_cons, not_or] at hr
    obtain ⟨hrl, hrp, hrr'⟩ := hr
    obtain ⟨hl, hrr, hpl, hpr, hdisj⟩ := nodup_node.1 hS
    refine ⟨ih hl hrl, hrr, fun h => ?_, hpr, fun q h => ?_⟩
    · exact (mem_of_mem_insert h).elim (fun he => hrp he.symm) hpl
    · exact (mem_of_mem_insert h).elim (fun he => he ▸ hrr') (hdisj q)

/-- The node with r's whole key that the search meets is the one that leaves. -/
theorem Tree.mem_insert_of_whole (hS : S.inorder.Nodup) (hp : p ∈ S.path ring r) (hw : 18 ≤ (compareKeys ring r p).1) :
    q ∈ (S.insert ring r).inorder ↔ q = r ∨ (q ∈ S.inorder ∧ q ≠ p) := by
  induction S using Tree.searchInduction ring r with
  | leaf => cases hp
  | whole l p' rr hw' =>
    rw [path_of_whole hw', List.mem_singleton] at hp
    subst hp
    obtain ⟨-, -, hpl, hpr, -⟩ := nodup_node.1 hS
    have hl : q ∈ l.inorder → q ≠ p := fun hq he => hpl (he ▸ hq)
    have hr : q ∈ rr.inorder → q ≠ p := fun hq he => hpr (he ▸ hq)
    rw [insert_of_whole hw']
    simp only [inorder_node, List.mem_append, List.mem_cons]
    grind
  | greater l p' rr hlt hcmp ih =>
    obtain ⟨hl, hrr, hpl, hpr, hdisj⟩ := nodup_node.1 hS
    have hpp : p ≠ p' := by rintro rfl; omega
    rw [path_of_greater hlt hcmp, List.mem_cons, or_iff_right hpp] at hp
    have ih := ih hrr hp
    have hprr := mem_inorder_of_mem_path hp
    have hl' : q ∈ l.inorder → q ≠ p := fun hq he => hdisj q hq (he ▸ hprr)
    have hp' : q = p' → q ≠ p := fun hq he => hpp (he.symm.trans hq)
    rw [insert_of_greater hlt hcmp]
    simp only [inorder_node, List.mem_append, List.mem_cons, ih]
    grind
  | less l p' rr hlt hcmp ih =>
    obtain ⟨hl, hrr, hpl, hpr, hdisj⟩ := nodup_node.1 hS
    have hpp : p ≠ p' := by rintro rfl; omega
    rw [path_of_less hlt hcmp, List.mem_cons, or_iff_right hpp] at hp
    have ih := ih hl hp
    have hpl' := mem_inorder_of_mem_path hp
    have hr' : q ∈ rr.inorder → q ≠ p := fun hq he => hdisj p hpl' (he ▸ hq)
    have hp' : q = p' → q ≠ p := fun hq he => hpp (he.symm.trans hq)
    rw [insert_of_less hlt hcmp]
    simp only [inorder_node, List.mem_append, List.mem_cons, ih]
    grind

/-- Where the search meets no node with r's whole key, every node stays. -/
theorem Tree.mem_insert_of_not_whole (h : ∀ p ∈ S.path ring r, (compareKeys ring r p).1 < 18) (hq : q ∈ S.inorder) :
    q ∈ (S.insert ring r).inorder := by
  induction S using Tree.searchInduction ring r with
  | leaf => cases hq
  | whole l p rr hw =>
    have := h p (by simp [path_of_whole hw])
    omega
  | greater l p rr hlt hcmp ih =>
    rw [path_of_greater hlt hcmp, List.forall_mem_cons] at h
    rw [insert_of_greater hlt hcmp]
    simp only [inorder_node, List.mem_append, List.mem_cons] at hq ⊢
    exact hq.imp_right (Or.imp_right (ih h.2))
  | less l p rr hlt hcmp ih =>
    rw [path_of_less hlt hcmp, List.forall_mem_cons] at h
    rw [insert_of_less hlt hcmp]
    simp only [inorder_node, List.mem_append, List.mem_cons] at hq ⊢
    exact hq.imp_left (ih h.2)

/-! ## The order -/

theorem Tree.pairwise_node {R : Pos → Pos → Prop} : (Tree.node l p rr).inorder.Pairwise R ↔
    l.inorder.Pairwise R ∧ rr.inorder.Pairwise R ∧ (∀ q ∈ l.inorder, R q p) ∧ (∀ q ∈ rr.inorder, R p q) ∧
      ∀ q ∈ l.inorder, ∀ q' ∈ rr.inorder, R q q' := by
  simp only [inorder_node, List.pairwise_append, List.pairwise_cons, List.mem_cons, forall_eq_or_imp]
  exact ⟨fun ⟨hl, ⟨hp, hr⟩, h⟩ => ⟨hl, hr, fun q hq => (h q hq).1, hp, fun q hq => (h q hq).2⟩,
    fun ⟨hl, hr, hlp, hp, h⟩ => ⟨hl, ⟨hp, hr⟩, fun q hq => ⟨hlp q hq, h q hq⟩⟩⟩

/-- INSERT_NODE keeps the order of keys, the strict one too. R is ≤ or < on keys. -/
theorem Tree.pairwise_insert {R : List Byte → List Byte → Prop} (hlt : ∀ a b, a < b → R a b)
    (htrans : ∀ a b c, R a b → R b c → R a c) (hb : S.SameByte ring r)
    (hS : S.inorder.Pairwise fun p q => R (keyAt ring p) (keyAt ring q)) :
    (S.insert ring r).inorder.Pairwise fun p q => R (keyAt ring p) (keyAt ring q) := by
  induction S using Tree.searchInduction ring r with
  | leaf => simp [Tree.insert]
  | whole l p rr hw =>
    have hkey := (compareKeys_whole_iff hb.parts.2.1).1 hw
    rw [insert_of_whole hw, pairwise_node]
    rwa [pairwise_node, hkey] at hS
  | greater l p rr hlt' hcmp ih =>
    obtain ⟨hl, hrr, hlp, hpr, hlr⟩ := pairwise_node.1 hS
    obtain ⟨-, hbp, hbr⟩ := hb.parts
    have hpr' : R (keyAt ring p) (keyAt ring r) := hlt _ _ (keyAt_lt_of_compareKeys hbp hlt' hcmp)
    rw [insert_of_greater hlt' hcmp, pairwise_node]
    refine ⟨hl, ih hbr hrr, hlp, fun q hq => ?_, fun q hq q' hq' => ?_⟩
    · obtain rfl | hq := mem_of_mem_insert hq
      · exact hpr'
      · exact hpr q hq
    · obtain rfl | hq' := mem_of_mem_insert hq'
      · exact htrans _ _ _ (hlp q hq) hpr'
      · exact hlr q hq q' hq'
  | less l p rr hlt' hcmp ih =>
    obtain ⟨hl, hrr, hlp, hpr, hlr⟩ := pairwise_node.1 hS
    obtain ⟨hbl, hbp, -⟩ := hb.parts
    have hrp : R (keyAt ring r) (keyAt ring p) := hlt _ _ (lt_keyAt_of_compareKeys hbp hcmp)
    rw [insert_of_less hlt' hcmp, pairwise_node]
    refine ⟨ih hbl hl, hrr, fun q hq => ?_, hpr, fun q hq q' hq' => ?_⟩
    · obtain rfl | hq := mem_of_mem_insert hq
      · exact hrp
      · exact hlp q hq
    · obtain rfl | hq := mem_of_mem_insert hq
      · exact htrans _ _ _ hrp (hpr q' hq')
      · exact hlr q hq q' hq'

end

end Sys2Proof.Machine
end

section
/-! INSERT_NODE on the link arrays: the search loop follows the path of the tree, and what it does at its end turns the
tree into Tree.insert of it (40_lzss_encoder.md R103). -/

namespace Sys2Proof.Machine

/-- MLEN and MPOS after the comparison with p (40_lzss_encoder.md R103). -/
def Match.improve (ring : Memory) (r : Pos) (m : Match) (p : Pos) : Match :=
  if m.len.toNat < (compareKeys ring r p).1 then ⟨BitVec.ofNat 5 (compareKeys ring r p).1, p⟩ else m

/-- Where the search for r ends in S and what INSERT_NODE makes of the links there: r is hung on an empty slot, or
replaces the node with its whole key. -/
inductive InsertEnds (ring : Memory) (r : Pos) (t : Links) (x : Slot) (S : Tree) (C : Surround) : Links → Prop
  | leaf (cmp : Int) (hS : S = C.fill .leaf) (hins : S.insert ring r = C.fill (.node .leaf r .leaf))
      (hcmp : (C.slot x).2 = decide (0 ≤ cmp)) : InsertEnds ring r t x S C (t.attach cmp (C.slot x).1 r)
  | whole (l : Tree) (p : Pos) (rr : Tree) (hS : S = C.fill (.node l p rr))
      (hins : S.insert ring r = C.fill (.node l r rr)) : InsertEnds ring r t x S C (t.replace r p)

section
variable {ring : Memory} {r p : Pos} {t t' : Links} {x : Slot} {S l rr : Tree} {C : Surround} {n : Nat} {cmp : Int}
  {m : Match}

theorem InsertEnds.greater (h : InsertEnds ring r t (.node p, true) rr C t') (hlt : (compareKeys ring r p).1 < 18)
    (hcmp : 0 ≤ (compareKeys ring r p).2) : InsertEnds ring r t x (.node l p rr) (.right l p C) t' := by
  cases h with
  | leaf cmp hS hins hslot =>
    exact .leaf (C := .right l p C) cmp (congrArg _ hS)
      ((Tree.insert_of_greater hlt hcmp).trans (congrArg _ hins)) hslot
  | whole l' q r' hS hins =>
    exact .whole l' q r' (congrArg _ hS) ((Tree.insert_of_greater hlt hcmp).trans (congrArg _ hins))

theorem InsertEnds.less (h : InsertEnds ring r t (.node p, false) l C t') (hlt : (compareKeys ring r p).1 < 18)
    (hcmp : (compareKeys ring r p).2 < 0) : InsertEnds ring r t x (.node l p rr) (.left C p rr) t' := by
  cases h with
  | leaf cmp hS hins hslot =>
    exact .leaf (C := .left C p rr) cmp (congrArg (Tree.node · p rr) hS)
      ((Tree.insert_of_less hlt hcmp).trans (congrArg (Tree.node · p rr) hins)) hslot
  | whole l' q r' hS hins =>
    exact .whole l' q r' (congrArg (Tree.node · p rr) hS)
      ((Tree.insert_of_less hlt hcmp).trans (congrArg (Tree.node · p rr) hins))

theorem ofNat_compareKeys_toNat (ring : Memory) (r p : Pos) :
    (BitVec.ofNat 5 (compareKeys ring r p).1).toNat = (compareKeys ring r p).1 := by
  have := compareKeys_fst_le ring r p
  rw [BitVec.toNat_ofNat]
  omega

theorem Match.improve_len (ring : Memory) (r : Pos) (m : Match) (p : Pos) :
    (m.improve ring r p).len.toNat = max m.len.toNat (compareKeys ring r p).1 := by
  unfold improve
  split
  · next h => rw [ofNat_compareKeys_toNat, max_eq_right h.le]
  · next h => rw [max_eq_left (not_lt.1 h)]

/-- One look of the search loop at a node: it stops where the whole key is equal, and else goes on with the match
improved. -/
theorem insertLoop_succ (h : t.child cmp x.1 = some p) (hm : m.len.toNat < 18) :
    insertLoop ring r t (n + 1) x.1 cmp m =
      if 18 ≤ (compareKeys ring r p).1 then .ok (t.replace r p, m.improve ring r p)
      else insertLoop ring r t n (.node p) (compareKeys ring r p).2 (m.improve ring r p) := by
  simp only [insertLoop, h, Match.improve]
  by_cases hw : 18 ≤ (compareKeys ring r p).1
  · rw [if_pos (by omega), if_pos hw, if_pos hw, if_pos (by omega)]
  · rw [if_neg hw, if_neg hw]
    split <;> rfl

/-- The search loop follows the path of a linked tree and never runs out of its counter. -/
theorem insertLoop_ok (h : Linked t x.1 (t.childAt x) S) (hcmp : x.2 = decide (0 ≤ cmp)) (hn : S.inorder.length < n)
    (hm : m.len.toNat < 18) : ∃ t' C, InsertEnds ring r t x S C t' ∧
      insertLoop ring r t n x.1 cmp m = .ok (t', (S.path ring r).foldl (Match.improve ring r) m) := by
  have hchild : t.child cmp x.1 = t.childAt x := by rw [Links.child_eq, ← hcmp]
  induction S using Tree.searchInduction ring r generalizing x n cmp m with
  | leaf =>
    obtain _ | n := n
    · exact absurd hn (Nat.not_lt_zero _)
    · refine ⟨_, .hole, .leaf cmp rfl rfl hcmp, ?_⟩
      rw [linked_leaf] at h
      simp [insertLoop, hchild, h, Tree.path, Surround.slot]
  | whole l p rr hw =>
    obtain _ | n := n
    · exact absurd hn (Nat.not_lt_zero _)
    · rw [(linked_node.1 h).1] at hchild
      refine ⟨_, .hole, .whole l p rr rfl (Tree.insert_of_whole hw), ?_⟩
      rw [insertLoop_succ hchild hm, if_pos hw, Tree.path_of_whole hw]
      rfl
  | greater l p rr hlt hc ih =>
    obtain _ | n := n
    · exact absurd hn (Nat.not_lt_zero _)
    · obtain ⟨hp, -, -, hrr⟩ := linked_node.1 h
      rw [hp] at hchild
      have hc' : true = decide (0 ≤ (compareKeys ring r p).2) := (decide_eq_true hc).symm
      have hlen : rr.inorder.length < n := by
        simp only [Tree.inorder_node, List.length_append, List.length_cons] at hn
        omega
      have hm' : (m.improve ring r p).len.toNat < 18 := by rw [Match.improve_len]; omega
      obtain ⟨t', C, hC, hloop⟩ := ih (x := (.node p, true)) hrr hc' hlen hm' (by rw [Links.child_eq, ← hc'])
      refine ⟨t', _, hC.greater hlt hc, ?_⟩
      rw [insertLoop_succ hchild hm, if_neg (not_le.2 hlt), Tree.path_of_greater hlt hc]
      exact hloop
  | less l p rr hlt hc ih =>
    obtain _ | n := n
    · exact absurd hn (Nat.not_lt_zero _)
    · obtain ⟨hp, -, hl, -⟩ := linked_node.1 h
      rw [hp] at hchild
      have hc' : false = decide (0 ≤ (compareKeys ring r p).2) := (decide_eq_false (not_le.2 hc)).symm
      have hlen : l.inorder.length < n := by
        simp only [Tree.inorder_node, List.length_append, List.length_cons] at hn
        omega
      have hm' : (m.improve ring r p).len.toNat < 18 := by rw [Match.improve_len]; omega
      obtain ⟨t', C, hC, hloop⟩ := ih (x := (.node p, false)) hl hc' hlen hm' (by rw [Links.child_eq, ← hc'])
      refine ⟨t', _, hC.less hlt hc, ?_⟩
      rw [insertLoop_succ hchild hm, if_neg (not_le.2 hlt), Tree.path_of_less hlt hc]
      exact hloop

end

/-! ## INSERT_NODE keeps the forest -/

/-- A list of different ring positions has at most N of them. -/
theorem length_le_of_nodup {ps : List Pos} (h : ps.Nodup) : ps.length ≤ 4096 := by
  have hmap : (ps.map BitVec.toFin).Nodup := h.map fun a b hab => BitVec.eq_of_toFin_eq hab
  simpa using hmap.length_le_card

/-- The children of r cleared before the search (40_lzss_encoder.md R103). -/
theorem clear_eq (t : Links) (r : Pos) : (t.setRson (.node r) none).setLson (.node r) none =
    (t.setChild (.node r, true) none).setChild (.node r, false) none := rfl

section
variable {ring : Memory} {r p : Pos} {t : Links} {T : Byte → Tree}

theorem edited_clear (t : Links) (r : Pos) :
    t.Edited ((t.setRson (.node r) none).setLson (.node r) none) none [r] := by
  rw [clear_eq]
  exact ((Links.Edited.refl t _ _).setChild (by simp) _ _).setChild (by simp) _ _

theorem childAt_clear (t : Links) (r : Pos) (b : Bool) :
    ((t.setRson (.node r) none).setLson (.node r) none).childAt (.node r, b) = none := by
  cases b <;> simp [clear_eq, Links.childAt_setChild]

theorem Forest.clear (h : Forest ring t T) (hr : ∀ c, r ∉ (T c).inorder) :
    Forest ring ((t.setRson (.node r) none).setLson (.node r) none) T where
  linked c := by
    have he := edited_clear t r
    have hroot := he.child (rootSlot c) nofun (by simp)
    rw [Links.getRson_eq, hroot]
    exact (h.linked c).of_edited he nofun fun p hp => by
      rw [List.mem_singleton]; rintro rfl; exact hr c hp
  nodup := h.nodup
  firstByte := h.firstByte
  placed := h.placed
  sorted := h.sorted

theorem Forest.sameByte (h : Forest ring t T) (r : Pos) : (T (ring.read r.toNat)).SameByte ring r :=
  fun p hp => h.firstByte _ p hp

/-- INSERT_NODE(r) of a position in no tree completes, makes Tree.insert of the tree of its first byte and leaves the
match its path gives. -/
theorem Forest.insert (h : Forest ring t T) (hr : ∀ c, r ∉ (T c).inorder) (m : Match) :
    ∃ t', insertLinks ring r t m =
        .ok (t', ((T (ring.read r.toNat)).path ring r).foldl (Match.improve ring r) ⟨0#5, m.pos⟩) ∧
      Forest ring t' (Function.update T (ring.read r.toNat) ((T (ring.read r.toNat)).insert ring r)) := by
  have hF := h.clear hr
  have hsame := h.sameByte r
  have hsorted := Tree.pairwise_insert (R := (· ≤ ·)) (fun _ _ => List.le_of_lt) (fun _ _ _ => List.le_trans) hsame
    (h.sorted _)
  have hnodup := Tree.nodup_insert (ring := ring) (h.nodup _) (hr (ring.read r.toNat))
  have hbyte : ∀ p ∈ ((T (ring.read r.toNat)).insert ring r).inorder, ring.read p.toNat = ring.read r.toNat := by
    intro p hp
    obtain rfl | hp := Tree.mem_of_mem_insert hp
    · rfl
    · exact hsame p hp
  obtain ⟨t', C, hend, hloop⟩ := insertLoop_ok (ring := ring) (r := r) (x := rootSlot (ring.read r.toNat)) (cmp := 1)
    (n := ringSize + 1) (m := ⟨0#5, m.pos⟩) (hF.linked _) rfl (Nat.lt_succ_of_le (length_le_of_nodup (h.nodup _)))
    (by simp)
  refine ⟨t', hloop, ?_⟩
  cases hend with
  | leaf cmp hS hins hslot =>
    have hr' : ∀ p ∈ [r], ∀ c, p ∉ (T c).inorder := by simpa using hr
    have hslotr : (C.slot (rootSlot (ring.read r.toNat))).1 ≠ .node r := by
      refine Surround.slot_fst_ne nofun fun hC => hr (ring.read r.toNat) ?_
      rw [hS, Surround.mem_fill]
      exact .inl hC
    have hx : (C.slot (rootSlot (ring.read r.toNat))) = ((C.slot (rootSlot (ring.read r.toNat))).1, decide (0 ≤ cmp)) :=
      Prod.ext rfl hslot
    rw [hins] at hsorted hnodup hbyte ⊢
    refine hF.refill hS (ps := [r]) ?_ (fun p hp => .inr (hr' p hp)) ?_ hnodup hbyte hsorted ?_ nofun
    · rw [hx]; exact edited_attach _ _ _ _
    · rw [hx]; exact linked_attach (childAt_clear t r) hslotr
    · simp
  | whole l p rr hS hins =>
    obtain ⟨hlinked, hSn, hx, hside⟩ := hF.subtree hS
    have hrS : r ∉ (Tree.node l p rr).inorder := fun hrS => hr (ring.read r.toNat) (by
      rw [hS, Surround.mem_fill]; exact .inr hrS)
    have hslotr : (C.slot (rootSlot (ring.read r.toNat))).1 ≠ .node r := by
      refine Surround.slot_fst_ne nofun fun hC => hr (ring.read r.toNat) ?_
      rw [hS, Surround.mem_fill]
      exact .inl hC
    obtain ⟨hnew, hedit, hgone⟩ := linked_replace hlinked (fun hb => hside hb p (by simp)) hSn hx hrS hslotr
    rw [hins] at hsorted hnodup hbyte ⊢
    refine hF.refill hS hedit (fun q hq => ?_) hnew hnodup hbyte hsorted (fun q hq hq' => ?_) fun q hq _ => ?_
    · obtain rfl | hq := List.mem_cons.1 hq
      · exact .inr hr
      · exact .inl hq
    · simp only [Tree.inorder_node, List.mem_append, List.mem_cons] at hq hq'
      have hqp : q = p := by tauto
      rw [hqp]; exact hgone
    · exact List.mem_cons_of_mem _ hq

end

end Sys2Proof.Machine
end

section
/-! The statement of INSERT_NODE on the trees (40_lzss_encoder.md R101, R103). -/

namespace Sys2Proof.Machine

section
variable {ring : Memory} {r p q : Pos} {S : Tree}

/-- The whole key equal: the comparison's count and the keys say the same. -/
theorem Tree.SameByte.whole_iff (hb : S.SameByte ring r) (hp : p ∈ S.inorder) :
    18 ≤ (compareKeys ring r p).1 ↔ keyAt ring p = keyAt ring r := compareKeys_whole_iff (hb p hp)

theorem Tree.keyAt_eq_of_leaves (hb : S.SameByte ring r) (hS : S.inorder.Nodup) (hp : p ∈ S.inorder)
    (hp' : p ∉ (S.insert ring r).inorder) : keyAt ring p = keyAt ring r := by
  by_cases h : ∃ q ∈ S.path ring r, 18 ≤ (compareKeys ring r q).1
  · obtain ⟨q, hq, hw⟩ := h
    rw [mem_insert_of_whole hS hq hw, not_or, not_and, not_not] at hp'
    rw [hp'.2 hp]
    exact (hb.whole_iff (mem_inorder_of_mem_path hq)).1 hw
  · push Not at h
    exact absurd (mem_insert_of_not_whole h hp) hp'

/-- A walk without equal keys has one node for each key. -/
theorem eq_of_keyAt_eq {ps : List Pos} (h : ps.Pairwise fun p q => keyAt ring p ≠ keyAt ring q) (hp : p ∈ ps)
    (hq : q ∈ ps) (hkey : keyAt ring p = keyAt ring q) : p = q :=
  List.inj_on_of_nodup_map (List.pairwise_map.2 h) hp hq hkey

theorem ne_of_keyAt_lt (h : keyAt ring p < keyAt ring q) : keyAt ring p ≠ keyAt ring q := by
  intro he
  rw [he] at h
  exact List.lt_irrefl _ h

/-- Keys that are distinct stay distinct: the walk stays strictly ordered. -/
theorem Tree.distinct_insert (hb : S.SameByte ring r)
    (hsorted : S.inorder.Pairwise fun p q => keyAt ring p ≤ keyAt ring q)
    (hdistinct : S.inorder.Pairwise fun p q => keyAt ring p ≠ keyAt ring q) :
    (S.insert ring r).inorder.Pairwise fun p q => keyAt ring p ≠ keyAt ring q := by
  have hstrict := hsorted.imp₂ (fun _ _ hle hne => Std.lt_of_le_of_ne hle hne) hdistinct
  exact (pairwise_insert (R := (· < ·)) (fun _ _ => id) (fun _ _ _ => List.lt_trans) hb hstrict).imp ne_of_keyAt_lt

end

section
variable {ring : Memory} {r p q : Pos} {t t' : Links} {T : Byte → Tree} {c : Byte}

/-- The trees after INSERT_NODE(r). -/
abbrev insertTrees (ring : Memory) (r : Pos) (T : Byte → Tree) : Byte → Tree :=
  Function.update T (ring.read r.toNat) ((T (ring.read r.toNat)).insert ring r)

theorem insertTrees_self (ring : Memory) (r : Pos) (T : Byte → Tree) :
    insertTrees ring r T (ring.read r.toNat) = (T (ring.read r.toNat)).insert ring r := Function.update_self ..

theorem insertTrees_of_ne (h : c ≠ ring.read r.toNat) : insertTrees ring r T c = T c := Function.update_of_ne h ..

theorem mem_insertTrees_self (ring : Memory) (r : Pos) (T : Byte → Tree) :
    r ∈ (insertTrees ring r T (ring.read r.toNat)).inorder := by
  rw [insertTrees_self]
  exact Tree.mem_insert_self ring r _

theorem mem_of_mem_insertTrees (h : p ∈ (insertTrees ring r T c).inorder) : p = r ∨ p ∈ (T c).inorder := by
  by_cases hc : c = ring.read r.toNat
  · subst hc
    rw [insertTrees_self] at h
    exact Tree.mem_of_mem_insert h
  · rw [insertTrees_of_ne hc] at h
    exact .inr h

theorem Forest.keyAt_eq_of_leaves (h : Forest ring t T) (hp : p ∈ (T c).inorder)
    (hp' : p ∉ (insertTrees ring r T c).inorder) : keyAt ring p = keyAt ring r := by
  by_cases hc : c = ring.read r.toNat
  · subst hc
    rw [insertTrees_self] at hp'
    exact Tree.keyAt_eq_of_leaves (h.sameByte r) (h.nodup _) hp hp'
  · rw [insertTrees_of_ne hc] at hp'
    exact absurd hp hp'

/-- A node with r's whole key that the search meets is the one that leaves. -/
theorem Forest.mem_insertTrees_of_whole (h : Forest ring t T)
    (hp : p ∈ (T (ring.read r.toNat)).path ring r) (hkey : keyAt ring p = keyAt ring r) :
    q ∈ (insertTrees ring r T (ring.read r.toNat)).inorder ↔
      q = r ∨ (q ∈ (T (ring.read r.toNat)).inorder ∧ q ≠ p) := by
  rw [insertTrees_self]
  exact Tree.mem_insert_of_whole (h.nodup _) hp
    (((h.sameByte r).whole_iff (Tree.mem_inorder_of_mem_path hp)).2 hkey)

/-- Settles O34: the search follows the path of the tree, and its end replaces one subtree. -/
theorem insertKeepsTheForest : Obligations.InsertKeepsTheForest := by
  intro ring r t m T h hr
  obtain ⟨t', hok, h'⟩ := h.insert hr m
  refine ⟨t', _, insertTrees ring r T, hok, h', insertTrees_self ring r T, fun c hc => insertTrees_of_ne hc,
    mem_insertTrees_self ring r T, fun c p => mem_of_mem_insertTrees, fun c p => h.keyAt_eq_of_leaves,
    fun p hp hkey => ?met, fun hnone c q hq => ?none, fun hdistinct => ?distinct⟩
  case met =>
    have hpT := Tree.mem_inorder_of_mem_path hp
    have hpr : p ≠ r := fun he => hr _ (he ▸ hpT)
    have hgone : ∀ c, p ∉ (insertTrees ring r T c).inorder := by
      intro c hc
      obtain rfl := h'.firstByte c p hc
      rw [h.firstByte _ p hpT, h.mem_insertTrees_of_whole hp hkey] at hc
      exact hc.elim hpr fun hc => hc.2 rfl
    refine ⟨hgone, h'.getDad_eq_nil hgone, fun c q hq hqp => ?_⟩
    by_cases hc : c = ring.read r.toNat
    · subst hc
      exact (h.mem_insertTrees_of_whole hp hkey).2 (.inr ⟨hq, hqp⟩)
    · rwa [insertTrees_of_ne hc]
  case none =>
    by_cases hc : c = ring.read r.toNat
    · subst hc
      rw [insertTrees_self]
      refine Tree.mem_insert_of_not_whole (fun p hp => not_le.1 fun hw => hnone p hp ?_) hq
      exact ((h.sameByte r).whole_iff (Tree.mem_inorder_of_mem_path hp)).1 hw
    · rwa [insertTrees_of_ne hc]
  case distinct =>
    have hdistinct' : ∀ c, (insertTrees ring r T c).inorder.Pairwise fun p q => keyAt ring p ≠ keyAt ring q := by
      intro c
      by_cases hc : c = ring.read r.toNat
      · subst hc
        rw [insertTrees_self]
        exact Tree.distinct_insert (h.sameByte r) (h.sorted _) (hdistinct _)
      · rw [insertTrees_of_ne hc]
        exact hdistinct c
    refine ⟨fun c p hp hkey => ?_, hdistinct'⟩
    have hc := (h'.firstByte c p hp).symm.trans (keyAt_firstByte hkey)
    subst hc
    exact eq_of_keyAt_eq (hdistinct' _) hp (mem_insertTrees_self ring r T) hkey

end

/-! ## The match (40_lzss_encoder.md R103, R115) -/

section
variable {ring : Memory} {r p : Pos} {m : Match} {S : Tree} {ps : List Pos}

/-- The match after a search is no shorter than any node it met, and where it is longer than before, it is the first
node of its length. -/
theorem foldl_improve (ring : Memory) (r : Pos) (m : Match) (ps : List Pos) :
    m.len.toNat ≤ (ps.foldl (Match.improve ring r) m).len.toNat ∧
    (∀ p ∈ ps, (compareKeys ring r p).1 ≤ (ps.foldl (Match.improve ring r) m).len.toNat) ∧
    (ps.foldl (Match.improve ring r) m = m ∨
      ∃ before p rest, ps = before ++ p :: rest ∧ (ps.foldl (Match.improve ring r) m).pos = p ∧
        (ps.foldl (Match.improve ring r) m).len.toNat = (compareKeys ring r p).1 ∧
        m.len.toNat < (compareKeys ring r p).1 ∧
        ∀ q ∈ before, (compareKeys ring r q).1 < (compareKeys ring r p).1) := by
  induction ps generalizing m with
  | nil => simp
  | cons p ps ih =>
    obtain ⟨hge, hall, hfirst⟩ := ih (m.improve ring r p)
    have hlen := Match.improve_len ring r m p
    rw [List.foldl_cons]
    refine ⟨by omega, List.forall_mem_cons.2 ⟨by omega, hall⟩, ?_⟩
    obtain heq | ⟨before, q, rest, rfl, hpos, hq, hlt, hbefore⟩ := hfirst
    · rw [heq]
      unfold Match.improve
      split
      · next h =>
        exact .inr ⟨[], p, ps, rfl, rfl, ofNat_compareKeys_toNat ring r p, h, nofun⟩
      · exact .inl rfl
    · refine .inr ⟨p :: before, q, rest, rfl, hpos, hq, by omega, List.forall_mem_cons.2 ⟨by omega, hbefore⟩⟩

/-- No node of an ordered tree agrees with r in more bytes than every node on the search path does: at a node the search
leaves the side on which no key is closer. -/
theorem Tree.exists_path_ge (hb : S.SameByte ring r)
    (hsorted : S.inorder.Pairwise fun p q => keyAt ring p ≤ keyAt ring q) (hp : p ∈ S.inorder) :
    ∃ q ∈ S.path ring r, (compareKeys ring r p).1 ≤ (compareKeys ring r q).1 := by
  induction S using Tree.searchInduction ring r with
  | leaf => cases hp
  | whole l q rr hw =>
    exact ⟨q, by simp [path_of_whole hw], (compareKeys_fst_le ring r p).trans hw⟩
  | greater l q rr hlt hcmp ih =>
    obtain ⟨hbl, hbq, hbr⟩ := hb.parts
    obtain ⟨-, hrr, hlq, -, -⟩ := pairwise_node.1 hsorted
    rw [path_of_greater hlt hcmp]
    simp only [inorder_node, List.mem_append, List.mem_cons] at hp
    obtain hp | rfl | hp := hp
    · exact ⟨q, by simp, compareKeys_fst_le_of_le_of_lt (hbl p hp) hbq (hlq p hp) hcmp hlt⟩
    · exact ⟨p, by simp, le_rfl⟩
    · obtain ⟨q', hq', hle⟩ := ih hbr hrr hp
      exact ⟨q', List.mem_cons_of_mem _ hq', hle⟩
  | less l q rr hlt hcmp ih =>
    obtain ⟨hbl, hbq, hbr⟩ := hb.parts
    obtain ⟨hl, -, -, hqr, -⟩ := pairwise_node.1 hsorted
    rw [path_of_less hlt hcmp]
    simp only [inorder_node, List.mem_append, List.mem_cons] at hp
    obtain hp | rfl | hp := hp
    · obtain ⟨q', hq', hle⟩ := ih hbl hl hp
      exact ⟨q', List.mem_cons_of_mem _ hq', hle⟩
    · exact ⟨p, by simp, le_rfl⟩
    · exact ⟨q, by simp, compareKeys_fst_le_of_ge_of_gt (hbr p hp) hbq (hqr p hp) hcmp hlt⟩

theorem Tree.path_ne_nil (h : S.inorder ≠ []) : S.path ring r ≠ [] := by
  cases S with
  | leaf => exact absurd rfl h
  | node l p rr => exact List.cons_ne_nil _ _

end

section
variable {ring : Memory} {r : Pos} {t t' : Links} {m m' : Match} {T : Byte → Tree}

/-- The match INSERT_NODE(r) leaves is that of its search path. -/
theorem Forest.insertLinks_match (h : Forest ring t T) (hr : ∀ c, r ∉ (T c).inorder)
    (hok : insertLinks ring r t m = .ok (t', m')) :
    m' = ((T (ring.read r.toNat)).path ring r).foldl (Match.improve ring r) ⟨0#5, m.pos⟩ := by
  obtain ⟨t1, hok1, -⟩ := h.insert hr m
  rw [hok1] at hok
  cases hok
  rfl

/-- Settles O36: the search improves the match at every node it meets, and no node off its path agrees in more
bytes. -/
theorem insertFindsALongestMatch : Obligations.InsertFindsALongestMatch := by
  intro ring r t t' m m' T h hr hok
  obtain ⟨-, hall, hfirst⟩ := foldl_improve ring r ⟨0#5, m.pos⟩ ((T (ring.read r.toNat)).path ring r)
  rw [← h.insertLinks_match hr hok] at hall hfirst
  refine ⟨fun p hp => ?_, fun hne => ?_⟩
  · obtain ⟨q, hq, hle⟩ := Tree.exists_path_ge (h.sameByte r) (h.sorted _) hp
    exact hle.trans (hall q hq)
  · obtain heq | ⟨before, p, rest, hpath, rfl, hlen, -, hbefore⟩ := hfirst
    · obtain ⟨p, hp⟩ := List.exists_mem_of_ne_nil _ (Tree.path_ne_nil (ring := ring) (r := r) hne)
      have hpos := (compareKeys_fst_pos ring r p).trans (hall p hp)
      rw [heq] at hpos
      exact absurd hpos (by simp)
    · have hmem := Tree.mem_inorder_of_mem_path (hpath ▸ List.mem_append_right before List.mem_cons_self)
      exact ⟨hmem, hlen.symm, before, rest, hpath, fun q hq => hlen ▸ hbefore q hq⟩

/-- MLEN is at most F after INSERT_NODE, whatever the link arrays hold (10_state.md R29). -/
theorem insertLoop_len {n : Nat} {i : Link} {cmp : Int} (hm : m.len.toNat ≤ 18)
    (h : insertLoop ring r t n i cmp m = .ok (t', m')) : m'.len.toNat ≤ 18 := by
  induction n generalizing i cmp m with
  | zero => cases h
  | succ n ih =>
    simp only [insertLoop] at h
    split at h
    · cases h; exact hm
    · next p hp =>
      have hlen : (BitVec.ofNat 5 (compareKeys ring r p).1).toNat ≤ 18 := by
        rw [ofNat_compareKeys_toNat]; exact compareKeys_fst_le ring r p
      split at h
      · split at h
        · cases h; exact hlen
        · exact ih hlen h
      · exact ih hm h

theorem insertLinks_len (h : insertLinks ring r t m = .ok (t', m')) : m'.len.toNat ≤ 18 :=
  insertLoop_len (Nat.zero_le _) h

/-- Settles O37: MPOS is a node of the tree of r's first byte, which agrees with r in MLEN bytes; in an empty tree
MLEN is 0. -/
theorem matchAgreesWithTheLookAhead : Obligations.MatchAgreesWithTheLookAhead := by
  intro ring r t t' m m' T h hr hok
  refine ⟨insertLinks_len hok, fun i hi => ?_⟩
  obtain ⟨-, hfound⟩ := insertFindsALongestMatch ring r t t' m m' T h hr hok
  by_cases hne : (T (ring.read r.toNat)).inorder = []
  · have hempty : T (ring.read r.toNat) = .leaf := by
      cases hT : T (ring.read r.toNat) with
      | leaf => rfl
      | node l p rr => rw [hT] at hne; simp at hne
    have hm := h.insertLinks_match hr hok
    rw [hempty] at hm
    rw [hm] at hi
    exact absurd hi (Nat.not_lt_zero i)
  · obtain ⟨hmem, hlen, -⟩ := hfound hne
    exact (compareKeys_agrees (h.sameByte r _ hmem) (hlen ▸ hi)).symm

end

/-- Settles O33: the search loop looks at the root and finds its slot empty. -/
theorem insertIntoEmptyTreeFindsNothing : Obligations.InsertIntoEmptyTreeFindsNothing := by
  intro r e hempty
  have hchild : ((e.links.setRson (.node r) none).setLson (.node r) none).child 1 (.root (e.ebuf.read r.toNat)) =
      none := by
    simpa [Links.child, Links.getRson_setRson] using hempty
  have hok : insertNode r e = .ok { e with
      links := ((e.links.setRson (.node r) none).setLson (.node r) none).attach 1 (.root (e.ebuf.read r.toNat)) r
      best := ⟨0#5, e.best.pos⟩ } := by
    simp [insertNode, insertLinks, insertLoop, hchild]
  refine ⟨_, hok, rfl, rfl, fun i => ?_, fun i => ?_, fun i => ?_⟩
  · simp [Links.attach, Links.getLson_setLson]
  · simp [Links.attach, Links.getRson_setRson]
  · simp [Links.attach, Links.getDad_setDad]

end Sys2Proof.Machine
end

section
/-! DELETE_NODE: on the trees as values and on the link arrays (40_lzss_encoder.md R104). -/

namespace Sys2Proof.Machine

/-! ## Trees as values -/

theorem Tree.delete_of_not_mem {p : Pos} {S : Tree} (h : p ∉ S.inorder) : S.delete p = S := by
  induction S with
  | leaf => rfl
  | node l q r ihl ihr =>
    simp only [inorder_node, List.mem_append, List.mem_cons, not_or] at h
    obtain ⟨hl, hq, hr⟩ := h
    rw [Tree.delete, if_neg fun he => hq he.symm, ihl hl, ihr hr]

/-- Deletion replaces the subtree of p. -/
theorem Tree.exists_delete {p : Pos} {S : Tree} (hS : S.inorder.Nodup) (hp : p ∈ S.inorder) :
    ∃ C l r, S = Surround.fill C (.node l p r) ∧ S.delete p = C.fill (Tree.join l r) := by
  induction S with
  | leaf => cases hp
  | node l q r ihl ihr =>
    obtain ⟨hl, hr, hql, hqr, hdisj⟩ := nodup_node.1 hS
    by_cases hq : q = p
    · subst hq
      exact ⟨.hole, l, r, rfl, if_pos rfl⟩
    · simp only [inorder_node, List.mem_append, List.mem_cons, Ne.symm hq, false_or] at hp
      rw [Tree.delete, if_neg hq]
      obtain hp | hp := hp
      · obtain ⟨C, l', r', rfl, hdel⟩ := ihl hl hp
        exact ⟨.left C q r, l', r', rfl, by rw [hdel, delete_of_not_mem (hdisj p hp)]; rfl⟩
      · obtain ⟨C, l', r', rfl, hdel⟩ := ihr hr hp
        exact ⟨.right l q C, l', r', rfl, by
          rw [hdel, delete_of_not_mem fun h => hdisj p h hp]; rfl⟩

/-- The last node in order of a subtree: it is at the end of the right spine, and taking it out moves its left subtree
up. -/
theorem Tree.exists_popLast (S : Tree) (hS : S ≠ .leaf) : ∃ C ql q, S = Surround.fill C (.node ql q .leaf) ∧
    (∀ l p, Tree.popLast l p S = (.node l p (C.fill ql), q)) ∧ ∀ x : Slot, x.2 = true → (C.slot x).2 = true := by
  induction S with
  | leaf => exact absurd rfl hS
  | node l q r _ ihr =>
    by_cases hr : r = .leaf
    · subst hr
      exact ⟨.hole, l, q, rfl, fun _ _ => rfl, fun _ hx => hx⟩
    · obtain ⟨C, ql, q', hr', hpop, hslot⟩ := ihr hr
      refine ⟨.right l q C, ql, q', congrArg _ hr', fun l' p => ?_, fun _ _ => hslot _ rfl⟩
      rw [Tree.popLast, hpop]
      rfl

theorem Tree.join_node (l : Tree) (p : Pos) (r rl : Tree) (q : Pos) (rr : Tree) :
    Tree.join (.node l p r) (.node rl q rr) =
      .node (Tree.popLast l p r).1 (Tree.popLast l p r).2 (.node rl q rr) := rfl

theorem Tree.join_leaf (l : Tree) : Tree.join l .leaf = l := by cases l <;> rfl

/-! ## The steps of DELETE_NODE -/

section
variable {t : Links} {x : Slot} {p q : Pos} {l r ll lr ql S R : Tree} {C : Surround} {i : Link} {c : Option Pos} {b : Bool}

/-- The walk to the right ends at the last node in order and never runs out of its counter. -/
theorem rightmost_ok {n : Nat} (l : Tree) (h : Linked t (.node p) (t.childAt (.node p, true)) r)
    (hn : r.inorder.length < n) : rightmost t n p = .ok (Tree.popLast l p r).2 := by
  induction r generalizing l p n with
  | leaf =>
    obtain _ | n := n
    · exact absurd hn (Nat.not_lt_zero _)
    · rw [linked_leaf] at h
      rw [rightmost, Links.getRson_eq, h]
      rfl
  | node rl q rr _ ih =>
    obtain _ | n := n
    · exact absurd hn (Nat.not_lt_zero _)
    · obtain ⟨hq, -, -, hrr⟩ := linked_node.1 h
      simp only [Tree.inorder_node, List.length_append, List.length_cons] at hn
      rw [rightmost, Links.getRson_eq, hq]
      exact ih rl hrr (by omega)

/-- q takes over one child link of p: RSON is takeRight, LSON the end of liftPredecessor (40_lzss_encoder.md R104). -/
def Links.adopt (t : Links) (p q : Pos) (b : Bool) : Links :=
  (t.setChild (.node q, b) (t.childAt (.node p, b))).setDad (Link.ofChild (t.childAt (.node p, b))) (.node q)

/-- The left subtree of q moves up into the RSON of q's parent: the start of liftPredecessor. -/
def Links.spliceOut (t : Links) (q : Pos) : Links :=
  (t.setChild (t.getDad (.node q), true) (t.childAt (.node q, false))).setDad
    (Link.ofChild (t.childAt (.node q, false))) (t.getDad (.node q))

theorem Links.takeRight_eq (hne : p ≠ q) : t.takeRight p q = t.adopt p q true := by
  simp [takeRight, adopt, setRson_eq, getRson_eq, childAt_setChild, hne]

theorem Links.liftPredecessor_eq (hne : p ≠ q) : t.liftPredecessor p q = (t.spliceOut q).adopt p q false := by
  simp [liftPredecessor, adopt, spliceOut, setLson_eq, getLson_eq, setRson_eq, childAt_setChild, hne]

theorem childAt_adopt (t : Links) (p q : Pos) (b : Bool) (y : Slot) :
    (t.adopt p q b).childAt y = if y = (.node q, b) then t.childAt (.node p, b) else t.childAt y := by
  simp [Links.adopt, Links.childAt_setChild]

theorem edited_adopt (h : Linked t (.node p) (t.childAt (.node p, b)) S) (o : Option Slot) :
    t.Edited (t.adopt p q b) o (q :: S.inorder) := by
  refine ((Links.Edited.refl t o _).setChild (by simp) _ _).setDad (fun q' hq' => ?_) _
  exact List.mem_cons_of_mem _ (h.mem_of_child (Link.ofChild_eq_node.1 hq'))

theorem linked_adopt (h : Linked t (.node p) (t.childAt (.node p, b)) S) (hS : S.inorder.Nodup)
    (hq : q ∉ S.inorder) : Linked (t.adopt p q b) (.node q) ((t.adopt p q b).childAt (.node q, b)) S := by
  rw [childAt_adopt, if_pos rfl]
  refine h.reparent hS (fun q' hq' b' => ?_) fun q' hq' => ?_
  · have hne : q' ≠ q := fun he => hq (he ▸ hq')
    simp [childAt_adopt, hne]
  · simp [Links.adopt, Links.getDad_setDad]

/-- A tree apart from q and the adopted one stays. -/
theorem Linked.adopt (hR : Linked t i c R) (h : Linked t (.node p) (t.childAt (.node p, b)) S)
    (hq : q ∉ R.inorder) (hdisj : ∀ q' ∈ R.inorder, q' ∉ S.inorder) : Linked (t.adopt p q b) i c R :=
  hR.of_edited (edited_adopt h none) nofun fun q' hq' hmem =>
    (List.mem_cons.1 hmem).elim (fun he => hq (he ▸ hq')) (hdisj q' hq')

/-- Splicing q out of the right spine of a tree leaves the tree without its last node. -/
theorem linked_spliceOut (h : Linked t x.1 (t.childAt x) (.node ll p (C.fill (.node ql q .leaf))))
    (hnodup : (Tree.node ll p (C.fill (.node ql q .leaf))).inorder.Nodup)
    (hC : ∀ x : Slot, x.2 = true → (C.slot x).2 = true)
    (hx : ∀ q' ∈ (Tree.node ll p (C.fill (.node ql q .leaf))).inorder, x.1 ≠ .node q') :
    Linked (t.spliceOut q) x.1 ((t.spliceOut q).childAt x) (.node ll p (C.fill ql)) ∧
      t.Edited (t.spliceOut q) none (Tree.node ll p (C.fill (.node ql q .leaf))).inorder := by
  have hmem : ∀ q', q' ∈ (Tree.node ll p (C.fill (.node ql q .leaf))).inorder ↔
      q' ∈ (Surround.right ll p C).nodes ∨ q' ∈ (Tree.node ql q .leaf).inorder :=
    fun q' => Surround.mem_fill (C := .right ll p C)
  obtain ⟨hSn, hdisj⟩ := Surround.nodup_of_fill (C := .right ll p C) hnodup
  obtain ⟨-, hq⟩ := linked_fill (C := .right ll p C).1 h
  obtain ⟨-, hdad, hql, -⟩ := linked_node.1 hq
  have hqln : ql.inorder.Nodup := (Tree.nodup_node.1 hSn).1
  have hqlmem : ∀ q' ∈ ql.inorder, q' ∈ (Tree.node ql q .leaf).inorder := fun q' hq' => by simp [hq']
  have hslot : (t.getDad (.node q), true) = C.slot (.node p, true) := Prod.ext hdad (hC (.node p, true) rfl).symm
  have hy : ∀ q' ∈ ql.inorder, (C.slot (.node p, true)).1 ≠ .node q' := fun q' hq' =>
    Surround.slot_fst_ne (C := .right ll p C) (x := x) (hx q' ((hmem q').2 (.inr (hqlmem q' hq'))))
      fun hn => hdisj q' hn (hqlmem q' hq')
  have hdads : ∀ q', Link.ofChild (t.childAt (.node q, false)) = .node q' → q' ∈ ql.inorder := fun q' hq' =>
    hql.mem_of_child (Link.ofChild_eq_node.1 hq')
  unfold Links.spliceOut
  rw [hslot]
  constructor
  · refine Linked.refill (C := .right ll p C) (S := .node ql q .leaf) (ps := ql.inorder) h hnodup ?_ ?_ ?_ ?_
    · exact fun q' hq' => hx q' ((hmem q').2 (hq'.imp_right (hqlmem q')))
    · exact ((Links.Edited.refl t _ _).setSlot _).setDad hdads _
    · exact fun q' hq' hq'' => hdisj q' hq' (hqlmem q' hq'')
    · simp only [Links.childAt_setDad, Links.childAt_setChild, Surround.slot, if_true]
      refine hql.reparent hqln (fun q' hq' b => ?_) fun q' hq' => ?_
      · have hne : ((.node q', b) : Slot) ≠ C.slot (.node p, true) := fun he => hy q' hq' (by rw [← he])
        simp [Links.childAt_setChild, hne]
      · simp [Links.getDad_setDad, hdad, Surround.slot]
  · have hparent : ∃ q' ∈ (Surround.right ll p C).nodes, C.slot (.node p, true) = (.node q', true) := by
      obtain h0 | ⟨q', hq', h0⟩ := C.slot_cases (.node p, true)
      · exact ⟨p, by simp [Surround.nodes], h0⟩
      · exact ⟨q', by simp [Surround.nodes, hq'], Prod.ext h0 (hC (.node p, true) rfl)⟩
    obtain ⟨q', hq', h0⟩ := hparent
    rw [h0]
    exact ((Links.Edited.refl t _ _).setChild ((hmem q').2 (.inl hq')) _ _).setDad
      (fun q'' hq'' => (hmem q'').2 (.inr (hqlmem q'' (hdads q'' hq'')))) _

section
variable {a : Pos} (hr : Linked t (.node p) (t.childAt (.node p, true)) r) (hrn : r.inorder.Nodup)
include hr hrn

/-- A left child a without right subtree takes over the right subtree of p. -/
theorem linked_takeRight (hl : Linked t (.node p) (t.childAt (.node p, false)) (.node ll a .leaf))
    (hln : (Tree.node ll a .leaf).inorder.Nodup) (hp : p ∉ (Tree.node ll a .leaf).inorder)
    (hdisj : ∀ q ∈ (Tree.node ll a .leaf).inorder, q ∉ r.inorder) :
    Linked (t.takeRight p a) ((t.takeRight p a).getDad (.node a)) (some a) (.node ll a r) ∧
      t.Edited (t.takeRight p a) none ((Tree.node ll a .leaf).inorder ++ r.inorder) := by
  obtain ⟨-, -, hll, -⟩ := linked_node.1 hl
  simp only [Tree.inorder_node, Tree.inorder_leaf, List.mem_append, List.mem_singleton, not_or] at hp hdisj
  rw [Links.takeRight_eq hp.2]
  refine ⟨linked_node.2 ⟨rfl, rfl, ?_, linked_adopt hr hrn (hdisj a (.inr rfl))⟩, (edited_adopt hr none).mono ?_⟩
  · rw [childAt_adopt, if_neg (by simp)]
    exact hll.adopt hr (Tree.nodup_node.1 hln).2.2.1 fun q hq => hdisj q (.inl hq)
  · exact List.cons_subset.2 ⟨by simp, List.subset_append_right _ _⟩

/-- The last node q of the left subtree L of p, spliced out of it, takes over both subtrees of p. -/
theorem linked_liftPredecessor {L L' : Tree}
    (hl : Linked (t.spliceOut q) (.node p) ((t.spliceOut q).childAt (.node p, false)) L')
    (hedit : t.Edited (t.spliceOut q) none L.inorder) (hwalk : L'.inorder ++ [q] = L.inorder) (hln : L.inorder.Nodup)
    (hp : p ∉ L.inorder) (hdisj : ∀ q' ∈ L.inorder, q' ∉ r.inorder) :
    Linked ((t.liftPredecessor p q).takeRight p q) (((t.liftPredecessor p q).takeRight p q).getDad (.node q)) (some q)
        (.node L' q r) ∧
      t.Edited ((t.liftPredecessor p q).takeRight p q) none (L.inorder ++ r.inorder) := by
  have hmem : ∀ q', q' ∈ L.inorder ↔ q' ∈ L'.inorder ∨ q' = q := fun q' => by rw [← hwalk]; simp
  have hqL := (hmem q).2 (.inr rfl)
  have hL' : L'.inorder ⊆ L.inorder := fun q' hq' => (hmem q').2 (.inl hq')
  have hqr : q ∉ r.inorder := hdisj q hqL
  have hne : p ≠ q := fun he => hp (he ▸ hqL)
  rw [← hwalk, List.nodup_append] at hln
  obtain ⟨hln', -, hqL'⟩ := hln
  have hqL' : q ∉ L'.inorder := fun h => hqL' q h q (by simp) rfl
  have hr2 : Linked (t.spliceOut q) (.node p) ((t.spliceOut q).childAt (.node p, true)) r := by
    rw [hedit.child (.node p, true) nofun (by rintro q' hq' ⟨⟩; exact hp hq')]
    exact hr.of_edited hedit nofun fun q' hq' h => hdisj q' h hq'
  have hr3 : Linked ((t.spliceOut q).adopt p q false) (.node p)
      (((t.spliceOut q).adopt p q false).childAt (.node p, true)) r := by
    rw [childAt_adopt, if_neg (by simp)]
    exact hr2.adopt hl hqr fun q' hq' h => hdisj q' (hL' h) hq'
  rw [Links.takeRight_eq hne, Links.liftPredecessor_eq hne]
  constructor
  · refine linked_node.2 ⟨rfl, rfl, ?_, linked_adopt hr3 hrn hqr⟩
    rw [childAt_adopt, if_neg (by simp)]
    exact (linked_adopt hl hln' hqL').adopt hr3 hqL' fun q' hq' => hdisj q' (hL' hq')
  · refine ((hedit.mono (List.subset_append_left _ _)).trans ((edited_adopt hl none).mono ?_)).trans
      ((edited_adopt hr3 none).mono ?_)
    · exact List.cons_subset.2 ⟨List.mem_append_left _ hqL, List.subset_append_of_subset_left _ hL'⟩
    · exact List.cons_subset.2 ⟨List.mem_append_left _ hqL, List.subset_append_right _ _⟩

end

/-- DELETE_NODE(p) first joins the subtrees of p, below whatever parent, and then hangs the result in the place of p. -/
theorem deleteLinks_ok (h : Linked t x.1 (t.childAt x) (.node l p r)) (hnodup : (Tree.node l p r).inorder.Nodup)
    (hroot : x.1 ≠ .nil) : ∃ t' i c, deleteLinks p t = .ok (t'.unlink p c) ∧ Linked t' i c (Tree.join l r) ∧
      t.Edited t' none (l.inorder ++ r.inorder) := by
  obtain ⟨-, hdad, hl, hr⟩ := linked_node.1 h
  obtain ⟨hln, hrn, hpl, hpr, hdisj⟩ := Tree.nodup_node.1 hnodup
  have hnil : t.getDad (.node p) ≠ .nil := hdad ▸ hroot
  rw [deleteLinks, if_neg hnil]
  simp only [Links.getRson_eq, Links.getLson_eq]
  cases r with
  | leaf =>
    rw [linked_leaf] at hr
    rw [hr, Tree.join_leaf]
    exact ⟨t, _, _, rfl, hl, Links.Edited.refl _ _ _⟩
  | node rl q rr =>
    have hq := (linked_node.1 hr).1
    cases l with
    | leaf =>
      rw [linked_leaf] at hl
      rw [hl, hq]
      exact ⟨t, _, _, rfl, hq ▸ hr, Links.Edited.refl _ _ _⟩
    | node ll a lr =>
      obtain ⟨ha, -, -, hlr⟩ := linked_node.1 hl
      rw [ha, hq]
      simp only
      by_cases hleaf : lr = .leaf
      · subst hleaf
        rw [linked_leaf] at hlr
        rw [hlr]
        obtain ⟨hlinked, hedit⟩ := linked_takeRight hr hrn hl hln hpl hdisj
        exact ⟨_, _, _, rfl, hlinked, hedit⟩
      · obtain ⟨C, ql, q', rfl, hpop, hC⟩ := Tree.exists_popLast lr hleaf
        obtain ⟨b, hb⟩ : ∃ b, t.childAt (.node a, true) = some b := by
          cases hlr' : C.fill (.node ql q' .leaf) with
          | leaf => exact absurd hlr' hleaf
          | node l1 b r1 => rw [hlr'] at hlr; exact ⟨b, (linked_node.1 hlr).1⟩
        have hlen : (C.fill (.node ql q' .leaf)).inorder.length < ringSize + 1 :=
          Nat.lt_succ_of_le (length_le_of_nodup (Tree.nodup_node.1 hln).2.1)
        have hwalk := Tree.inorder_popLast ll a (C.fill (.node ql q' .leaf))
        have hpl' : ∀ q'' ∈ (Tree.node ll a (C.fill (.node ql q' .leaf))).inorder, Link.node p ≠ .node q'' := by
          rintro q'' hq'' ⟨⟩
          exact hpl hq''
        obtain ⟨hsplice, hedit⟩ := linked_spliceOut (x := (.node p, false)) hl hln hC hpl'
        rw [hpop] at hwalk
        obtain ⟨hlinked, hedit⟩ := linked_liftPredecessor hr hrn hsplice hedit hwalk hln hpl hdisj
        have hjoin : Tree.join (.node ll a (C.fill (.node ql q' .leaf))) (.node rl q rr) =
            .node (.node ll a (C.fill ql)) q' (.node rl q rr) := by rw [Tree.join_node, hpop]
        rw [hb, rightmost_ok ll hlr hlen, hpop, hjoin]
        exact ⟨_, _, _, rfl, hlinked, hedit⟩

end

/-! ## DELETE_NODE keeps the forest -/

section
variable {ring : Memory} {p : Pos} {t : Links} {T : Byte → Tree} {c : Byte}

theorem Surround.rootSlot_ne_nil (C : Surround) (c : Byte) : (C.slot (rootSlot c)).1 ≠ .nil := by
  obtain h | ⟨q, -, h⟩ := C.slot_cases (rootSlot c) <;> rw [h] <;> nofun

/-- DELETE_NODE(p) of a node completes and makes Tree.delete of its tree. -/
theorem Forest.delete (h : Forest ring t T) (hp : p ∈ (T c).inorder) :
    ∃ t', deleteLinks p t = .ok t' ∧ Forest ring t' (Function.update T c ((T c).delete p)) := by
  obtain ⟨C, l, r, hS, hdel⟩ := Tree.exists_delete (h.nodup c) hp
  obtain ⟨hlinked, hSn, hx, hside⟩ := h.subtree hS
  obtain ⟨t1, i, q, hok, hjoin, hedit⟩ := deleteLinks_ok hlinked hSn (C.rootSlot_ne_nil c)
  obtain ⟨hln, hrn, hpl, hpr, hdisj⟩ := Tree.nodup_node.1 hSn
  have hmem : ∀ q, q ∈ (Tree.join l r).inorder ↔ q ∈ l.inorder ++ r.inorder := fun q => by rw [Tree.inorder_join]
  have hsub : l.inorder ++ r.inorder ⊆ (Tree.node l p r).inorder := fun q hq => by
    simp only [Tree.inorder_node, List.mem_append, List.mem_cons] at hq ⊢
    exact hq.imp_right .inr
  have hjn : (Tree.join l r).inorder.Nodup := by
    rw [Tree.inorder_join, List.nodup_append]
    exact ⟨hln, hrn, fun q hq q' hq' he => hdisj q hq (he ▸ hq')⟩
  have hpj : p ∉ (Tree.join l r).inorder := by simp [hmem, hpl, hpr]
  have hxj : ∀ q ∈ (Tree.join l r).inorder, (C.slot (rootSlot c)).1 ≠ .node q := fun q hq =>
    hx q (hsub ((hmem q).1 hq))
  have hp1 : t1.HangsOn p (C.slot (rootSlot c)) := hedit.hangsOn
    (hangsOn_of_linked hlinked fun hb => hside hb p (by simp)) (fun h => hpj ((hmem p).2 h))
    fun q hq => hx q (hsub hq)
  have hwalk := Tree.inorder_delete (p := p) (h.nodup c)
  have hsublist : ((T c).delete p).inorder.Sublist (T c).inorder := by rw [hwalk]; exact List.filter_sublist
  have hsorted := (h.sorted c).sublist hsublist
  have hnodup := (h.nodup c).sublist hsublist
  have hbyte := fun q hq => h.firstByte c q (hsublist.subset hq)
  refine ⟨_, hok, ?_⟩
  rw [hdel] at hsorted hnodup hbyte ⊢
  refine h.refill (ps := (Tree.node l p r).inorder) hS ?_ (fun q hq => .inl hq) (linked_unlink hp1 hjoin hjn hpj hxj)
    hnodup hbyte hsorted (fun q hq hq' => ?_) fun q hq _ => hq
  · refine ((hedit.mono_slot _).mono hsub).trans ((edited_unlink hp1 hjoin hpj).mono ?_)
    exact List.cons_subset.2 ⟨by simp, fun q hq => hsub ((hmem q).1 hq)⟩
  · rw [hmem] at hq'
    simp only [Tree.inorder_node, List.mem_append, List.mem_cons] at hq hq'
    have hqp : q = p := by tauto
    rw [hqp]
    exact getDad_detach _ _ _

/-- Settles O35: the subtree of p is replaced by what joins its two subtrees. -/
theorem deleteRemovesExactlyTheNode : Obligations.DeleteRemovesExactlyTheNode := by
  intro ring p t T c h hp
  obtain ⟨t', hok, h'⟩ := h.delete hp
  have hwalk := Tree.inorder_delete (p := p) (h.nodup c)
  refine ⟨t', _, hok, h', Function.update_self .., ?_, fun c' hc' => Function.update_of_ne hc' .., ?_⟩
  · rw [Function.update_self, hwalk]
  · refine h'.getDad_eq_nil fun c' hc' => ?_
    by_cases hc : c' = c
    · subst hc
      rw [Function.update_self, hwalk] at hc'
      simp at hc'
    · rw [Function.update_of_ne hc] at hc'
      exact hc (h.eq_of_mem hc' hp)

end

end Sys2Proof.Machine
end

section
/-! Groups, units and draining, one equation for each procedure of 40_lzss_encoder.md R106, R107, R109, R110. -/

namespace Sys2Proof.Machine

section
variable {f : Obf} {e e' e1 e2 e3 : Enc} {out more : List Byte} {n : Nat}

/-! ## Groups -/

theorem emitGroup_eq (f : Obf) (h : e.group.cbp.toNat ≤ 17) :
    emitGroup f e = .ok ({ e with group := e.group.restart, epcur := (pbyteTake f e.epcur).2 },
      (e.group.cbuf.read 0 ^^^ (pbyteTake f e.epcur).1) :: e.group.unitBytes) := if_pos h

theorem Group.unitBytes_length (g : Group) : g.unitBytes.length = g.cbp.toNat - 1 := by simp [Group.unitBytes]

theorem Group.unitBytes_getD (g : Group) {k : Nat} (h1 : 1 ≤ k) (hk : k < g.cbp.toNat) :
    g.unitBytes.getD (k - 1) 0#8 = g.cbuf.read k := by
  have hlt : k - 1 < g.cbp.toNat - 1 := by omega
  have hindex : 1 + (k - 1) = k := by omega
  simp [Group.unitBytes, List.getD_eq_getElem?_getD, List.getElem?_range' hlt, hindex]

/-- Settles O39. -/
theorem emitGroupWritesControlByteThenUnits : Obligations.EmitGroupWritesControlByteThenUnits := by
  intro f e _ h17
  refine ⟨_, e.group.unitBytes, emitGroup_eq f h17, e.group.unitBytes_length, fun k => e.group.unitBytes_getD, rfl,
    fun a => ?_, rfl, rfl⟩
  rw [Group.restart_cbuf, Memory.read_write]

/-! ## Units -/

/-- A buffer with room for two bytes takes any unit. -/
theorem codeUnit_completes (h : e.group.cbp.toNat ≤ 15) : ∃ e1, codeUnit e = .ok e1 := by
  have hnext : (e.group.cbp + 1#5).toNat < 17 := by
    rw [BitVec.toNat_add, BitVec.toNat_ofNat]
    omega
  unfold codeUnit
  split
  · rw [Group.addLiteral, Group.push_eq _ (show _ < 17 by simpa using by omega)]
    exact ⟨_, rfl⟩
  · rw [Group.addRef, Group.push_eq _ (by omega)]
    simp only
    rw [Group.push_eq _ hnext]
    exact ⟨_, rfl⟩

theorem emitUnit_eq (f : Obf) (h : codeUnit e = .ok e1) : emitUnit f e = countUnit f e1 := by rw [emitUnit, h]

theorem codeUnit_frame (h : codeUnit e = .ok e1) :
    e1 = { e with best := { e.best with len := e1.best.len }, group := e1.group } := by
  obtain ⟨-, g, -, rfl⟩ | ⟨-, g, -, rfl⟩ := codeUnit_ok h <;> rfl

theorem Enc.clippedLen_toNat (e : Enc) : e.clippedLen.toNat = min e.best.len.toNat e.elen.toNat := by
  unfold Enc.clippedLen
  split
  · next h => rw [BitVec.lt_def] at h; omega
  · next h => rw [BitVec.lt_def] at h; omega

/-- Settles O40: coding a unit adds it to the group, and counting it emits the group or counts GUNITS up. -/
theorem emitUnitCodesLiteralOrReference : Obligations.EmitUnitCodesLiteralOrReference := by
  intro f e h1 h15 helen
  obtain ⟨e1, hcode⟩ := codeUnit_completes h15
  have hlen := e.clippedLen_toNat
  obtain ⟨hadds, hbest, hgunits⟩ := codeUnit_adds hcode h1 (by omega)
  refine ⟨e1, e.clippedLen.toNat, hlen, ?_, codeUnit_frame hcode, hgunits, hadds, fun h2 => ?_, fun h2 => ?_⟩
  · rw [emitUnit_eq f hcode, countUnit, hgunits]
  · rw [hbest]; exact congrArg Match.len (if_pos h2)
  · rw [hbest]; exact congrArg (fun m : Match => m.len.toNat) (if_neg (not_le.2 h2))

/-! ## Draining -/

/-- A unit and the advance over it take its length, one byte or more, off the look-ahead. -/
theorem elen_after_unit (h0 : e.elen ≠ 0#5) (h1 : emitUnit f e = .ok (e1, out))
    (h2 : advanceEmptyTimes e1.best.len.toNat e1 = .ok e2) :
    1 ≤ e1.best.len.toNat ∧ e2.elen.toNat + e1.best.len.toNat = e.elen.toNat := by
  obtain ⟨hpos, hle⟩ := emitUnit_len_bounds h1 h0
  have he1 : e1.elen = e.elen := by rw [emitUnit_frame h1]
  have he2 : e2.elen = e1.elen - e1.best.len := by
    rw [advanceEmptyTimes_frame h2]
    simp only [BitVec.ofNat_toNat, BitVec.setWidth_eq]
  have hsub := BitVec.toNat_sub_of_le (BitVec.le_def.2 hle)
  rw [he2, he1]
  omega

/-- The loop of DRAIN does not depend on its counter, where that is at least ELEN (40_lzss_encoder.md R110). -/
theorem drainLoop_counter {m : Nat} (hm : e.elen.toNat ≤ m) (hn : e.elen.toNat ≤ n) :
    drainLoop f m e = drainLoop f n e := by
  induction m generalizing n e with
  | zero =>
    have h0 : e.elen = 0#5 := BitVec.eq_of_toNat_eq (Nat.le_zero.1 hm)
    cases n <;> simp [drainLoop, h0]
  | succ m ih =>
    cases n with
    | zero =>
      have h0 : e.elen = 0#5 := BitVec.eq_of_toNat_eq (Nat.le_zero.1 hn)
      simp [drainLoop, h0]
    | succ n =>
      by_cases h0 : e.elen = 0#5
      · simp [drainLoop, h0]
      · simp only [drainLoop, if_neg h0]
        cases h1 : emitUnit f e with
        | error x => rfl
        | ok r1 =>
          simp only
          cases h2 : advanceEmptyTimes r1.1.best.len.toNat r1.1 with
          | error x => rfl
          | ok e2 =>
            obtain ⟨hpos, hsum⟩ := elen_after_unit h0 h1 h2
            have hrest : drainLoop f m e2 = drainLoop f n e2 := ih (by omega) (by omega)
            simp only [hrest]

theorem drainLoop_succ_eq (h0 : e.elen ≠ 0#5) (h1 : emitUnit f e = .ok (e1, out))
    (h2 : advanceEmptyTimes e1.best.len.toNat e1 = .ok e2) (h3 : drainLoop f n e2 = .ok (e3, more)) :
    drainLoop f (n + 1) e = .ok (e3, out ++ more) := by
  simp only [drainLoop, if_neg h0, h1, h2, h3]

theorem drain_eq {o1 o2 : List Byte} (h1 : drainLoop f e.elen.toNat e = .ok (e1, o1))
    (h2 : flushPartial f e1 = .ok (e2, o2)) : drain f e = .ok (e2, o1 ++ o2) := by simp only [drain, h1, h2]

theorem drain_of_empty (f : Obf) (h : e.elen = 0#5) : drain f e = flushPartial f e := by
  have hloop : drainLoop f e.elen.toNat e = .ok (e, []) := by rw [h]; rfl
  rw [drain, hloop]
  simp only
  cases flushPartial f e <;> rfl

theorem drain_of_unit (h0 : e.elen ≠ 0#5) (h1 : emitUnit f e = .ok (e1, out))
    (h2 : advanceEmptyTimes e1.best.len.toNat e1 = .ok e2) (h3 : drain f e2 = .ok (e3, more)) :
    drain f e = .ok (e3, out ++ more) := by
  obtain ⟨hpos, hsum⟩ := elen_after_unit h0 h1 h2
  obtain ⟨e4, o1, o2, hloop, hflush, rfl⟩ := drain_ok h3
  obtain ⟨n, hn⟩ : ∃ n, e.elen.toNat = n + 1 := ⟨e.elen.toNat - 1, by omega⟩
  rw [drainLoop_counter (n := n) le_rfl (by omega)] at hloop
  rw [← List.append_assoc]
  refine drain_eq ?_ hflush
  rw [hn]
  exact drainLoop_succ_eq h0 h1 h2 hloop

theorem advanceEmpty_last {l : Links} (hdel : deleteLinks e.s e.links = .ok l) (h1 : e.elen = 1#5) :
    advanceEmpty e = .ok { e with links := l, r := e.r + 1#12, elen := 0#5 } := by
  simp [advanceEmpty, deleteNode, hdel, h1]

theorem advanceEmpty_insert {l l' : Links} {m : Match} (hdel : deleteLinks e.s e.links = .ok l) (h1 : e.elen ≠ 1#5)
    (hins : insertLinks e.ebuf (e.r + 1#12) l e.best = .ok (l', m)) :
    advanceEmpty e = .ok { e with links := l', best := m, r := e.r + 1#12, elen := e.elen - 1#5 } := by
  have h0 : e.elen - 1#5 ≠ 0#5 := fun h => h1 (by bv_omega)
  simp [advanceEmpty, deleteNode, insertNode, hdel, hins, h0]

/-- Settles O60: one clause for each branch of DRAIN and of ADVANCE_EMPTY. -/
theorem drainCodesTheLookAheadUnitByUnit : Obligations.DrainCodesTheLookAheadUnitByUnit := by
  refine ⟨fun f e => drain_of_empty f, fun f e e1 e2 e3 out more => drain_of_unit, fun e => rfl,
    fun n e e1 e2 h1 h2 => ?_, fun e l hdel => ⟨advanceEmpty_last hdel, fun h1 l' m => advanceEmpty_insert hdel h1⟩⟩
  rw [advanceEmptyTimes, h1]
  exact h2

end

end Sys2Proof.Machine
end

section
/-! ENC.RESET, the first bytes of a stream and the empty stream (40_lzss_encoder.md R111, R112, R119). -/

namespace Sys2Proof.Machine

section
variable {s : State} {e : Enc} {b : Byte} {out : List Byte}

theorem exec_encPut_of_fill (hf : s.enc.eph = .fill) (h : putFill s.obf b s.enc = .ok (e, out)) :
    exec (.encPut b) s = .next (s.respondEnc (e.countPut out) out) := by
  simp only [exec, execEncPut, hf, h]

theorem exec_encPut_of_run (hr : s.enc.eph = .run) (h : putRun s.obf b s.enc = .ok (e, out)) :
    exec (.encPut b) s = .next (s.respondEnc (e.countPut out) out) := by
  simp only [exec, execEncPut, hr, h]

theorem exec_encFinish_of_fill (hf : s.enc.eph = .fill) (h : finishFill s.obf s.enc = .ok (e, out)) :
    exec .encFinish s = .next (s.respondEnc (e.countFinish out) out) := by
  simp only [exec, execEncFinish, hf, h]

theorem exec_encFinish_of_run (hr : s.enc.eph = .run) (h : finishRun s.obf s.enc = .ok (e, out)) :
    exec .encFinish s = .next (s.respondEnc (e.countFinish out) out) := by
  simp only [exec, execEncFinish, hr, h]

theorem putFill_of_room (f : Obf) (b : Byte) (h : e.elen + 1#5 ≠ 18#5) :
    putFill f b e = .ok (storeLookAhead b e, []) := if_neg h

end

/-- In FILL the byte goes to EBUF[4078 + ELEN], below the end of the ring. -/
theorem storeLookAhead_read {e : Enc} (hr : e.r = 4078#12) (helen : e.elen.toNat ≤ 17) (b : Byte) (a : Nat) :
    (storeLookAhead b e).ebuf.read a = if a = 4078 + e.elen.toNat then b else e.ebuf.read a := by
  have hindex : (e.r + e.elen.setWidth 12).toNat = 4078 + e.elen.toNat := by
    rw [hr, BitVec.toNat_add, BitVec.toNat_setWidth, BitVec.toNat_ofNat]
    omega
  rw [storeLookAhead_ebuf, Memory.read_write, hindex]

/-- Settles O41. -/
theorem encResetRestartsTheEncoder : Obligations.EncResetRestartsTheEncoder :=
  ⟨fun _ => ⟨_, rfl, rfl, rfl, Memory.read_nil, fun _ => ⟨rfl, rfl, rfl⟩, rfl, rfl, rfl, rfl, Memory.read_nil, rfl, rfl,
      rfl, rfl, rfl⟩,
    fun arg harg => answersRsvd_of_decode ((decode_encReset arg).trans (decodeZ_of_ne_zero harg _))⟩

/-- Settles O42: with ELEN at most 16 the byte does not fill the look-ahead. -/
theorem encPutFillsTheLookAhead : Obligations.EncPutFillsTheLookAhead := by
  intro b s hf hr helen
  have hroom : s.enc.elen + 1#5 ≠ 18#5 := fun h => by bv_omega
  refine ⟨_, exec_encPut_of_fill hf (putFill_of_room s.obf b hroom), rfl, ?_, storeLookAhead_read hr (by omega) b⟩
  simp [Enc.countPut, storeLookAhead]

/-- Settles O46. -/
theorem emptyInputEncodesToNothing : Obligations.EmptyInputEncodesToNothing :=
  fun _ => ⟨_, _, rfl, exec_encFinish_of_fill (e := Enc.initial) (out := []) rfl rfl, rfl, rfl, rfl, rfl⟩

end Sys2Proof.Machine
end

section
/-! The encoder's ranges and its mirror through its procedures (40_lzss_encoder.md R114, R116; 10_state.md R23). -/

namespace Sys2Proof.Machine

section
variable {f : Obf} {b : Byte} {e e' e1 e2 : Enc} {out : List Byte} {n : Nat}

/-! ## The ranges, one phase at a time -/

theorem Enc.inRange_fill (h : e.eph = .fill) : e.InRange ↔ e.best.len.toNat ≤ 18 ∧
    e.r = startPos ∧ e.elen.toNat ≤ 17 ∧ e.etodo = 0#5 ∧ e.group.gunits = 0#3 ∧ e.group.cbp = 1#5 := by
  simp [Enc.InRange, h]

theorem Enc.inRange_run (h : e.eph = .run) : e.InRange ↔ e.best.len.toNat ≤ 18 ∧
    e.elen = 18#5 ∧ 1 ≤ e.etodo.toNat ∧ e.etodo.toNat ≤ 18 ∧ e.group.InRange := by
  simp [Enc.InRange, h]

theorem Enc.inRange_finished (h : e.eph = .done ∨ e.eph = .error) : e.InRange ↔ e.best.len.toNat ≤ 18 ∧
    e.elen = 0#5 ∧ e.etodo = 0#5 ∧ e.group.gunits = 0#3 ∧ e.group.cbp = 1#5 := by
  obtain h | h := h <;> simp [Enc.InRange, h]

theorem Group.inRange_of_empty {g : Group} (hu : g.gunits = 0#3) (hc : g.cbp = 1#5) : g.InRange := by
  simp [Group.InRange, hu, hc]

/-! ## Units and groups -/

/-- A coded unit is one byte or, where it is longer than 2, two bytes of the buffer. -/
theorem codeUnit_group (h : codeUnit e = .ok e1) (hg : e.group.InRange) : e1.group.gunits = e.group.gunits ∧
    e.group.cbp.toNat < e1.group.cbp.toNat ∧ e1.group.cbp.toNat ≤ e.group.cbp.toNat + 2 ∧
    e1.group.cbp.toNat ≤ e.group.cbp.toNat + e1.best.len.toNat := by
  obtain ⟨hlo, hhi⟩ := hg
  have h7 := e.group.gunits.isLt
  have h1 : (e.group.cbp + 1#5).toNat = e.group.cbp.toNat + 1 := by
    rw [BitVec.toNat_add, BitVec.toNat_ofNat]
    omega
  obtain ⟨-, g, hadd, rfl⟩ | ⟨hlen, g, hadd, rfl⟩ := codeUnit_ok h
  · obtain ⟨-, rfl⟩ := Group.addLiteral_ok hadd
    have hone : (1#5).toNat = 1 := rfl
    refine ⟨rfl, ?_, ?_, ?_⟩ <;> simp only [h1, hone] <;> omega
  · obtain ⟨-, -, rfl⟩ := Group.addRef_ok hadd
    have h2 : (e.group.cbp + 1#5 + 1#5).toNat = e.group.cbp.toNat + 2 := by
      rw [BitVec.toNat_add, h1, BitVec.toNat_ofNat]
      omega
    refine ⟨rfl, ?_, ?_, ?_⟩ <;> simp only [h2] <;> omega

theorem emitGroup_length (h : emitGroup f e = .ok (e', out)) (hpos : 1 ≤ e.group.cbp.toNat) :
    out.length = e.group.cbp.toNat := by
  obtain ⟨-, -, rfl⟩ := emitGroup_ok h
  rw [List.length_cons, Group.unitBytes_length]
  omega

/-- EMIT_UNIT counts the unit, or, as the eighth, emits the group with it. -/
theorem emitUnit_group (h : emitUnit f e = .ok (e', out)) (hg : e.group.InRange) :
    (out = [] ∧ e.group.gunits.toNat < 7 ∧ e'.group.gunits.toNat = e.group.gunits.toNat + 1 ∧
      e.group.cbp.toNat < e'.group.cbp.toNat ∧ e'.group.cbp.toNat ≤ e.group.cbp.toNat + 2 ∧
      e'.group.cbp.toNat ≤ e.group.cbp.toNat + e'.best.len.toNat) ∨
    (e.group.gunits.toNat = 7 ∧ e'.group.gunits.toNat = 0 ∧ e'.group.cbp.toNat = 1 ∧
      e.group.cbp.toNat < out.length ∧ out.length ≤ e.group.cbp.toNat + 2 ∧
      out.length ≤ e.group.cbp.toNat + e'.best.len.toNat) := by
  obtain ⟨e1, h1, h2⟩ := emitUnit_ok h
  obtain ⟨hunits, hlo, hhi, hlen⟩ := codeUnit_group h1 hg
  have h7 := e.group.gunits.isLt
  obtain ⟨hlast, h3⟩ | ⟨hother, rfl, rfl⟩ := countUnit_ok h2
  · have hout := emitGroup_length h3 (by omega)
    obtain ⟨-, rfl, -⟩ := emitGroup_ok h3
    rw [hunits] at hlast
    refine .inr ⟨by rw [hlast]; rfl, rfl, rfl, by omega, by omega, ?_⟩
    simp only
    omega
  · rw [hunits] at hother
    have hne : e.group.gunits.toNat ≠ 7 := fun h => hother (BitVec.eq_of_toNat_eq h)
    have hnext : (e.group.gunits + 1#3).toNat = e.group.gunits.toNat + 1 := by
      rw [BitVec.toNat_add, BitVec.toNat_ofNat]
      omega
    exact .inl ⟨rfl, by omega, by rw [← hnext, ← hunits], hlo, hhi, hlen⟩

theorem emitUnit_inRange (h : emitUnit f e = .ok (e', out)) (hg : e.group.InRange) : e'.group.InRange := by
  obtain ⟨hlo, hhi⟩ := hg
  have hcases := emitUnit_group h ⟨hlo, hhi⟩
  unfold Group.InRange
  omega

theorem emitUnit_len_le (h : emitUnit f e = .ok (e', out)) (hlen : e.best.len.toNat ≤ 18) :
    e'.best.len.toNat ≤ 18 := by
  have hclip := e.clippedLen_toNat
  obtain ⟨-, h1⟩ | ⟨-, h1⟩ := emitUnit_len h <;> rw [h1]
  · decide
  · omega

/-! ## The match -/

theorem insertNode_len {p : Pos} (h : insertNode p e = .ok e') : e'.best.len.toNat ≤ 18 := by
  obtain ⟨t, m, hins, rfl⟩ := insertNode_ok h
  exact insertLinks_len hins

theorem start_len (h : start e = .ok e') : e'.best.len.toNat ≤ 18 := by
  unfold start at h
  split at h
  · cases h
  · exact insertNode_len h

theorem consume_len (h : consume b e = .ok e') : e'.best.len.toNat ≤ 18 := by
  obtain ⟨t, m, t', -, hins, rfl⟩ := consume_ok h
  exact insertLinks_len hins

theorem advanceEmpty_len (h : advanceEmpty e = .ok e') (hlen : e.best.len.toNat ≤ 18) : e'.best.len.toNat ≤ 18 := by
  obtain ⟨-, t, -, ⟨-, -, hbest⟩ | ⟨-, hins⟩⟩ := advanceEmpty_ok h
  · rwa [hbest]
  · exact insertLinks_len hins

theorem advanceEmptyTimes_len (h : advanceEmptyTimes n e = .ok e') (hlen : e.best.len.toNat ≤ 18) :
    e'.best.len.toNat ≤ 18 := by
  induction n generalizing e with
  | zero => cases h; exact hlen
  | succ n ih =>
    simp only [advanceEmptyTimes] at h
    split at h
    · cases h
    · next e1 h1 => exact ih h (advanceEmpty_len h1 hlen)

/-! ## Draining -/

/-- The most bytes DRAIN may still emit: the pending unit bytes, one byte for each byte of the look-ahead, and a control
byte for each group of up to eight units, a unit covering one byte or more (40_lzss_encoder.md R116). -/
def Enc.drainBound (e : Enc) : Nat :=
  e.group.cbp.toNat - 1 + e.elen.toNat + (e.group.gunits.toNat + e.elen.toNat + 7) / 8

theorem drainLoop_bound (h : drainLoop f n e = .ok (e', out)) (hg : e.group.InRange)
    (hlen : e.best.len.toNat ≤ 18) :
    e'.group.InRange ∧ e'.best.len.toNat ≤ 18 ∧ out.length + e'.drainBound ≤ e.drainBound := by
  induction n generalizing e out with
  | zero => cases h; exact ⟨hg, hlen, by simp⟩
  | succ n ih =>
    obtain ⟨-, rfl, rfl⟩ | ⟨h0, e1, o1, e2, o2, h1, h2, h3, rfl⟩ := drainLoop_succ_ok h
    · exact ⟨hg, hlen, by simp⟩
    · obtain ⟨hpos, hsum⟩ := elen_after_unit h0 h1 h2
      have hcases := emitUnit_group h1 hg
      have hg1 := emitUnit_inRange h1 hg
      have hgroup : e2.group = e1.group := by rw [advanceEmptyTimes_frame h2]
      obtain ⟨hg', hlen', hbound⟩ := ih h3 (hgroup ▸ hg1) (advanceEmptyTimes_len h2 (emitUnit_len_le h1 hlen))
      refine ⟨hg', hlen', ?_⟩
      obtain ⟨hlo, hhi⟩ := hg
      unfold Enc.drainBound at hbound ⊢
      rw [hgroup] at hbound
      rw [List.length_append]
      obtain ⟨rfl, -, hunits, -, -, hcbp⟩ | ⟨hlast, hunits, hcbp, -, -, hout⟩ := hcases
      · rw [List.length_nil]; omega
      · omega

theorem flushPartial_bound (h : flushPartial f e = .ok (e', out)) (hg : e.group.InRange) (helen : e.elen = 0#5) :
    e'.group.gunits = 0#3 ∧ e'.group.cbp = 1#5 ∧ out.length ≤ e.drainBound := by
  obtain ⟨hlo, hhi⟩ := hg
  unfold Enc.drainBound
  obtain ⟨hpending, h1⟩ | ⟨hempty, rfl, rfl⟩ := flushPartial_ok h
  · have hout := emitGroup_length h1 (by omega)
    obtain ⟨-, rfl, -⟩ := emitGroup_ok h1
    exact ⟨rfl, rfl, by omega⟩
  · exact ⟨BitVec.eq_of_toNat_eq (by simp; omega), BitVec.eq_of_toNat_eq (by simp; omega), Nat.zero_le _⟩

theorem flushPartial_frame (h : flushPartial f e = .ok (e', out)) :
    e' = { e with group := e'.group, epcur := e'.epcur } := by
  obtain ⟨-, h1⟩ | ⟨-, rfl, -⟩ := flushPartial_ok h
  · obtain ⟨-, rfl, -⟩ := emitGroup_ok h1; rfl
  · rfl

/-- The loop of DRAIN moves R over the look-ahead and changes only the trees, the match, the group and the cursor. -/
theorem drainLoop_frame (hn : e.elen.toNat ≤ n) (h : drainLoop f n e = .ok (e', out)) :
    e' = { e with r := e.r + e.elen.setWidth 12, elen := 0#5, links := e'.links, best := e'.best,
                  group := e'.group, epcur := e'.epcur } := by
  have hempty : ∀ e : Enc, e.elen = 0#5 → e = { e with r := e.r + e.elen.setWidth 12, elen := 0#5 } := by
    intro e h0
    have hr : e.r + e.elen.setWidth 12 = e.r := by rw [h0]; simp
    rw [hr, ← h0]
  induction n generalizing e out with
  | zero =>
    cases h
    exact hempty _ (BitVec.eq_of_toNat_eq (Nat.le_zero.1 hn))
  | succ n ih =>
    obtain ⟨h0, rfl, -⟩ | ⟨h0, e1, o1, e2, o2, h1, h2, h3, -⟩ := drainLoop_succ_ok h
    · exact hempty _ h0
    · obtain ⟨hpos, hsum⟩ := elen_after_unit h0 h1 h2
      have hunit := emitUnit_frame h1
      have hadvance := advanceEmptyTimes_frame h2
      have hr : e2.r + e2.elen.setWidth 12 = e.r + e.elen.setWidth 12 := by
        have hr2 : e2.r = e.r + BitVec.ofNat 12 e1.best.len.toNat := by rw [hadvance, hunit]
        rw [hr2, BitVec.add_assoc]
        congr 1
        apply BitVec.eq_of_toNat_eq
        rw [BitVec.toNat_add, BitVec.toNat_ofNat, BitVec.toNat_setWidth, BitVec.toNat_setWidth, ← hsum]
        omega
      have hkeep : e2.eph = e.eph ∧ e2.ebuf = e.ebuf ∧ e2.etodo = e.etodo ∧ e2.ein = e.ein ∧ e2.eout = e.eout := by
        rw [hadvance, hunit]
        exact ⟨rfl, rfl, rfl, rfl, rfl⟩
      obtain ⟨heph, hebuf, hetodo, hein, heout⟩ := hkeep
      have hframe := ih (by omega) h3
      rwa [hr, heph, hebuf, hetodo, hein, heout] at hframe

/-- DRAIN moves R over the look-ahead, leaves no unit pending and changes nothing else but the trees, the match, the
group and the cursor (40_lzss_encoder.md R110). -/
theorem drain_frame (h : drain f e = .ok (e', out)) :
    e' = { e with r := e.r + e.elen.setWidth 12, elen := 0#5, links := e'.links, best := e'.best,
                  group := e'.group, epcur := e'.epcur } := by
  obtain ⟨e1, o1, o2, h1, h2, -⟩ := drain_ok h
  have hflush := flushPartial_frame h2
  have hlinks : e'.links = e1.links ∧ e'.best = e1.best := by rw [hflush]; exact ⟨rfl, rfl⟩
  rw [drainLoop_frame le_rfl h1] at hflush
  rw [hlinks.1, hlinks.2]
  exact hflush

theorem drain_bound (h : drain f e = .ok (e', out)) (hg : e.group.InRange) (hlen : e.best.len.toNat ≤ 18) :
    e'.group.gunits = 0#3 ∧ e'.group.cbp = 1#5 ∧ e'.best.len.toNat ≤ 18 ∧ out.length ≤ e.drainBound := by
  obtain ⟨e1, o1, o2, h1, h2, rfl⟩ := drain_ok h
  obtain ⟨hg1, hlen1, hbound⟩ := drainLoop_bound h1 hg hlen
  obtain ⟨hunits, hcbp, hlast⟩ := flushPartial_bound h2 hg1 (drainLoop_elen le_rfl h1)
  have hbest : e'.best = e1.best := by rw [flushPartial_frame h2]
  rw [hbest, List.length_append]
  exact ⟨hunits, hcbp, hlen1, by omega⟩

/-! ## The mirror (10_state.md R23) -/

theorem mirrored_nil : Mirrored [] := fun _ _ => rfl

theorem mirrored_iff {ring : Memory} : Mirrored ring ↔ ∀ k : Nat, k < 17 → ring.read (4096 + k) = ring.read k := Iff.rfl

/-- A ring write changes the byte and its mirror (40_lzss_encoder.md R108). -/
theorem writeRing_read (ring : Memory) (s : Pos) (c : Byte) (a : Nat) : (writeRing ring s c).read a =
    if a = s.toNat ∨ (s.toNat < 17 ∧ a = s.toNat + 4096) then c else ring.read a := by
  unfold writeRing
  split
  · next h =>
    have h17 : s.toNat < 17 := h
    simp only [Memory.read_write, h17, true_and]
    by_cases h1 : a = s.toNat + 4096 <;> simp [h1]
  · next h =>
    have h17 : ¬ s.toNat < 17 := h
    simp [Memory.read_write, h17]

theorem mirrored_writeRing {ring : Memory} (h : Mirrored ring) (s : Pos) (c : Byte) : Mirrored (writeRing ring s c) := by
  rw [mirrored_iff] at h ⊢
  intro k hk
  have hiff : (4096 + k = s.toNat ∨ (s.toNat < 17 ∧ 4096 + k = s.toNat + 4096)) ↔
      (k = s.toNat ∨ (s.toNat < 17 ∧ k = s.toNat + 4096)) := by
    have := s.isLt
    omega
  rw [writeRing_read, writeRing_read, h k hk]
  simp only [hiff]

theorem mirrored_storeLookAhead (h : Mirrored e.ebuf) (hr : e.r = 4078#12) (helen : e.elen.toNat ≤ 17) (b : Byte) :
    Mirrored (storeLookAhead b e).ebuf := by
  rw [mirrored_iff] at h ⊢
  intro k hk
  rw [storeLookAhead_read hr helen, storeLookAhead_read hr helen, if_neg (by omega), if_neg (by omega)]
  exact h k hk

/-! ## The commands' procedures -/

theorem bitVec5_pos {x : Len} (h : x ≠ 0#5) : 1 ≤ x.toNat := by
  by_contra hlt
  exact h (BitVec.eq_of_toNat_eq (by simp; omega))

theorem putFill_inRange (hs : e.InRange) (hf : e.eph = .fill) (h : putFill f b e = .ok (e', out)) :
    e'.InRange ∧ out = [] := by
  obtain ⟨hbest, hr, helen, hetodo, hunits, hcbp⟩ := (Enc.inRange_fill hf).1 hs
  obtain ⟨hroom, rfl, rfl⟩ | ⟨hfull, e1, e2, h1, h2, rfl⟩ := putFill_ok h
  · have hnext : (e.elen + 1#5).toNat ≤ 17 := by bv_omega
    exact ⟨(Enc.inRange_fill (by simpa using hf)).2 ⟨hbest, hr, hnext, hetodo, hunits, hcbp⟩, rfl⟩
  · have hframe := start_frame h1
    have hgroup : e1.group = e.group := by rw [hframe]; rfl
    have helen1 : e1.elen = 18#5 := by rw [hframe]; exact hfull
    have hg : e1.group.InRange := hgroup ▸ Group.inRange_of_empty hunits hcbp
    obtain ⟨hlo, hhi⟩ := emitUnit_len_bounds h2 (by rw [helen1]; decide)
    have helen2 : e2.elen = 18#5 := by rw [emitUnit_frame h2]; exact helen1
    have hlen2 := emitUnit_len_le h2 (start_len h1)
    have hg2 := emitUnit_inRange h2 hg
    refine ⟨(Enc.inRange_run rfl).2 ⟨hlen2, helen2, hlo, hlen2, hg2⟩, ?_⟩
    obtain ⟨rfl, -⟩ | ⟨hlast, -⟩ := emitUnit_group h2 hg
    · rfl
    · rw [hgroup, hunits] at hlast
      exact absurd hlast (by decide)

theorem putRun_inRange (hs : e.InRange) (hr : e.eph = .run) (h : putRun f b e = .ok (e', out)) :
    e'.InRange ∧ out.length ≤ 17 ∧ out.length ≠ 1 := by
  obtain ⟨-, helen, hlo, hhi, hg⟩ := (Enc.inRange_run hr).1 hs
  obtain ⟨e1, h1, hcases⟩ := putRun_ok h
  have hlen1 := consume_len h1
  obtain ⟨t, m, t', -, -, rfl⟩ := consume_ok h1
  obtain ⟨hmore, rfl, rfl⟩ | ⟨hlast, e2, h2, rfl⟩ := hcases
  · have htodo := bitVec5_pos hmore
    refine ⟨(Enc.inRange_run (by exact hr)).2 ⟨hlen1, helen, htodo, ?_, hg⟩, by simp⟩
    show (e.etodo - 1#5).toNat ≤ 18
    bv_omega
  · have hframe := emitUnit_frame h2
    have helen2 : e2.elen = 18#5 := by rw [hframe]; exact helen
    have heph2 : e2.eph = .run := by rw [hframe]; exact hr
    have hlen2 := emitUnit_len_le h2 hlen1
    obtain ⟨hlo2, -⟩ := emitUnit_len_bounds h2 (by simp only [helen]; decide)
    have hg2 := emitUnit_inRange h2 hg
    refine ⟨(Enc.inRange_run (by exact heph2)).2 ⟨hlen2, helen2, hlo2, hlen2, hg2⟩, ?_⟩
    obtain ⟨hg1, hg2⟩ := hg
    obtain ⟨rfl, -⟩ | ⟨-, -, -, hout1, hout2, -⟩ := emitUnit_group h2 ⟨hg1, hg2⟩
    · simp
    · simp only at hout1 hout2
      have h7 := e.group.gunits.isLt
      omega

theorem finishFill_inRange (hs : e.InRange) (hf : e.eph = .fill) (h : finishFill f e = .ok (e', out)) :
    (e'.countFinish out).InRange ∧ out.length ≤ 34 := by
  obtain ⟨hbest, hr, helen, hetodo, hunits, hcbp⟩ := (Enc.inRange_fill hf).1 hs
  obtain ⟨h0, rfl, rfl⟩ | ⟨-, e1, h1, h2⟩ := finishFill_ok h
  · exact ⟨(Enc.inRange_finished (.inl rfl)).2 ⟨hbest, h0, hetodo, hunits, hcbp⟩, by simp⟩
  · have hframe := start_frame h1
    have hgroup : e1.group = e.group := by rw [hframe]
    have hkeep : e1.elen = e.elen ∧ e1.etodo = e.etodo := by rw [hframe]; exact ⟨rfl, rfl⟩
    obtain ⟨hunits', hcbp', hlen', hbound⟩ :=
      drain_bound h2 (hgroup ▸ Group.inRange_of_empty hunits hcbp) (start_len h1)
    have hdrain : e'.elen = 0#5 ∧ e'.etodo = e1.etodo := by rw [drain_frame h2]; exact ⟨rfl, rfl⟩
    refine ⟨(Enc.inRange_finished (.inl rfl)).2
      ⟨hlen', hdrain.1, (hdrain.2.trans hkeep.2).trans hetodo, hunits', hcbp'⟩, hbound.trans ?_⟩
    rw [Enc.drainBound, hgroup, hkeep.1, hunits, hcbp]
    simp only [BitVec.toNat_ofNat]
    omega

theorem finishRun_inRange (hs : e.InRange) (hr : e.eph = .run) (h : finishRun f e = .ok (e', out)) :
    (e'.countFinish out).InRange ∧ out.length ≤ 34 := by
  obtain ⟨hbest, helen, hlo, hhi, hg⟩ := (Enc.inRange_run hr).1 hs
  obtain ⟨e1, h1, h2⟩ := finishRun_ok h
  have hframe := advanceEmptyTimes_frame h1
  have hgroup : e1.group = e.group := by rw [hframe]
  have helen1 : e1.elen.toNat ≤ 17 := by
    have heq : e1.elen = 18#5 - e.etodo := by rw [hframe]; simp [helen]
    rw [heq, BitVec.toNat_sub_of_le (BitVec.le_def.2 hhi)]
    have : (18#5).toNat = 18 := rfl
    omega
  have hlen1 := advanceEmptyTimes_len h1 hbest
  obtain ⟨hunits', hcbp', hlen', hbound⟩ := drain_bound h2 (hgroup ▸ hg) hlen1
  have hdrain : e'.elen = 0#5 ∧ e'.etodo = 0#5 := by rw [drain_frame h2]; exact ⟨rfl, rfl⟩
  refine ⟨(Enc.inRange_finished (.inl rfl)).2 ⟨hlen', hdrain.1, hdrain.2, hunits', hcbp'⟩, hbound.trans ?_⟩
  obtain ⟨hg1, hg2⟩ := hg
  have h7 := e.group.gunits.isLt
  simp only [Enc.drainBound, hgroup]
  omega

/-! The ring: only ENC.PUT writes it. -/

theorem putFill_mirrored (hs : e.InRange) (hf : e.eph = .fill) (hm : Mirrored e.ebuf)
    (h : putFill f b e = .ok (e', out)) : Mirrored e'.ebuf := by
  obtain ⟨-, hr, helen, -⟩ := (Enc.inRange_fill hf).1 hs
  have hstore := mirrored_storeLookAhead hm hr helen b
  obtain ⟨-, rfl, -⟩ | ⟨-, e1, e2, h1, h2, rfl⟩ := putFill_ok h
  · exact hstore
  · have hebuf : e2.ebuf = (storeLookAhead b e).ebuf := by rw [emitUnit_frame h2, start_frame h1]
    exact (congrArg Mirrored hebuf).mpr hstore

theorem putRun_mirrored (hm : Mirrored e.ebuf) (h : putRun f b e = .ok (e', out)) : Mirrored e'.ebuf := by
  obtain ⟨e1, h1, hcases⟩ := putRun_ok h
  obtain ⟨t, m, t', -, -, rfl⟩ := consume_ok h1
  have hwrite := mirrored_writeRing hm e.s b
  obtain ⟨-, rfl, -⟩ | ⟨-, e2, h2, rfl⟩ := hcases
  · exact hwrite
  · have hebuf : e2.ebuf = writeRing e.ebuf e.s b := by rw [emitUnit_frame h2]
    exact (congrArg Mirrored hebuf).mpr hwrite

theorem finishFill_ebuf (h : finishFill f e = .ok (e', out)) : e'.ebuf = e.ebuf := by
  obtain ⟨-, rfl, -⟩ | ⟨-, e1, h1, h2⟩ := finishFill_ok h
  · rfl
  · rw [drain_frame h2, start_frame h1]

theorem finishRun_ebuf (h : finishRun f e = .ok (e', out)) : e'.ebuf = e.ebuf := by
  obtain ⟨e1, h1, h2⟩ := finishRun_ok h
  rw [drain_frame h2, advanceEmptyTimes_frame h1]

end

/-! ## The commands -/

/-- The encoder's ranges and its mirror. -/
abbrev Enc.Bounded (e : Enc) : Prop := e.InRange ∧ Mirrored e.ebuf

theorem Enc.bounded_initial : Enc.initial.Bounded :=
  ⟨(Enc.inRange_fill rfl).2 ⟨by decide, rfl, by decide, rfl, rfl, rfl⟩, mirrored_nil⟩

/-- A field that is no part of the ranges does not matter to them. -/
theorem Enc.InRange.of_eq {e e' : Enc} (h : e.InRange) (heph : e'.eph = e.eph) (hr : e'.r = e.r)
    (helen : e'.elen = e.elen) (hetodo : e'.etodo = e.etodo) (hbest : e'.best = e.best) (hgroup : e'.group = e.group) :
    e'.InRange := by
  unfold Enc.InRange
  rw [heph, hr, helen, hetodo, hbest, hgroup]
  exact h

/-- Done to error: the ranges of both are the same (60_exceptions.md R223). -/
theorem Enc.InRange.error {e : Enc} (h : e.InRange) (hd : e.eph = .done) : { e with eph := .error }.InRange :=
  (Enc.inRange_finished (.inr rfl)).2 ((Enc.inRange_finished (.inl hd)).1 h)

section
variable {s t : State}

theorem execEncPut_keeps_bounded {b : Byte} (hs : s.enc.Bounded) (h : execEncPut b s = .next t) : t.enc.Bounded := by
  obtain ⟨hrange, hmirror⟩ := hs
  obtain ⟨-, rfl⟩ | ⟨hd, rfl⟩ | ⟨e, out, ⟨hf, he⟩ | ⟨hr, he⟩, rfl⟩ := execEncPut_next h
  · exact ⟨hrange, hmirror⟩
  · exact ⟨hrange.error hd, hmirror⟩
  · have hm := putFill_mirrored hrange hf hmirror he
    exact ⟨(putFill_inRange hrange hf he).1.of_eq rfl rfl rfl rfl rfl rfl, hm⟩
  · have hm := putRun_mirrored hmirror he
    exact ⟨(putRun_inRange hrange hr he).1.of_eq rfl rfl rfl rfl rfl rfl, hm⟩

theorem execEncFinish_keeps_bounded (hs : s.enc.Bounded) (h : execEncFinish s = .next t) : t.enc.Bounded := by
  obtain ⟨hrange, hmirror⟩ := hs
  obtain ⟨-, rfl⟩ | ⟨hd, rfl⟩ | ⟨e, out, ⟨hf, he⟩ | ⟨hr, he⟩, rfl⟩ := execEncFinish_next h
  · exact ⟨hrange, hmirror⟩
  · exact ⟨hrange.error hd, hmirror⟩
  · exact ⟨(finishFill_inRange hrange hf he).1, (congrArg Mirrored (finishFill_ebuf he)).mpr hmirror⟩
  · exact ⟨(finishRun_inRange hrange hr he).1, (congrArg Mirrored (finishRun_ebuf he)).mpr hmirror⟩

/-- A command of the other units leaves the encoder, but for the cursor PWD.CLEAR zeroes. -/
theorem exec_keeps_enc {i : Instr} (hi : isEncoderCommand i = false) (h : exec i s = .next t) :
    t.enc = s.enc ∨ t.enc = { s.enc with epcur := 0#8 } := by
  cases i with
  | encReset => cases hi
  | encPut b => cases hi
  | encFinish => cases hi
  | nop => cases h; exact .inl rfl
  | decReset => cases h; exact .inl rfl
  | decPut b => obtain ⟨-, rfl⟩ | ⟨-, rfl⟩ | ⟨-, rfl⟩ := execDecPut_next h <;> exact .inl rfl
  | decFinish => obtain ⟨-, rfl⟩ | ⟨-, rfl⟩ | ⟨-, rfl⟩ := execDecFinish_next h <;> exact .inl rfl
  | pwdClear => cases h; exact .inr rfl
  | pwdAppend b => obtain ⟨-, rfl⟩ | ⟨-, -, rfl⟩ | ⟨-, -, rfl⟩ := execPwdAppend_next h <;> exact .inl rfl
  | obf32 v => cases h; exact .inl rfl
  | rdreg b => obtain ⟨v, -, rfl⟩ | ⟨-, rfl⟩ := execRdreg_next h <;> exact .inl rfl

end

theorem exec_keeps_bounded (i : Instr) (s t : State) (hs : s.enc.Bounded) (h : exec i s = .next t) :
    t.enc.Bounded := by
  by_cases hi : isEncoderCommand i = true
  · cases i with
    | encReset => cases h; exact Enc.bounded_initial
    | encPut b => exact execEncPut_keeps_bounded hs h
    | encFinish => exact execEncFinish_keeps_bounded hs h
    | nop | decReset | decPut | decFinish | pwdClear | pwdAppend | obf32 | rdreg => cases hi
  · obtain henc | henc := exec_keeps_enc (Bool.eq_false_iff.2 hi) h <;> rw [henc]
    · exact hs
    · exact ⟨hs.1.of_eq rfl rfl rfl rfl rfl rfl, hs.2⟩

/-- Settles O47: each procedure of the encoder keeps the ranges of its phase, and only ENC.PUT writes the ring. -/
theorem everyStepKeepsEncoderRangesAndMirror : Obligations.EveryStepKeepsEncoderRangesAndMirror :=
  fun _ _ hrange hmirror h => step_keeps (P := fun s => s.enc.Bounded) (fun _ _ hs => hs)
    (fun _ _ => Enc.bounded_initial) exec_keeps_bounded (fun _ _ hs => hs) ⟨hrange, hmirror⟩ h

end Sys2Proof.Machine
end

section
/-! What the encoder emits, and that only its own commands and the password decide it (40_lzss_encoder.md R116,
R117). -/

namespace Sys2Proof.Machine

section
variable {i : Instr} {s s' t t' u : State} {r : Response}

/-- A command that is not the encoder's gives one response without encoder output; where it is not the password's
either, it leaves what the encoder works on. -/
theorem exec_of_not_encoder (hi : isEncoderCommand i = false) (h : exec i s = .next t) :
    ∃ r, t.responses = s.responses ++ [r] ∧ r.encOut = [] ∧
      (isPasswordCommand i = false → t.enc = s.enc ∧ t.obf = s.obf) := by
  cases i with
  | encReset => cases hi
  | encPut b => cases hi
  | encFinish => cases hi
  | nop => cases h; exact ⟨_, rfl, rfl, fun _ => ⟨rfl, rfl⟩⟩
  | decReset => cases h; exact ⟨_, rfl, rfl, fun _ => ⟨rfl, rfl⟩⟩
  | decPut b =>
    obtain ⟨-, rfl⟩ | ⟨-, rfl⟩ | ⟨-, rfl⟩ := execDecPut_next h <;> exact ⟨_, rfl, rfl, fun _ => ⟨rfl, rfl⟩⟩
  | decFinish =>
    obtain ⟨-, rfl⟩ | ⟨-, rfl⟩ | ⟨-, rfl⟩ := execDecFinish_next h <;> exact ⟨_, rfl, rfl, fun _ => ⟨rfl, rfl⟩⟩
  | pwdClear => cases h; exact ⟨_, rfl, rfl, nofun⟩
  | pwdAppend b =>
    obtain ⟨-, rfl⟩ | ⟨-, -, rfl⟩ | ⟨-, -, rfl⟩ := execPwdAppend_next h <;> exact ⟨_, rfl, rfl, nofun⟩
  | obf32 v => cases h; exact ⟨_, rfl, rfl, fun _ => ⟨rfl, rfl⟩⟩
  | rdreg b => obtain ⟨v, -, rfl⟩ | ⟨-, rfl⟩ := execRdreg_next h <;> exact ⟨_, rfl, rfl, fun _ => ⟨rfl, rfl⟩⟩

/-- The response an encoder command appends, with the bounds on what it emits (40_lzss_encoder.md R116). -/
structure BurstBounded (i : Instr) (r : Response) : Prop where
  put : (∃ b, i = .encPut b) → r.encOut.length ≤ 17 ∧ r.encOut.length ≠ 1
  finish : i = .encFinish → r.encOut.length ≤ 34
  other : (∀ b, i ≠ .encPut b) → i ≠ .encFinish → r.encOut = []
  data : isEncoderCommand i = true → r.code = .ok → r.data.toNat = r.encOut.length

theorem burstBounded_empty (i : Instr) {c : Code} : BurstBounded i ⟨c, 0#32, [], []⟩ :=
  ⟨fun _ => ⟨Nat.zero_le _, nofun⟩, fun _ => Nat.zero_le _, fun _ _ => rfl, fun _ _ => rfl⟩

theorem ofNat32_toNat {n : Nat} (h : n ≤ 34) : (BitVec.ofNat 32 n).toNat = n := by
  rw [BitVec.toNat_ofNat]
  omega

theorem execEncPut_burst {b : Byte} (hs : s.enc.InRange) (h : execEncPut b s = .next t) :
    ∃ r, t.responses = s.responses ++ [r] ∧ BurstBounded (.encPut b) r := by
  obtain ⟨-, rfl⟩ | ⟨-, rfl⟩ | ⟨e, out, he, rfl⟩ := execEncPut_next h
  · exact ⟨_, rfl, burstBounded_empty _⟩
  · exact ⟨_, rfl, burstBounded_empty _⟩
  · have hout : out.length ≤ 17 ∧ out.length ≠ 1 := by
      obtain ⟨hf, he⟩ | ⟨hr, he⟩ := he
      · rw [(putFill_inRange hs hf he).2]; simp
      · exact (putRun_inRange hs hr he).2
    exact ⟨_, rfl, fun _ => hout, nofun, fun h => absurd rfl (h b), fun _ _ => ofNat32_toNat (by omega)⟩

theorem execEncFinish_burst (hs : s.enc.InRange) (h : execEncFinish s = .next t) :
    ∃ r, t.responses = s.responses ++ [r] ∧ BurstBounded .encFinish r := by
  obtain ⟨-, rfl⟩ | ⟨-, rfl⟩ | ⟨e, out, he, rfl⟩ := execEncFinish_next h
  · exact ⟨_, rfl, burstBounded_empty _⟩
  · exact ⟨_, rfl, burstBounded_empty _⟩
  · have hout : out.length ≤ 34 := by
      obtain ⟨hf, he⟩ | ⟨hr, he⟩ := he
      · exact (finishFill_inRange hs hf he).2
      · exact (finishRun_inRange hs hr he).2
    exact ⟨_, rfl, nofun, fun _ => hout, fun _ h => absurd rfl h, fun _ _ => ofNat32_toNat hout⟩

theorem exec_burst (hs : s.enc.InRange) (h : exec i s = .next t) :
    ∃ r, t.responses = s.responses ++ [r] ∧ BurstBounded i r := by
  by_cases hi : isEncoderCommand i = true
  · cases i with
    | encReset => cases h; exact ⟨_, rfl, burstBounded_empty _⟩
    | encPut b => exact execEncPut_burst hs h
    | encFinish => exact execEncFinish_burst hs h
    | nop | decReset | decPut | decFinish | pwdClear | pwdAppend | obf32 | rdreg => cases hi
  · obtain ⟨r, hr, hout, -⟩ := exec_of_not_encoder (Bool.eq_false_iff.2 hi) h
    refine ⟨r, hr, ?_, ?_, fun _ _ => hout, fun hi' => absurd hi' hi⟩
    · rintro ⟨b, rfl⟩; exact absurd rfl hi
    · rintro rfl; exact absurd rfl hi

/-- Settles O48. -/
theorem encoderOutputBurstIsBounded : Obligations.EncoderOutputBurstIsBounded := by
  intro i s t r hs h hr
  obtain ⟨r', hr', hput, hfinish, hother, hdata⟩ := exec_burst hs h
  obtain rfl : r = r' := by
    rw [hr'] at hr
    simpa using hr.symm
  exact ⟨fun b hb => hput ⟨b, hb⟩, hfinish, hdata, hother⟩

/-! ## Interleaved commands (40_lzss_encoder.md R117) -/

/-- Two blocks on which the encoder works alike. -/
structure SameEncoder (s t : State) : Prop where
  enc : s.enc = t.enc
  obf : s.obf = t.obf

/-- An encoder command depends on the encoder and the password only. -/
theorem exec_of_sameEncoder (hi : isEncoderCommand i = true) (hs : SameEncoder s s') (h : exec i s = .next t) :
    ∃ t' r, exec i s' = .next t' ∧ SameEncoder t t' ∧ t.responses = s.responses ++ [r] ∧
      t'.responses = s'.responses ++ [r] := by
  obtain ⟨henc, hobf⟩ := hs
  cases i with
  | encReset => cases h; exact ⟨_, _, rfl, ⟨rfl, hobf⟩, rfl, rfl⟩
  | encPut b =>
    obtain ⟨he, rfl⟩ | ⟨hd, rfl⟩ | ⟨e, out, ⟨hf, hp⟩ | ⟨hr, hp⟩, rfl⟩ := execEncPut_next h
    · exact ⟨s'.reject .failed, _, by simp only [exec, execEncPut, ← henc, he], ⟨henc, hobf⟩, rfl, rfl⟩
    · refine ⟨s'.rejectEncDone, _, by simp only [exec, execEncPut, ← henc, hd], ⟨?_, hobf⟩, rfl, rfl⟩
      rw [State.rejectEncDone_enc, State.rejectEncDone_enc, henc]
    · exact ⟨_, _, exec_encPut_of_fill (henc ▸ hf) (henc ▸ hobf ▸ hp), ⟨rfl, hobf⟩, rfl, rfl⟩
    · exact ⟨_, _, exec_encPut_of_run (henc ▸ hr) (henc ▸ hobf ▸ hp), ⟨rfl, hobf⟩, rfl, rfl⟩
  | encFinish =>
    obtain ⟨he, rfl⟩ | ⟨hd, rfl⟩ | ⟨e, out, ⟨hf, hp⟩ | ⟨hr, hp⟩, rfl⟩ := execEncFinish_next h
    · exact ⟨s'.reject .failed, _, by simp only [exec, execEncFinish, ← henc, he], ⟨henc, hobf⟩, rfl, rfl⟩
    · refine ⟨s'.rejectEncDone, _, by simp only [exec, execEncFinish, ← henc, hd], ⟨?_, hobf⟩, rfl, rfl⟩
      rw [State.rejectEncDone_enc, State.rejectEncDone_enc, henc]
    · exact ⟨_, _, exec_encFinish_of_fill (henc ▸ hf) (henc ▸ hobf ▸ hp), ⟨rfl, hobf⟩, rfl, rfl⟩
    · exact ⟨_, _, exec_encFinish_of_run (henc ▸ hr) (henc ▸ hobf ▸ hp), ⟨rfl, hobf⟩, rfl, rfl⟩
  | nop | decReset | decPut | decFinish | pwdClear | pwdAppend | obf32 | rdreg => cases hi

theorem runCommands_cons_next {rest : List Instr} (h : runCommands (i :: rest) s = .next t) :
    ∃ u, exec i s = .next u ∧ runCommands rest u = .next t := by
  simp only [runCommands] at h
  split at h
  · next u hu => exact ⟨u, hu, h⟩
  · cases h
  · cases h

theorem encBytes_cons (r : Response) (rs : List Response) : encBytes (r :: rs) = r.encOut ++ encBytes rs := rfl

/-- Without the commands of the other units, a block that works alike ends alike and emits the same. -/
theorem runCommands_encoderCommands {cs : List Instr} (hs : SameEncoder s s')
    (hcs : ∀ i ∈ cs, isPasswordCommand i = false) (h : runCommands cs s = .next t) :
    ∃ u rs rs', runCommands (cs.filter isEncoderCommand) s' = .next u ∧ SameEncoder t u ∧
      t.responses = s.responses ++ rs ∧ u.responses = s'.responses ++ rs' ∧ encBytes rs = encBytes rs' := by
  induction cs generalizing s s' with
  | nil => cases h; exact ⟨s', [], [], rfl, hs, by simp, by simp, rfl⟩
  | cons i cs ih =>
    obtain ⟨hi, hcs⟩ := List.forall_mem_cons.1 hcs
    obtain ⟨s1, hexec, hrest⟩ := runCommands_cons_next h
    by_cases henc : isEncoderCommand i = true
    · obtain ⟨s1', r, hexec', hs1, hr, hr'⟩ := exec_of_sameEncoder henc hs hexec
      obtain ⟨u, rs, rs', hrun, hu, ht, hu', hbytes⟩ := ih hs1 hcs hrest
      rw [hr, List.append_assoc] at ht
      rw [hr', List.append_assoc] at hu'
      refine ⟨u, _, _, ?_, hu, ht, hu', ?_⟩
      · rw [List.filter_cons_of_pos henc, runCommands_cons hexec', hrun]
      · exact congrArg (r.encOut ++ ·) hbytes
    · obtain ⟨r, hr, hout, hkeep⟩ := exec_of_not_encoder (Bool.eq_false_iff.2 henc) hexec
      obtain ⟨hsame, hobf⟩ := hkeep hi
      obtain ⟨u, rs, rs', hrun, hu, ht, hu', hbytes⟩ := ih ⟨hsame.trans hs.enc, hobf.trans hs.obf⟩ hcs hrest
      rw [hr, List.append_assoc] at ht
      refine ⟨u, _, rs', ?_, hu, ht, hu', ?_⟩
      · rw [List.filter_cons_of_neg henc, hrun]
      · rw [List.singleton_append, encBytes_cons, hout, hbytes, List.nil_append]

/-- Settles O57, by induction on the commands, from the one state both runs start in. -/
theorem interleavedCommandsLeaveTheEncodedStream : Obligations.InterleavedCommandsLeaveTheEncodedStream := by
  intro cs s t hcs h
  obtain ⟨u, rs, rs', hrun, hu, ht, hu', hbytes⟩ := runCommands_encoderCommands ⟨rfl, rfl⟩ hcs h
  exact ⟨u, rs, rs', hrun, ht, hu', hbytes, hu.enc⟩

end

end Sys2Proof.Machine
end

section
/-! The trees of the window: deleting the oldest position and inserting the next one complete and keep the look-ahead
positions out of the trees (40_lzss_encoder.md R105, R108, R109, R114). -/

namespace Sys2Proof.Machine

section
variable {ring ring' : Memory} {t : Links} {T : Byte → Tree} {r p q : Pos}

/-! ## INSERT_NODE and DELETE_NODE by the nodes they leave -/

/-- DELETE_NODE of any position completes and takes just that position out of the trees. -/
theorem Forest.deleteAny (h : Forest ring t T) (p : Pos) : ∃ t' T', deleteLinks p t = .ok t' ∧ Forest ring t' T' ∧
    ∀ c q, q ∈ (T' c).inorder → q ∈ (T c).inorder ∧ q ≠ p := by
  by_cases hp : ∃ c, p ∈ (T c).inorder
  · obtain ⟨c, hc⟩ := hp
    obtain ⟨t', T', hok, h', -, hwalk, hother, -⟩ := deleteRemovesExactlyTheNode ring p t T c h hc
    refine ⟨t', T', hok, h', fun c' q hq => ?_⟩
    by_cases hcc : c' = c
    · subst hcc
      rw [hwalk] at hq
      simpa using hq
    · rw [hother c' hcc] at hq
      exact ⟨hq, fun he => hcc (h.eq_of_mem (he ▸ hq) hc)⟩
  · have hp : ∀ c, p ∉ (T c).inorder := fun c hc => hp ⟨c, hc⟩
    exact ⟨t, T, if_pos (h.getDad_eq_nil hp), h, fun c q hq => ⟨hq, fun he => hp c (he ▸ hq)⟩⟩

/-- INSERT_NODE(r) of a position in no tree completes: r is in its tree, no other node is new, and every key stays. -/
theorem Forest.insertAny (h : Forest ring t T) (hr : ∀ c, r ∉ (T c).inorder) (m : Match) :
    ∃ t' m' T', insertLinks ring r t m = .ok (t', m') ∧ Forest ring t' T' ∧ r ∈ (T' (ring.read r.toNat)).inorder ∧
      (∀ c q, q ∈ (T' c).inorder → q = r ∨ q ∈ (T c).inorder) ∧
      ∀ c q, q ∈ (T c).inorder → ∃ c' q', q' ∈ (T' c').inorder ∧ keyAt ring q' = keyAt ring q := by
  obtain ⟨t', m', T', hok, h', -, -, hmem, hnew, hgone, -⟩ := insertKeepsTheForest ring r t m T h hr
  refine ⟨t', m', T', hok, h', hmem, hnew, fun c q hq => ?_⟩
  by_cases hq' : q ∈ (T' c).inorder
  · exact ⟨c, q, hq', rfl⟩
  · exact ⟨_, r, hmem, (hgone c q hq hq').symm⟩

/-! ## The ring under the trees -/

/-- A ring that reads alike at the keys of the nodes holds the same forest. -/
theorem Forest.of_keys (h : Forest ring t T)
    (hkeys : ∀ c p, p ∈ (T c).inorder → ∀ i : Nat, i < 18 → ring'.read (p.toNat + i) = ring.read (p.toNat + i)) :
    Forest ring' t T := by
  have hkey : ∀ c p, p ∈ (T c).inorder → keyAt ring' p = keyAt ring p := fun c p hp =>
    List.map_congr_left fun i hi => hkeys c p hp i (List.mem_range.1 hi)
  refine ⟨h.linked, h.nodup, fun c p hp => ?_, h.placed, fun c => ?_⟩
  · exact (hkeys c p hp 0 (by decide)).trans (h.firstByte c p hp)
  · exact (h.sorted c).imp_of_mem fun {p q} hp hq hle => by rwa [hkey c p hp, hkey c q hq]

/-- None of the positions r + 1 .. r + n is a node. -/
def ClearAhead (r : Pos) (n : Nat) (T : Byte → Tree) : Prop :=
  ∀ (k : Nat) (c : Byte), 1 ≤ k → k ≤ n → r + BitVec.ofNat 12 k ∉ (T c).inorder

theorem ofNat12_succ (r : Pos) (k : Nat) : r + 1#12 + BitVec.ofNat 12 k = r + BitVec.ofNat 12 (k + 1) := by
  rw [BitVec.add_assoc]
  congr 1
  apply BitVec.eq_of_toNat_eq
  simp [Nat.add_comm]

/-- The byte written at S is in no node's key: the nodes that close to S are the look-ahead positions. -/
theorem Forest.writeRing (h : Forest ring t T) (hclear : ClearAhead r 18 T) (c : Byte) :
    Forest (writeRing ring (r + 18#12) c) t T := by
  refine h.of_keys fun c' p hp i hi => ?_
  rw [writeRing_read, if_neg]
  intro hat
  have hp' : p = r + BitVec.ofNat 12 (18 - i) := by
    apply BitVec.eq_of_toNat_eq
    simp only [BitVec.toNat_add, BitVec.toNat_ofNat] at hat ⊢
    have := p.isLt
    omega
  exact hclear (18 - i) c' (by omega) (by omega) (hp' ▸ hp)

theorem ClearAhead.delete {T' : Byte → Tree} (h : ClearAhead r 17 T)
    (hdel : ∀ c q, q ∈ (T' c).inorder → q ∈ (T c).inorder ∧ q ≠ r + 18#12) : ClearAhead r 18 T' := by
  intro k c h1 hk hmem
  obtain ⟨hold, hne⟩ := hdel c _ hmem
  obtain rfl | hlt : k = 18 ∨ k ≤ 17 := by omega
  · exact hne rfl
  · exact h k c h1 hlt hold

theorem ClearAhead.next (h : ClearAhead r 18 T) : ClearAhead (r + 1#12) 17 T := by
  intro k c h1 hk hmem
  rw [ofNat12_succ] at hmem
  exact h (k + 1) c (by omega) (by omega) hmem

theorem ClearAhead.insert {T' : Byte → Tree} (h : ClearAhead r 17 T)
    (hins : ∀ c q, q ∈ (T' c).inorder → q = r ∨ q ∈ (T c).inorder) : ClearAhead r 17 T' := by
  intro k c h1 hk hmem
  obtain heq | hold := hins c _ hmem
  · bv_omega
  · exact h k c h1 hk hold

end

/-! ## The window procedures complete -/

/-- The trees are a forest without the look-ahead positions R + 1 .. R + 17: what every procedure on the window needs
and keeps (40_lzss_encoder.md R114). -/
def Enc.WindowOk (e : Enc) : Prop := ∃ T, Forest e.ebuf e.links T ∧ ClearAhead e.r 17 T

/-- As WindowOk, with R itself in its tree. -/
def Enc.WindowHoldsR (e : Enc) : Prop :=
  ∃ T, Forest e.ebuf e.links T ∧ e.r ∈ (T (e.ebuf.read e.r.toNat)).inorder ∧ ClearAhead e.r 17 T

theorem Enc.WindowHoldsR.windowOk {e : Enc} (h : e.WindowHoldsR) : e.WindowOk :=
  have ⟨T, hF, _, hclear⟩ := h
  ⟨T, hF, hclear⟩

theorem Enc.WindowOk.of_eq {e e' : Enc} (h : e.WindowOk) (hring : e'.ebuf = e.ebuf) (hlinks : e'.links = e.links)
    (hr : e'.r = e.r) : e'.WindowOk := by
  unfold Enc.WindowOk
  rw [hring, hlinks, hr]
  exact h

section
variable {f : Obf} {e e' : Enc} {n : Nat}

theorem insertNode_eq {p : Pos} {t : Links} {m : Match} (h : insertLinks e.ebuf p e.links e.best = .ok (t, m)) :
    insertNode p e = .ok { e with links := t, best := m } := by rw [insertNode, h]

theorem deleteNode_eq {p : Pos} {t : Links} (h : deleteLinks p e.links = .ok t) :
    deleteNode p e = .ok { e with links := t } := by rw [deleteNode, h]

theorem consume_eq {c : Byte} {l l' : Links} {m : Match} (hdel : deleteLinks e.s e.links = .ok l)
    (hins : insertLinks (writeRing e.ebuf e.s c) (e.r + 1#12) l e.best = .ok (l', m)) :
    consume c e = .ok { e with ebuf := writeRing e.ebuf e.s c, r := e.r + 1#12, links := l', best := m } := by
  rw [consume, deleteNode_eq hdel]
  exact insertNode_eq hins

/-- CONSUME completes: S leaves the trees before its byte is written, and R + 1 is in no tree. -/
theorem consume_completes (h : e.WindowOk) (c : Byte) : ∃ l l' m, deleteLinks e.s e.links = .ok l ∧
    insertLinks (writeRing e.ebuf e.s c) (e.r + 1#12) l e.best = .ok (l', m) ∧
    Enc.WindowHoldsR { e with ebuf := writeRing e.ebuf e.s c, r := e.r + 1#12, links := l', best := m } := by
  obtain ⟨T, hF, hclear⟩ := h
  obtain ⟨l, T1, hdel, hF1, hsub⟩ := hF.deleteAny e.s
  have hclear1 : ClearAhead e.r 18 T1 := hclear.delete hsub
  have hF2 : Forest (writeRing e.ebuf e.s c) l T1 := hF1.writeRing hclear1 c
  obtain ⟨l', m, T2, hins, hF3, hmem, hnew, -⟩ :=
    hF2.insertAny (r := e.r + 1#12) (fun c' => hclear1 1 c' le_rfl (by decide)) e.best
  exact ⟨l, l', m, hdel, hins, T2, hF3, hmem, hclear1.next.insert hnew⟩

theorem advanceEmpty_completes (h : e.WindowOk) : ∃ e', advanceEmpty e = .ok e' ∧ e'.WindowOk := by
  obtain ⟨T, hF, hclear⟩ := h
  obtain ⟨l, T1, hdel, hF1, hsub⟩ := hF.deleteAny e.s
  have hclear1 : ClearAhead e.r 18 T1 := hclear.delete hsub
  by_cases h1 : e.elen = 1#5
  · exact ⟨_, advanceEmpty_last hdel h1, T1, hF1, hclear1.next⟩
  · obtain ⟨l', m, T2, hins, hF2, -, hnew, -⟩ :=
      hF1.insertAny (r := e.r + 1#12) (fun c' => hclear1 1 c' le_rfl (by decide)) e.best
    exact ⟨_, advanceEmpty_insert hdel h1 hins, T2, hF2, hclear1.next.insert hnew⟩

theorem advanceEmptyTimes_completes (h : e.WindowOk) (n : Nat) :
    ∃ e', advanceEmptyTimes n e = .ok e' ∧ e'.WindowOk := by
  induction n generalizing e with
  | zero => exact ⟨e, rfl, h⟩
  | succ n ih =>
    obtain ⟨e1, h1, hw1⟩ := advanceEmpty_completes h
    obtain ⟨e2, h2, hw2⟩ := ih hw1
    exact ⟨e2, by rw [advanceEmptyTimes, h1]; exact h2, hw2⟩

theorem emitGroup_completes (f : Obf) (h : e.group.cbp.toNat ≤ 17) : ∃ e' out, emitGroup f e = .ok (e', out) :=
  ⟨_, _, emitGroup_eq f h⟩

theorem emitUnit_completes (f : Obf) (hg : e.group.InRange) : ∃ e' out, emitUnit f e = .ok (e', out) := by
  obtain ⟨hlo, hhi⟩ := hg
  have h7 := e.group.gunits.isLt
  obtain ⟨e1, hcode⟩ := codeUnit_completes (e := e) (by omega)
  obtain ⟨-, -, hcbp, -⟩ := codeUnit_group hcode ⟨hlo, hhi⟩
  rw [emitUnit_eq f hcode, countUnit]
  split
  · exact emitGroup_completes f (by omega)
  · exact ⟨_, _, rfl⟩

theorem drainLoop_completes (f : Obf) (hw : e.WindowOk) (hg : e.group.InRange) (n : Nat) :
    ∃ e' out, drainLoop f n e = .ok (e', out) ∧ e'.group.InRange := by
  induction n generalizing e with
  | zero => exact ⟨e, [], rfl, hg⟩
  | succ n ih =>
    by_cases h0 : e.elen = 0#5
    · exact ⟨e, [], by rw [drainLoop, if_pos h0], hg⟩
    · obtain ⟨e1, o1, h1⟩ := emitUnit_completes f hg
      have hw1 : e1.WindowOk := by
        have hframe := emitUnit_frame h1
        exact hw.of_eq (by rw [hframe]) (by rw [hframe]) (by rw [hframe])
      obtain ⟨e2, h2, hw2⟩ := advanceEmptyTimes_completes hw1 e1.best.len.toNat
      have hgroup : e2.group = e1.group := by rw [advanceEmptyTimes_frame h2]
      obtain ⟨e3, o2, h3, hg3⟩ := ih hw2 (hgroup ▸ emitUnit_inRange h1 hg)
      exact ⟨e3, _, drainLoop_succ_eq h0 h1 h2 h3, hg3⟩

theorem drain_completes (f : Obf) (hw : e.WindowOk) (hg : e.group.InRange) :
    ∃ e' out, drain f e = .ok (e', out) := by
  obtain ⟨e1, o1, h1, hlo, hhi⟩ := drainLoop_completes f hw hg e.elen.toNat
  have h7 := e1.group.gunits.isLt
  obtain ⟨e2, o2, h2⟩ : ∃ e' out, flushPartial f e1 = .ok (e', out) := by
    unfold flushPartial
    split
    · exact emitGroup_completes f (by omega)
    · exact ⟨_, _, rfl⟩
  exact ⟨e2, _, drain_eq h1 h2⟩

end

/-! ## START (40_lzss_encoder.md R105) -/

section
variable {e : Enc} {T : Byte → Tree}

/-- Inserting different positions that are in no tree completes; no other node is new and every key stays. -/
theorem insertAll_completes {ps : List Pos} (h : Forest e.ebuf e.links T) (hps : ps.Nodup)
    (hnot : ∀ p ∈ ps, ∀ c, p ∉ (T c).inorder) :
    ∃ e' T', insertAll ps e = .ok e' ∧ e' = { e with links := e'.links, best := e'.best } ∧
      Forest e.ebuf e'.links T' ∧ (∀ c q, q ∈ (T' c).inorder → q ∈ ps ∨ q ∈ (T c).inorder) ∧
      ∀ q, (q ∈ ps ∨ ∃ c, q ∈ (T c).inorder) → ∃ c' q', q' ∈ (T' c').inorder ∧ keyAt e.ebuf q' = keyAt e.ebuf q := by
  induction ps generalizing e T with
  | nil =>
    refine ⟨e, T, rfl, rfl, h, fun c q hq => .inr hq, fun q hq => ?_⟩
    obtain ⟨c, hc⟩ := hq.resolve_left (List.not_mem_nil)
    exact ⟨c, q, hc, rfl⟩
  | cons p ps ih =>
    obtain ⟨hp, hps⟩ := List.nodup_cons.1 hps
    obtain ⟨hpT, hnot⟩ := List.forall_mem_cons.1 hnot
    obtain ⟨t1, m1, T1, hins, hF1, hmem1, hnew1, hkeys1⟩ := h.insertAny hpT e.best
    have hnot1 : ∀ q ∈ ps, ∀ c, q ∉ (T1 c).inorder := fun q hq c hc =>
      (hnew1 c q hc).elim (fun he => hp (he ▸ hq)) (hnot q hq c)
    obtain ⟨e', T', hall, hframe, hF', hnew, hkeys⟩ := ih (e := { e with links := t1, best := m1 }) hF1 hps hnot1
    refine ⟨e', T', ?_, hframe, hF', fun c q hq => ?_, fun q hq => ?_⟩
    · rw [insertAll, insertNode_eq hins]
      exact hall
    · obtain hq | hq := hnew c q hq
      · exact .inl (List.mem_cons_of_mem _ hq)
      · obtain rfl | hq := hnew1 c q hq
        · exact .inl List.mem_cons_self
        · exact .inr hq
    · rw [List.mem_cons] at hq
      obtain (rfl | hq) | ⟨c, hq⟩ := hq
      · exact hkeys q (.inr ⟨_, hmem1⟩)
      · exact hkeys q (.inl hq)
      · obtain ⟨c1, q1, hq1, hkey1⟩ := hkeys1 c q hq
        obtain ⟨c', q', hq', hkey'⟩ := hkeys q1 (.inr ⟨c1, hq1⟩)
        exact ⟨c', q', hq', hkey'.trans hkey1⟩

/-- The positions START inserts before R, and R itself as the last. -/
theorem startPositions_eq (r : Pos) : startPositions r =
    (List.range' 1 18).map (fun i => r - BitVec.ofNat 12 i) ++ [r] := rfl

/-- From R = 4078 they are 4060 .. 4078. -/
theorem mem_startPositions {p : Pos} : p ∈ startPositions 4078#12 ↔ 4060 ≤ p.toNat ∧ p.toNat ≤ 4078 := by
  have hp := p.isLt
  simp only [startPositions_eq, List.mem_append, List.mem_map, List.mem_range'_1, List.mem_singleton]
  constructor
  · rintro (⟨i, ⟨h1, hi⟩, rfl⟩ | rfl)
    · simp only [BitVec.toNat_sub, BitVec.toNat_ofNat]
      omega
    · simp
  · rintro ⟨hlo, hhi⟩
    obtain heq | hlt := hhi.eq_or_lt
    · exact .inr (BitVec.eq_of_toNat_eq heq)
    · refine .inl ⟨4078 - p.toNat, ⟨by omega, by omega⟩, BitVec.eq_of_toNat_eq ?_⟩
      simp only [BitVec.toNat_sub, BitVec.toNat_ofNat]
      omega

theorem startPositions_nodup : (startPositions 4078#12).Nodup := by
  rw [startPositions_eq, List.nodup_append]
  refine ⟨(List.nodup_range').map_on fun i hi j hj hij => ?_, List.nodup_singleton _, fun p hp q hq => ?_⟩
  · rw [List.mem_range'_1] at hi hj
    have h := congrArg BitVec.toNat hij
    simp only [BitVec.toNat_sub, BitVec.toNat_ofNat] at h
    omega
  · obtain ⟨i, hi, rfl⟩ := List.mem_map.1 hp
    rw [List.mem_range'_1] at hi
    rw [List.mem_singleton.1 hq]
    bv_omega

/-- START from empty trees completes: 4078 is a node, every node is one of 4060 .. 4078, and each of these has its key in
the trees. -/
theorem insertAll_startPositions (h : Forest e.ebuf e.links fun _ => .leaf) :
    ∃ e' T', insertAll (startPositions 4078#12) e = .ok e' ∧ e' = { e with links := e'.links, best := e'.best } ∧
      e'.best.len.toNat ≤ 18 ∧ Forest e.ebuf e'.links T' ∧
      4078#12 ∈ (T' (e.ebuf.read (4078#12).toNat)).inorder ∧
      (∀ c p, p ∈ (T' c).inorder → 4060 ≤ p.toNat ∧ p.toNat ≤ 4078) ∧
      ∀ p : Pos, 4060 ≤ p.toNat → p.toNat ≤ 4078 →
        ∃ c q, q ∈ (T' c).inorder ∧ keyAt e.ebuf q = keyAt e.ebuf p := by
  have hnodup := startPositions_nodup
  rw [startPositions_eq, List.nodup_append] at hnodup
  obtain ⟨hps, -, hlast⟩ := hnodup
  obtain ⟨e1, T1, hall, hframe1, hF1, hnew1, hkeys1⟩ := insertAll_completes h hps fun p _ c => List.not_mem_nil
  have hebuf : e1.ebuf = e.ebuf := by rw [hframe1]
  have hr : ∀ c, 4078#12 ∉ (T1 c).inorder := fun c hc =>
    (hnew1 c _ hc).elim (fun hmem => hlast _ hmem _ (List.mem_singleton_self _) rfl) List.not_mem_nil
  obtain ⟨t', m', T', hins, hF', hmem, hnew, hkeys⟩ := hF1.insertAny hr e1.best
  refine ⟨{ e1 with links := t', best := m' }, T', ?_, ?_, insertLinks_len hins, hF', hmem, fun c p hp => ?_,
    fun p hlo hhi => ?_⟩
  · rw [startPositions_eq, insertAll_append, hall]
    rw [← hebuf] at hins
    simp only [insertAll, insertNode_eq hins]
  · rw [hframe1]
  · refine mem_startPositions.1 ?_
    rw [startPositions_eq, List.mem_append, List.mem_singleton]
    exact (hnew c p hp).symm.imp_left fun hp => (hnew1 c p hp).resolve_right List.not_mem_nil
  · have hp := mem_startPositions.2 ⟨hlo, hhi⟩
    rw [startPositions_eq, List.mem_append, List.mem_singleton] at hp
    obtain hp | rfl := hp
    · obtain ⟨c1, q1, hq1, hkey1⟩ := hkeys1 p (.inl hp)
      obtain ⟨c', q', hq', hkey'⟩ := hkeys c1 q1 hq1
      exact ⟨c', q', hq', hkey'.trans hkey1⟩
    · exact ⟨_, _, hmem, rfl⟩

theorem clearAhead_of_le (h : ∀ c p, p ∈ (T c).inorder → 4060 ≤ p.toNat ∧ p.toNat ≤ 4078) :
    ClearAhead 4078#12 17 T := by
  intro k c h1 hk hmem
  have hle := (h c _ hmem).2
  rw [BitVec.toNat_add, BitVec.toNat_ofNat, BitVec.toNat_ofNat] at hle
  omega

theorem start_completes (h : Forest e.ebuf e.links fun _ => .leaf) (hr : e.r = 4078#12) :
    ∃ e', start e = .ok e' ∧ e'.WindowHoldsR := by
  obtain ⟨e', T', hall, hframe, -, hF, hmem, hrange, -⟩ := insertAll_startPositions h
  have hkeep : e'.ebuf = e.ebuf ∧ e'.r = e.r := by rw [hframe]; exact ⟨rfl, rfl⟩
  obtain ⟨hebuf, hr'⟩ := hkeep
  refine ⟨e', by rw [start_eq_insertAll, hr, hall], T', ?_⟩
  rw [hebuf, hr', hr]
  exact ⟨hF, hmem, clearAhead_of_le hrange⟩

end

end Sys2Proof.Machine
end

section
/-! ENC.PUT and ENC.FINISH from an encoder state within its invariant: they complete, with what each step of theirs did
(40_lzss_encoder.md R112, R113, R114). -/

namespace Sys2Proof.Machine

section
variable {f : Obf} {b : Byte} {e e' e1 e2 : Enc} {out : List Byte}

/-! ## The invariant, one phase at a time -/

theorem Enc.treesOk_fill (h : e.eph = .fill) : e.TreesOk ↔ Forest e.ebuf e.links fun _ => .leaf := by
  simp [Enc.TreesOk, h]

theorem Enc.treesOk_run (h : e.eph = .run) : e.TreesOk ↔ e.WindowHoldsR := by
  simp [Enc.TreesOk, h, Enc.WindowHoldsR, ClearAhead]

theorem Enc.treesOk_finished (h : e.eph = .done ∨ e.eph = .error) : e.TreesOk := by
  obtain h | h := h <;> simp [Enc.TreesOk, h]

theorem Enc.WindowHoldsR.of_eq (h : e.WindowHoldsR) (hring : e'.ebuf = e.ebuf) (hlinks : e'.links = e.links)
    (hr : e'.r = e.r) : e'.WindowHoldsR := by
  unfold Enc.WindowHoldsR
  rw [hring, hlinks, hr]
  exact h

/-- Empty trees do not depend on the ring. -/
theorem Forest.of_leaves {ring ring' : Memory} {t : Links} (h : Forest ring t fun _ => .leaf) :
    Forest ring' t fun _ => .leaf :=
  h.of_keys fun _ _ hp => absurd hp List.not_mem_nil

/-! ## The unit coded from a full look-ahead -/

/-- A unit coded from a full look-ahead is that of the match itself, added to the pending group. -/
theorem emitUnit_adds (h : emitUnit f e = .ok (e', out)) (hg : e.group.InRange) (helen : e.elen = 18#5)
    (hlen : e.best.len.toNat ≤ 18) : ∃ g : Group,
      e.group.Adds (e.ebuf.read e.r.toNat) e.best.pos e.best.len.toNat g ∧
      e' = { e with best := e.best.coded, group := e'.group, epcur := e'.epcur } ∧
      (e.group.gunits ≠ 7#3 → out = [] ∧ e'.epcur = e.epcur ∧
        e'.group = { g with gunits := e.group.gunits + 1#3 }) ∧
      (e.group.gunits = 7#3 → e'.group = g.restart ∧ e'.epcur = (pbyteTake f e.epcur).2 ∧
        out = (g.cbuf.read 0 ^^^ (pbyteTake f e.epcur).1) :: g.unitBytes) := by
  obtain ⟨e1, hcode, hcount⟩ := emitUnit_ok h
  have hclip : e.clippedLen = e.best.len := by
    apply BitVec.eq_of_toNat_eq
    rw [e.clippedLen_toNat, helen]
    exact min_eq_left hlen
  obtain ⟨hadds, hbest, hunits⟩ := codeUnit_adds hcode (by have := hg.1; omega) (by rw [hclip]; exact hlen)
  rw [hclip] at hadds hbest
  have hframe := codeUnit_frame hcode
  refine ⟨e1.group, hadds, ?_, fun hne => ?_, fun h7 => ?_⟩
  · have hbest' : e'.best = e1.best := by
      obtain ⟨-, h3⟩ | ⟨-, -, rfl⟩ := countUnit_ok hcount
      · obtain ⟨-, rfl, -⟩ := emitGroup_ok h3; rfl
      · rfl
    have hunit := emitUnit_frame h
    have hpos : e.best.pos = e'.best.pos := by rw [hunit]
    have hcoded : (⟨e'.best.len, e.best.pos⟩ : Match) = e.best.coded := by
      rw [hpos]
      exact hbest'.trans hbest
    exact hunit.trans (congrArg (fun m => { e with best := m, group := e'.group, epcur := e'.epcur }) hcoded)
  · have hepcur := codeUnit_epcur hcode
    obtain ⟨h7, -⟩ | ⟨-, rfl, rfl⟩ := countUnit_ok hcount
    · exact absurd (hunits.symm.trans h7) hne
    · exact ⟨rfl, hepcur, by rw [hunits]⟩
  · obtain ⟨-, h3⟩ | ⟨hne, -⟩ := countUnit_ok hcount
    · obtain ⟨-, rfl, rfl⟩ := emitGroup_ok h3
      rw [codeUnit_epcur hcode]
      exact ⟨rfl, rfl, rfl⟩
    · exact absurd (hunits.trans h7) hne

/-! ## ENC.PUT -/

/-- The 18th byte: START on the stored byte, then the first unit of the group. -/
theorem putFill_full (f : Obf) (b : Byte) (hs : e.Safe) (hf : e.eph = .fill) (h17 : e.elen = 17#5) :
    ∃ e1 e2, start (storeLookAhead b e) = .ok e1 ∧ e1.WindowHoldsR ∧ emitUnit f e1 = .ok (e2, []) ∧
      putFill f b e = .ok ({ e2 with etodo := e2.best.len, eph := .run }, []) := by
  obtain ⟨hrange, -, htrees⟩ := hs
  obtain ⟨-, hr, -, -, hunits, hcbp⟩ := (Enc.inRange_fill hf).1 hrange
  have hfull : (storeLookAhead b e).elen = 18#5 := by rw [storeLookAhead_elen, h17]; rfl
  obtain ⟨e1, h1, hw1⟩ := start_completes (e := storeLookAhead b e) ((Enc.treesOk_fill hf).1 htrees).of_leaves hr
  have hgroup : e1.group = e.group := by rw [start_frame h1]; rfl
  obtain ⟨e2, out, h2⟩ := emitUnit_completes (e := e1) f (hgroup ▸ Group.inRange_of_empty hunits hcbp)
  have hput : putFill f b e = .ok ({ e2 with etodo := e2.best.len, eph := .run }, out) := by
    simp only [putFill, hfull, if_true, h1, emitUnitTodo, h2]
  obtain rfl := (putFill_inRange hrange hf hput).2
  exact ⟨e1, e2, h1, hw1, h2, hput⟩

theorem putFill_completes (f : Obf) (b : Byte) (hs : e.Safe) (hf : e.eph = .fill) :
    ∃ e' out, putFill f b e = .ok (e', out) ∧ e'.TreesOk := by
  by_cases h17 : e.elen = 17#5
  · obtain ⟨e1, e2, -, hw1, h2, hput⟩ := putFill_full f b hs hf h17
    refine ⟨_, _, hput, (Enc.treesOk_run rfl).2 ?_⟩
    have hkeep : e2.ebuf = e1.ebuf ∧ e2.links = e1.links ∧ e2.r = e1.r := by
      rw [emitUnit_frame h2]; exact ⟨rfl, rfl, rfl⟩
    exact hw1.of_eq hkeep.1 hkeep.2.1 hkeep.2.2
  · have hroom : e.elen + 1#5 ≠ 18#5 := fun h => h17 (by bv_omega)
    obtain ⟨-, -, htrees⟩ := hs
    exact ⟨_, _, putFill_of_room f b hroom, (Enc.treesOk_fill (e := storeLookAhead b e) hf).2
      ((Enc.treesOk_fill hf).1 htrees).of_leaves⟩

/-- A byte in RUN: CONSUME, and a unit where the one in progress is covered. -/
theorem putRun_step (f : Obf) (b : Byte) (hs : e.Safe) (hr : e.eph = .run) :
    ∃ l e1 e2 out, deleteLinks e.s e.links = .ok l ∧
      insertLinks (writeRing e.ebuf e.s b) (e.r + 1#12) l e.best = .ok (e1.links, e1.best) ∧
      e1 = { e with ebuf := writeRing e.ebuf e.s b, r := e.r + 1#12, links := e1.links, best := e1.best,
                    etodo := e.etodo - 1#5 } ∧
      e1.WindowHoldsR ∧ putRun f b e = .ok (e2, out) ∧
      (e.etodo ≠ 1#5 → e2 = e1 ∧ out = []) ∧
      (e.etodo = 1#5 → ∃ e3, emitUnit f e1 = .ok (e3, out) ∧ e2 = { e3 with etodo := e3.best.len }) := by
  obtain ⟨hrange, -, htrees⟩ := hs
  obtain ⟨-, -, hlo, -, hg⟩ := (Enc.inRange_run hr).1 hrange
  obtain ⟨l, l', m, hdel, hins, hw⟩ := consume_completes ((Enc.treesOk_run hr).1 htrees).windowOk b
  have hconsume := consume_eq hdel hins
  by_cases h1 : e.etodo = 1#5
  · have h0 : e.etodo - 1#5 = 0#5 := by rw [h1]; rfl
    obtain ⟨e3, out, h3⟩ := emitUnit_completes (e := { e with
      ebuf := writeRing e.ebuf e.s b, r := e.r + 1#12, links := l', best := m, etodo := e.etodo - 1#5 }) f hg
    refine ⟨l, { e with ebuf := writeRing e.ebuf e.s b, r := e.r + 1#12, links := l', best := m, etodo := e.etodo - 1#5 },
      _, out, hdel, hins, rfl, hw.of_eq rfl rfl rfl, ?_, fun h => absurd h1 h, fun _ => ⟨e3, h3, rfl⟩⟩
    simp only [putRun, hconsume, h0, if_true, emitUnitTodo]
    rw [h0] at h3
    simp only [h3]
  · have h0 : e.etodo - 1#5 ≠ 0#5 := fun h => h1 (by bv_omega)
    refine ⟨l, { e with ebuf := writeRing e.ebuf e.s b, r := e.r + 1#12, links := l', best := m, etodo := e.etodo - 1#5 },
      _, [], hdel, hins, rfl, hw.of_eq rfl rfl rfl, ?_, fun _ => ⟨rfl, rfl⟩, fun h => absurd h h1⟩
    simp only [putRun, hconsume, if_neg h0]

theorem putRun_completes (f : Obf) (b : Byte) (hs : e.Safe) (hr : e.eph = .run) :
    ∃ e' out, putRun f b e = .ok (e', out) ∧ e'.TreesOk := by
  obtain ⟨l, e1, e2, out, -, -, hframe, hw, hput, hmore, hlast⟩ := putRun_step f b hs hr
  have heph1 : e1.eph = .run := by rw [hframe]; exact hr
  refine ⟨e2, out, hput, ?_⟩
  by_cases h1 : e.etodo = 1#5
  · obtain ⟨e3, h3, rfl⟩ := hlast h1
    have hunit := emitUnit_frame h3
    have hkeep : e3.eph = e1.eph ∧ e3.ebuf = e1.ebuf ∧ e3.links = e1.links ∧ e3.r = e1.r := by
      rw [hunit]; exact ⟨rfl, rfl, rfl, rfl⟩
    obtain ⟨heph, hebuf, hlinks, hr3⟩ := hkeep
    exact (Enc.treesOk_run (by exact heph.trans heph1)).2 (hw.of_eq hebuf hlinks hr3)
  · obtain ⟨rfl, -⟩ := hmore h1
    exact (Enc.treesOk_run heph1).2 hw

/-! ## ENC.FINISH -/

/-- ENC.FINISH in FILL with a byte: START, then DRAIN. -/
theorem finishFill_start (f : Obf) (hs : e.Safe) (hf : e.eph = .fill) (h0 : e.elen ≠ 0#5) :
    ∃ e1 e2 out, start e = .ok e1 ∧ drain f e1 = .ok (e2, out) ∧ finishFill f e = .ok (e2, out) := by
  obtain ⟨hrange, -, htrees⟩ := hs
  obtain ⟨-, hr, -, -, hunits, hcbp⟩ := (Enc.inRange_fill hf).1 hrange
  obtain ⟨e1, h1, hw1⟩ := start_completes ((Enc.treesOk_fill hf).1 htrees) hr
  have hgroup : e1.group = e.group := by rw [start_frame h1]
  obtain ⟨e2, out, h2⟩ := drain_completes f hw1.windowOk (hgroup ▸ Group.inRange_of_empty hunits hcbp)
  exact ⟨e1, e2, out, h1, h2, by simp only [finishFill, if_neg h0, h1, h2]⟩

/-- ENC.FINISH in RUN: the rest of the unit in progress, then DRAIN. -/
theorem finishRun_advance (f : Obf) (hs : e.Safe) (hr : e.eph = .run) :
    ∃ e1 e2 out, advanceEmptyTimes e.etodo.toNat e = .ok e1 ∧ drain f { e1 with etodo := 0#5 } = .ok (e2, out) ∧
      finishRun f e = .ok (e2, out) := by
  obtain ⟨hrange, -, htrees⟩ := hs
  obtain ⟨-, -, -, -, hg⟩ := (Enc.inRange_run hr).1 hrange
  obtain ⟨e1, h1, hw1⟩ := advanceEmptyTimes_completes ((Enc.treesOk_run hr).1 htrees).windowOk e.etodo.toNat
  have hgroup : e1.group = e.group := by rw [advanceEmptyTimes_frame h1]
  have hw1' : Enc.WindowOk { e1 with etodo := 0#5 } := hw1.of_eq rfl rfl rfl
  obtain ⟨e2, out, h2⟩ := drain_completes f hw1' (show e1.group.InRange from hgroup ▸ hg)
  exact ⟨e1, e2, out, h1, h2, by simp only [finishRun, h1, h2]⟩

/-- What ENC.FINISH in FILL codes: nothing of an empty look-ahead, else what DRAIN codes after START. -/
theorem finishFill_cases (f : Obf) (hs : e.Safe) (hf : e.eph = .fill) :
    ∃ e1 e2 out, finishFill f e = .ok (e2, out) ∧ (e.elen = 0#5 → e2 = e ∧ out = []) ∧
      (e.elen ≠ 0#5 → start e = .ok e1 ∧ drain f e1 = .ok (e2, out)) := by
  by_cases h0 : e.elen = 0#5
  · exact ⟨e, e, [], if_pos h0, fun _ => ⟨rfl, rfl⟩, fun h => absurd h0 h⟩
  · obtain ⟨e1, e2, out, h1, h2, h⟩ := finishFill_start f hs hf h0
    exact ⟨e1, e2, out, h, fun h => absurd h h0, fun _ => ⟨h1, h2⟩⟩

end

end Sys2Proof.Machine
end

section
/-! The whole block: safe states are closed under steps, and from them no step stops (40_lzss_encoder.md R114,
41_lzss_decoder.md R158, 60_exceptions.md R225). -/

namespace Sys2Proof.Machine

section
variable {s t : State} {i : Instr}

/-! ## The decoder's ranges (41_lzss_decoder.md R158) -/

theorem Dec.inRange_initial : Dec.initial.InRange := ⟨fun _ => rfl, by decide, rfl⟩

theorem ofNat_length_setWidth (w : Word) (n : Nat) :
    startPos + (w + BitVec.ofNat 32 n).setWidth 12 = startPos + w.setWidth 12 + BitVec.ofNat 12 n := by
  rw [BitVec.add_assoc]
  congr 1
  apply BitVec.eq_of_toNat_eq
  simp only [BitVec.toNat_setWidth, BitVec.toNat_add, BitVec.toNat_ofNat]
  omega

/-- The byte step moves DR by the bytes it emits, and leaves DUNIT 0 where a control byte is next. -/
theorem decByte_inRange {d : Dec} (f : Obf) (b : Byte) (h : d.InRange) :
    ((decByte f b d).1.countPut (decByte f b d).2).InRange := by
  obtain ⟨hctl, hend, hdr⟩ := h
  have hlast : ∀ d : Dec, d.nextUnit.dsub = .ctl → d.nextUnit.dunit = 0#3 := by
    intro d hsub
    rw [Dec.nextUnit_dsub] at hsub
    split at hsub
    · next h7 => rw [Dec.nextUnit_dunit, h7]; rfl
    · cases hsub
  obtain ⟨-, hstep⟩ | ⟨-, -, hstep⟩ | ⟨-, -, hstep⟩ | ⟨-, hstep⟩ := decByte_cases f b d <;> rw [hstep]
  · exact ⟨nofun, hend, by simpa using hdr⟩
  · refine ⟨hlast _, by simpa using hend, ?_⟩
    simp only [Dec.countPut_dr, Dec.nextUnit_dr, Dec.put_dr, Dec.countPut_dout, Dec.nextUnit_dout, Dec.put_dout,
      ofNat_length_setWidth, hdr, List.length_singleton]
  · exact ⟨nofun, hend, by simpa using hdr⟩
  · rw [decCopy_frame]
    refine ⟨hlast _, by simpa using hend, ?_⟩
    simp only [Dec.countPut_dr, Dec.nextUnit_dr, Dec.countPut_dout, Dec.nextUnit_dout, ofNat_length_setWidth, hdr,
      decCopy_length]

theorem execDecPut_keeps_inRange {b : Byte} (hs : s.dec.InRange) (h : execDecPut b s = .next t) : t.dec.InRange := by
  obtain ⟨-, rfl⟩ | ⟨hd, rfl⟩ | ⟨-, rfl⟩ := execDecPut_next h
  · exact hs
  · obtain ⟨hctl, hend, hdr⟩ := hs
    exact ⟨hctl, by simpa [hd] using hend, hdr⟩
  · exact decByte_inRange s.obf b hs

theorem execDecFinish_keeps_inRange (hs : s.dec.InRange) (h : execDecFinish s = .next t) : t.dec.InRange := by
  obtain ⟨hctl, hend, hdr⟩ := hs
  obtain ⟨-, rfl⟩ | ⟨hd, rfl⟩ | ⟨-, rfl⟩ := execDecFinish_next h
  · exact ⟨hctl, hend, hdr⟩
  · exact ⟨hctl, by simpa [hd] using hend, hdr⟩
  · have hstatus : s.dec.endStatus ≠ .none := by
      unfold Dec.endStatus
      split
      · nofun
      · split <;> nofun
      · nofun
    exact ⟨hctl, by simpa using hstatus, hdr⟩

theorem exec_keeps_decInRange (i : Instr) (s t : State) (hs : s.dec.InRange) (h : exec i s = .next t) :
    t.dec.InRange := by
  cases i with
  | nop => cases h; exact hs
  | encReset => cases h; exact hs
  | encPut b => obtain ⟨-, rfl⟩ | ⟨-, rfl⟩ | ⟨e, out, -, rfl⟩ := execEncPut_next h <;> exact hs
  | encFinish => obtain ⟨-, rfl⟩ | ⟨-, rfl⟩ | ⟨e, out, -, rfl⟩ := execEncFinish_next h <;> exact hs
  | decReset => cases h; exact Dec.inRange_initial
  | decPut b => exact execDecPut_keeps_inRange hs h
  | decFinish => exact execDecFinish_keeps_inRange hs h
  | pwdClear => cases h; exact hs
  | pwdAppend b => obtain ⟨-, rfl⟩ | ⟨-, -, rfl⟩ | ⟨-, -, rfl⟩ := execPwdAppend_next h <;> exact hs
  | obf32 v => cases h; exact hs
  | rdreg b => obtain ⟨v, -, rfl⟩ | ⟨-, rfl⟩ := execRdreg_next h <;> exact hs

/-! ## The encoder's invariant -/

theorem forest_initial : Forest [] Links.empty fun _ => .leaf :=
  ⟨fun _ => rfl, fun _ => List.nodup_nil, nofun, fun _ h => absurd rfl h, fun _ => List.Pairwise.nil⟩

theorem Enc.safe_initial : Enc.initial.Safe :=
  ⟨Enc.bounded_initial.1, Enc.bounded_initial.2, (Enc.treesOk_fill rfl).2 forest_initial⟩

theorem Enc.TreesOk.of_eq {e e' : Enc} (h : e.TreesOk) (heph : e'.eph = e.eph) (hring : e'.ebuf = e.ebuf)
    (hlinks : e'.links = e.links) (hr : e'.r = e.r) : e'.TreesOk := by
  unfold Enc.TreesOk
  rw [heph, hring, hlinks, hr]
  exact h

theorem execEncPut_keeps_trees {b : Byte} (hs : s.enc.Safe) (h : execEncPut b s = .next t) : t.enc.TreesOk := by
  obtain ⟨-, rfl⟩ | ⟨-, rfl⟩ | ⟨e, out, ⟨hf, he⟩ | ⟨hr, he⟩, rfl⟩ := execEncPut_next h
  · exact hs.2.2
  · exact Enc.treesOk_finished (.inr rfl)
  · obtain ⟨e', out', hput, htrees⟩ := putFill_completes s.obf b hs hf
    rw [he] at hput
    cases hput
    exact htrees.of_eq rfl rfl rfl rfl
  · obtain ⟨e', out', hput, htrees⟩ := putRun_completes s.obf b hs hr
    rw [he] at hput
    cases hput
    exact htrees.of_eq rfl rfl rfl rfl

theorem execEncFinish_keeps_trees (hs : s.enc.Safe) (h : execEncFinish s = .next t) : t.enc.TreesOk := by
  obtain ⟨-, rfl⟩ | ⟨-, rfl⟩ | ⟨e, out, -, rfl⟩ := execEncFinish_next h
  · exact hs.2.2
  · exact Enc.treesOk_finished (.inr rfl)
  · exact Enc.treesOk_finished (.inl rfl)

theorem exec_keeps_trees (hs : s.enc.Safe) (h : exec i s = .next t) : t.enc.TreesOk := by
  by_cases hi : isEncoderCommand i = true
  · cases i with
    | encReset => cases h; exact Enc.safe_initial.2.2
    | encPut b => exact execEncPut_keeps_trees hs h
    | encFinish => exact execEncFinish_keeps_trees hs h
    | nop | decReset | decPut | decFinish | pwdClear | pwdAppend | obf32 | rdreg => cases hi
  · obtain henc | henc := exec_keeps_enc (Bool.eq_false_iff.2 hi) h <;> rw [henc]
    · exact hs.2.2
    · exact hs.2.2.of_eq rfl rfl rfl rfl

/-! ## Safe states -/

theorem exec_keeps_safe (i : Instr) (s t : State) (hs : Safe s) (h : exec i s = .next t) : Safe t := by
  obtain ⟨hcanon, henc, hdec, hpwd⟩ := hs
  obtain ⟨hrange, hmirror⟩ := exec_keeps_bounded i s t ⟨henc.1, henc.2.1⟩ h
  exact ⟨exec_keeps_canonical i s t hcanon h, ⟨hrange, hmirror, exec_keeps_trees henc h⟩,
    exec_keeps_decInRange i s t hdec h, exec_keeps_passwordOk i s t hpwd h⟩

theorem powerOnReset_safe (s : State) (hs : Safe s) : Safe s.powerOnReset := by
  obtain ⟨-, -, -, hpwd⟩ := hs
  exact ⟨canonical_powerOn s.cfg, Enc.safe_initial, Dec.inRange_initial,
    passwordOk_of_empty hpwd.pwdMax_pos rfl rfl rfl⟩

/-- Settles O51: every command keeps each of the four parts, and a reset sets them all up. -/
theorem everyStepKeepsSafety : Obligations.EveryStepKeepsSafety :=
  fun _ _ hs h => step_keeps (P := Safe) (fun _ _ hs => hs) powerOnReset_safe exec_keeps_safe (fun _ _ hs => hs) hs h

/-! ## Progress -/

theorem execEncPut_completes (b : Byte) (hs : s.enc.Safe) : ∃ t, exec (.encPut b) s = .next t := by
  cases heph : s.enc.eph with
  | error => exact ⟨s.reject .failed, by simp only [exec, execEncPut, heph]⟩
  | done => exact ⟨s.rejectEncDone, by simp only [exec, execEncPut, heph]⟩
  | fill =>
    obtain ⟨e, out, hput, -⟩ := putFill_completes s.obf b hs heph
    exact ⟨_, exec_encPut_of_fill heph hput⟩
  | run =>
    obtain ⟨e, out, hput, -⟩ := putRun_completes s.obf b hs heph
    exact ⟨_, exec_encPut_of_run heph hput⟩

theorem execEncFinish_completes (hs : s.enc.Safe) : ∃ t, exec .encFinish s = .next t := by
  cases heph : s.enc.eph with
  | error => exact ⟨s.reject .failed, by simp only [exec, execEncFinish, heph]⟩
  | done => exact ⟨s.rejectEncDone, by simp only [exec, execEncFinish, heph]⟩
  | fill =>
    obtain ⟨-, e, out, hfin, -⟩ := finishFill_cases s.obf hs heph
    exact ⟨_, exec_encFinish_of_fill heph hfin⟩
  | run =>
    obtain ⟨e1, e, out, -, -, hfin⟩ := finishRun_advance s.obf hs heph
    exact ⟨_, exec_encFinish_of_run heph hfin⟩

theorem exec_completes (i : Instr) (hs : s.enc.Safe) : ∃ t, exec i s = .next t := by
  cases i with
  | encPut b => exact execEncPut_completes b hs
  | encFinish => exact execEncFinish_completes hs
  | nop => exact ⟨_, rfl⟩
  | encReset => exact ⟨_, rfl⟩
  | decReset => exact ⟨_, rfl⟩
  | decPut b => simp only [exec, execDecPut]; split <;> exact ⟨_, rfl⟩
  | decFinish => simp only [exec, execDecFinish]; split <;> exact ⟨_, rfl⟩
  | pwdClear => exact ⟨_, rfl⟩
  | pwdAppend b =>
    simp only [exec, execPwdAppend]
    split
    · exact ⟨_, rfl⟩
    · split <;> exact ⟨_, rfl⟩
  | obf32 v => exact ⟨_, rfl⟩
  | rdreg b => simp only [exec, execRdreg]; split <;> exact ⟨_, rfl⟩

/-- Settles O52: an idle step, a reset and a rejected word always answer, and a command completes within the encoder's
invariant. -/
theorem safeStateNeverStops : Obligations.SafeStateNeverStops := by
  intro s hs
  cases hp : s.pending with
  | nil => exact ⟨s, by rw [step, takeInput_nil hp]⟩
  | cons x rest =>
    cases x with
    | powerOn => exact ⟨_, by rw [step, takeInput_cons hp]⟩
    | command w =>
      cases hw : decode w with
      | error e => exact ⟨_, step_of_decode_error hp hw⟩
      | ok i =>
        rw [step_of_decode_ok hp hw]
        exact exec_completes i hs.2.1

end

end Sys2Proof.Machine
end

section
/-! What ENC.PUT and ENC.FINISH do from an encoder state within its invariant (40_lzss_encoder.md R112, R113). -/

namespace Sys2Proof.Machine

theorem Group.Adds.of_eq {g g' g'' : Group} {lit : Byte} {pos : Pos} {len : Nat} (h : g.Adds lit pos len g')
    (hcbp : g''.cbp = g'.cbp) (hcbuf : g''.cbuf = g'.cbuf) : g.Adds lit pos len g'' := by
  refine ⟨fun hlen => ?_, fun hlen => ?_⟩ <;> rw [hcbp, hcbuf]
  · exact h.literal hlen
  · exact h.reference hlen

/-! ## ENC.PUT of the 18th byte -/

/-- Settles O43: START from empty trees on the stored byte, then the first unit of an empty group. -/
theorem encPutOfTheEighteenthByteStartsTheRun : Obligations.EncPutOfTheEighteenthByteStartsTheRun := by
  intro b s hs hf h17
  obtain ⟨e1, e2, hstart, -, hunit, hput⟩ := putFill_full s.obf b hs hf h17
  obtain ⟨hrange, -, htrees⟩ := hs
  obtain ⟨-, hr, -, -, hunits, hcbp⟩ := (Enc.inRange_fill hf).1 hrange
  obtain ⟨e1', T, hall, hframe1, hlen, hF, -, hnodes, hkeys⟩ :=
    insertAll_startPositions (e := storeLookAhead b s.enc) ((Enc.treesOk_fill hf).1 htrees).of_leaves
  have hsame : e1' = e1 := by
    rw [start_eq_insertAll, storeLookAhead_r, show s.enc.r = 4078#12 from hr, hall] at hstart
    exact Except.ok.inj hstart
  subst hsame
  have hgroup1 : e1'.group = s.enc.group := by rw [hframe1]; rfl
  have hr1 : e1'.r = 4078#12 := by rw [hframe1]; exact hr
  have helen1 : e1'.elen = 18#5 := by rw [hframe1]; exact (congrArg (· + 1#5) h17)
  have hebuf1 : e1'.ebuf = (storeLookAhead b s.enc).ebuf := by rw [hframe1]
  obtain ⟨g, hadds, hframe2, hcount, -⟩ :=
    emitUnit_adds hunit (hgroup1 ▸ Group.inRange_of_empty hunits hcbp) helen1 hlen
  obtain ⟨hlo, hhi⟩ := emitUnit_len_bounds hunit (by rw [helen1]; decide)
  rw [hgroup1, hunits] at hcount
  obtain ⟨-, hepcur, hgroup2⟩ := hcount (by decide)
  rw [hgroup1, hr1, hebuf1] at hadds
  have hkeep : e2.ebuf = (storeLookAhead b s.enc).ebuf ∧ e2.links = e1'.links ∧ e2.best = e1'.best.coded ∧
      e2.r = s.enc.r ∧ e2.elen = 18#5 ∧ e2.ein = s.enc.ein ∧ e2.eout = s.enc.eout := by
    rw [hframe2]
    refine ⟨hebuf1, rfl, rfl, hr1.trans hr.symm, helen1, ?_, ?_⟩ <;> rw [hframe1] <;> rfl
  obtain ⟨hebuf2, hlinks2, hbest2, hr2, helen2, hein2, heout2⟩ := hkeep
  have hepcur2 : e2.epcur = s.enc.epcur := hepcur.trans (by rw [hframe1]; rfl)
  have hbase : storeLookAhead b s.enc = { s.enc with ebuf := e2.ebuf, elen := 18#5 } := by
    rw [hebuf2]
    simp [storeLookAhead, h17]
  have hread := storeLookAhead_read hr (by rw [h17]; decide) b
  rw [← hebuf2] at hread hadds hF hkeys
  rw [h17] at hread
  rw [helen1] at hhi
  have hadds2 : s.enc.group.Adds (e2.ebuf.read 4078) e1'.best.pos e1'.best.len.toNat e2.group :=
    hadds.of_eq (by rw [hgroup2]) (by rw [hgroup2])
  refine ⟨_, e1', T, exec_encPut_of_fill hf hput, rfl, ?_, hread, hbase ▸ hall, hlinks2, hlinks2 ▸ hF, hnodes, hkeys,
    hbest2, hadds2, hlo, hhi, congrArg Group.gunits hgroup2⟩
  simp [Enc.countPut, hr2, helen2, hepcur2, hein2, heout2]

/-! ## ENC.PUT in RUN -/

/-- Settles O44: CONSUME leaves the match; while a unit is being covered that is all, else the unit of the match is
coded. -/
theorem encPutInRunShiftsTheWindow : Obligations.EncPutInRunShiftsTheWindow := by
  intro b s hs hr
  obtain ⟨l, e1, e2, out, hdel, hins, hframe1, -, hput, hmore, hlast⟩ := putRun_step s.obf b hs hr
  obtain ⟨hrange, -, -⟩ := hs
  obtain ⟨-, helen, -, -, hg⟩ := (Enc.inRange_run hr).1 hrange
  obtain ⟨-, hle, hne1⟩ := putRun_inRange hrange hr hput
  have hkeep1 : e1.ebuf = writeRing s.enc.ebuf (s.enc.r + 18#12) b ∧ e1.r = s.enc.r + 1#12 ∧ e1.elen = 18#5 ∧
      e1.etodo = s.enc.etodo - 1#5 ∧ e1.group = s.enc.group ∧ e1.epcur = s.enc.epcur := by
    rw [hframe1]; exact ⟨rfl, rfl, helen, rfl, rfl, rfl⟩
  obtain ⟨hebuf1, hr1, helen1, hetodo1, hgroup1, hepcur1⟩ := hkeep1
  have hframe2 : e2 = { e1 with etodo := e2.etodo, best := e2.best, group := e2.group, epcur := e2.epcur } := by
    by_cases h1 : s.enc.etodo = 1#5
    · obtain ⟨e3, h3, rfl⟩ := hlast h1
      have hunit := emitUnit_frame h3
      rw [hunit]
    · obtain ⟨rfl, -⟩ := hmore h1; rfl
  have hkeep2 : e2.ebuf = e1.ebuf ∧ e2.links = e1.links ∧ e2.eph = s.enc.eph ∧ e2.r = s.enc.r + 1#12 ∧
      e2.elen = s.enc.elen ∧ e2.ein = s.enc.ein ∧ e2.eout = s.enc.eout := by
    rw [hframe2]
    refine ⟨rfl, rfl, ?_⟩
    rw [hframe1]
    exact ⟨rfl, rfl, rfl, rfl, rfl⟩
  obtain ⟨hebuf2, hlinks2, heph2, hr2, helen2, hein2, heout2⟩ := hkeep2
  refine ⟨_, out, l, e1.best, exec_encPut_of_run hr hput, rfl, ?_, fun a => ?_, hdel, ?_, fun hne => ?_, fun h1 => ?_⟩
  · simp [Enc.countPut, heph2, hr2, helen2, hein2, heout2]
  · exact (congrArg (·.read a) (hebuf2.trans hebuf1)).trans (writeRing_read _ _ _ _)
  · simp only [State.respondEnc_enc, Enc.countPut_ebuf, Enc.countPut_links, hebuf2, hebuf1, hlinks2]
    exact hins
  · obtain ⟨rfl, rfl⟩ := hmore hne
    exact ⟨rfl, hetodo1, rfl, hgroup1, hepcur1⟩
  · obtain ⟨e3, h3, rfl⟩ := hlast h1
    obtain ⟨g, hadds, hframe3, hcount, hemit⟩ := emitUnit_adds h3 (hgroup1 ▸ hg) helen1 (insertLinks_len hins)
    rw [hgroup1, hr1, ← hebuf2] at hadds
    rw [hgroup1, hepcur1] at hcount hemit
    have hbest3 : e3.best = e1.best.coded := by rw [hframe3]
    refine ⟨hbest3, rfl, g, hadds, hcount, fun h7 => ?_⟩
    obtain ⟨hgroup3, hepcur3, hout⟩ := hemit h7
    have hpos : 1 ≤ out.length := by rw [hout]; exact Nat.succ_pos _
    have hempty : e3.group.cbp = 1#5 ∧ e3.group.gunits = 0#3 ∧ e3.group.cbuf.read 0 = 0#8 := by
      rw [hgroup3]; exact ⟨rfl, rfl, by simp⟩
    exact ⟨by omega, hle, hout, hepcur3, hempty⟩

/-! ## ENC.FINISH -/

section
variable {f : Obf} {e e' : Enc} {out : List Byte}

theorem finishFill_frame (hs : e.InRange) (hf : e.eph = .fill) (h : finishFill f e = .ok (e', out)) :
    e' = { e with r := e.r + e.elen.setWidth 12, elen := 0#5, etodo := 0#5, links := e'.links, best := e'.best,
                  group := e'.group, epcur := e'.epcur } := by
  obtain ⟨-, -, -, hetodo, -⟩ := (Enc.inRange_fill hf).1 hs
  obtain ⟨h0, rfl, -⟩ | ⟨-, e1, h1, h2⟩ := finishFill_ok h
  · have hr : e'.r + e'.elen.setWidth 12 = e'.r := by rw [h0]; simp
    rw [hr]
    exact congrArg₂ (fun n m => { e' with elen := n, etodo := m }) h0 hetodo
  · have hdrain := drain_frame h2
    rw [start_frame h1] at hdrain
    simp only [hetodo] at hdrain
    exact hdrain

theorem finishRun_frame (hs : e.InRange) (hr : e.eph = .run) (h : finishRun f e = .ok (e', out)) :
    e' = { e with r := e.r + e.elen.setWidth 12, elen := 0#5, etodo := 0#5, links := e'.links, best := e'.best,
                  group := e'.group, epcur := e'.epcur } := by
  obtain ⟨-, helen, -, hhi, -⟩ := (Enc.inRange_run hr).1 hs
  obtain ⟨e1, h1, h2⟩ := finishRun_ok h
  have hdrain := drain_frame h2
  rw [advanceEmptyTimes_frame h1] at hdrain
  have hend : e.r + BitVec.ofNat 12 e.etodo.toNat + (e.elen - BitVec.ofNat 5 e.etodo.toNat).setWidth 12 =
      e.r + e.elen.setWidth 12 := by
    rw [helen, BitVec.add_assoc]
    congr 1
    apply BitVec.eq_of_toNat_eq
    simp only [BitVec.toNat_add, BitVec.toNat_setWidth, BitVec.toNat_sub, BitVec.toNat_ofNat]
    omega
  rw [← hend]
  exact hdrain

theorem countFinish_frame (h : e' = { e with
      r := e.r + e.elen.setWidth 12, elen := 0#5, etodo := 0#5, links := e'.links, best := e'.best,
      group := e'.group, epcur := e'.epcur }) :
    e'.countFinish out = { e with
      eph := .done, links := e'.links, r := e.r + e.elen.setWidth 12, elen := 0#5, etodo := 0#5, best := e'.best,
      group := e'.group, epcur := e'.epcur, eout := e.eout + BitVec.ofNat 32 out.length } ∧
    e'.countFinish out = { e' with eph := .done, eout := e.eout + BitVec.ofNat 32 out.length } := by
  have heout : e'.eout = e.eout := by rw [h]
  refine ⟨?_, ?_⟩
  · rw [Enc.countFinish, heout]
    exact congrArg (fun x : Enc => { x with eph := .done, eout := e.eout + BitVec.ofNat 32 out.length }) h
  · rw [Enc.countFinish, heout]

end

/-- Settles O45: in FILL nothing, or START and DRAIN; in RUN the rest of the unit and DRAIN. -/
theorem encFinishDrainsTheLookAhead : Obligations.EncFinishDrainsTheLookAhead := by
  intro s hs hph
  have hrange := hs.1
  obtain hf | hr := hph
  · obtain ⟨e1, e2, out, hfin, hempty, hstart⟩ := finishFill_cases s.obf hs hf
    obtain ⟨hfinished, hlen⟩ := finishFill_inRange hrange hf hfin
    obtain ⟨-, -, -, hunits, hcbp⟩ := (Enc.inRange_finished (.inl rfl)).1 hfinished
    obtain ⟨henc, hcount⟩ := countFinish_frame (out := out) (finishFill_frame hrange hf hfin)
    obtain ⟨-, hr, -⟩ := (Enc.inRange_fill hf).1 hrange
    rw [start_eq_insertAll, hr] at hstart
    exact ⟨_, out, e1, e2, exec_encFinish_of_fill hf hfin, rfl, henc, hcbp, hunits, hlen, hcount, fun _ => hempty,
      fun _ => hstart, fun hr => absurd (hf.symm.trans hr) (by decide)⟩
  · obtain ⟨e1, e2, out, hadvance, hdrain, hfin⟩ := finishRun_advance s.obf hs hr
    obtain ⟨hfinished, hlen⟩ := finishRun_inRange hrange hr hfin
    obtain ⟨-, -, -, hunits, hcbp⟩ := (Enc.inRange_finished (.inl rfl)).1 hfinished
    obtain ⟨henc, hcount⟩ := countFinish_frame (out := out) (finishRun_frame hrange hr hfin)
    have hnot : s.enc.eph ≠ .fill := by rw [hr]; decide
    exact ⟨_, out, e1, e2, exec_encFinish_of_run hr hfin, rfl, henc, hcbp, hunits, hlen, hcount,
      fun hf => absurd hf hnot, fun hf => absurd hf hnot, fun _ => ⟨hadvance, hdrain⟩⟩

end Sys2Proof.Machine
end

section
/-! The decoder's commands (41_lzss_decoder.md R151 to R157): what each does in each state, and the bytes a DEC.PUT
emits. -/

namespace Sys2Proof.Machine

section
variable {s t : State} {b : Byte}

theorem exec_decPut_of_active (ha : s.dec.dph = .active) : exec (.decPut b) s = .next
    (s.respondDec ((decByte s.obf b s.dec).1.countPut (decByte s.obf b s.dec).2) (decByte s.obf b s.dec).2) := by
  simp only [exec, execDecPut, ha]

theorem exec_decFinish_of_active (ha : s.dec.dph = .active) : exec .decFinish s = .next
    ({ s with dec := { s.dec with dend := s.dec.endStatus, dph := .done } }.respondOk
      (s.dec.endStatus.bits.setWidth 32)) := by
  simp only [exec, execDecFinish, ha]

theorem Dec.nextUnit_eq (d : Dec) : d.nextUnit =
    { d with
      dunit := if d.dunit = 7#3 then 0#3 else d.dunit + 1#3
      dsub := if d.dunit = 7#3 then .ctl else .unit } := by
  unfold Dec.nextUnit
  split <;> rfl

/-- The bytes a DEC.PUT emits are those of its byte step: none, a literal, or a copy of 3 to 18 (41_lzss_decoder.md
R161). -/
theorem decByte_length (f : Obf) (b : Byte) (d : Dec) :
    (decByte f b d).2.length ≤ 18 ∧ (decByte f b d).2.length ≠ 2 := by
  obtain ⟨-, h⟩ | ⟨-, -, h⟩ | ⟨-, -, h⟩ | ⟨-, h⟩ := decByte_cases f b d <;> rw [h]
  · simp
  · simp
  · simp
  · obtain ⟨hlo, hhi⟩ := refLen_bounds b
    rw [decCopy_length]
    omega

/-- Every command but DEC.PUT gives one response without decoder output. -/
theorem exec_decOut_of_not_decPut {i : Instr} (hi : ∀ b, i ≠ .decPut b) (h : exec i s = .next t) :
    ∃ r, t.responses = s.responses ++ [r] ∧ r.decOut = [] := by
  cases i with
  | decPut b => exact absurd rfl (hi b)
  | nop => cases h; exact ⟨_, rfl, rfl⟩
  | encReset => cases h; exact ⟨_, rfl, rfl⟩
  | encPut b => obtain ⟨-, rfl⟩ | ⟨-, rfl⟩ | ⟨e, out, -, rfl⟩ := execEncPut_next h <;> exact ⟨_, rfl, rfl⟩
  | encFinish => obtain ⟨-, rfl⟩ | ⟨-, rfl⟩ | ⟨e, out, -, rfl⟩ := execEncFinish_next h <;> exact ⟨_, rfl, rfl⟩
  | decReset => cases h; exact ⟨_, rfl, rfl⟩
  | decFinish => obtain ⟨-, rfl⟩ | ⟨-, rfl⟩ | ⟨-, rfl⟩ := execDecFinish_next h <;> exact ⟨_, rfl, rfl⟩
  | pwdClear => cases h; exact ⟨_, rfl, rfl⟩
  | pwdAppend b =>
    obtain ⟨-, rfl⟩ | ⟨-, -, rfl⟩ | ⟨-, -, rfl⟩ := execPwdAppend_next h <;> exact ⟨_, rfl, rfl⟩
  | obf32 v => cases h; exact ⟨_, rfl, rfl⟩
  | rdreg b => obtain ⟨v, -, rfl⟩ | ⟨-, rfl⟩ := execRdreg_next h <;> exact ⟨_, rfl, rfl⟩

theorem execDecPut_decOut (h : execDecPut b s = .next t) :
    ∃ r, t.responses = s.responses ++ [r] ∧ r.decOut.length ≤ 18 ∧ r.decOut.length ≠ 2 := by
  obtain ⟨-, rfl⟩ | ⟨-, rfl⟩ | ⟨-, rfl⟩ := execDecPut_next h
  · exact ⟨_, rfl, by decide, by decide⟩
  · exact ⟨_, rfl, by decide, by decide⟩
  · exact ⟨_, rfl, decByte_length s.obf b s.dec⟩

end

/-- Settles O30: a byte step moves DR by the bytes it emits and ends a group with DUNIT 0, and DEND leaves NONE with
ACTIVE. -/
theorem everyStepKeepsDecoderRanges : Obligations.EveryStepKeepsDecoderRanges :=
  fun _ _ hs h => step_keeps (P := fun s => s.dec.InRange) (fun _ _ hs => hs) (fun _ _ => Dec.inRange_initial)
    exec_keeps_decInRange (fun _ _ hs => hs) hs h

/-- Settles O24: the reset decoder, and the argument check of format Z. -/
theorem decResetRestartsTheDecoder : Obligations.DecResetRestartsTheDecoder :=
  ⟨fun _ => ⟨_, rfl, rfl, rfl, rfl, Memory.read_nil, rfl, rfl, rfl, rfl, rfl, rfl, rfl, rfl⟩,
    fun arg harg => answersRsvd_of_decode ((decode_decReset arg).trans (decodeZ_of_ne_zero harg _))⟩

/-- Settles O25, by the control byte step. -/
theorem decPutReadsControlByte : Obligations.DecPutReadsControlByte := by
  intro b s ha hsub
  have hstep : decByte s.obf b s.dec = (decControl s.obf b s.dec, []) := by rw [decByte, hsub]
  rw [exec_decPut_of_active ha, hstep]
  simp [State.respondDec, State.respond, Dec.countPut, decControl]

/-- Settles O26, by the two branches of the unit step. -/
theorem decPutTakesLiteralOrFirstReferenceByte : Obligations.DecPutTakesLiteralOrFirstReferenceByte := by
  intro b s ha hsub
  refine ⟨fun hlit => ?literal, fun href => ?reference⟩
  case literal =>
    have hstep : decByte s.obf b s.dec = ((s.dec.put b).nextUnit, [b]) := by
      simp only [decByte, hsub, decUnit, isLiteral, hlit, if_true]
    refine ⟨_, exec_decPut_of_active ha, ?_, ?_, fun a => ?_⟩ <;> rw [hstep]
    · rfl
    · rw [Dec.nextUnit_eq]; rfl
    · simp [Memory.read_write]
  case reference =>
    have hstep : decByte s.obf b s.dec = ({ s.dec with dreflo := b, dsub := .refhi }, []) := by
      simp only [decByte, hsub, decUnit, isLiteral, href, Bool.false_eq_true, if_false]
    rw [exec_decPut_of_active ha, hstep]
    simp [State.respondDec, State.respond, Dec.countPut]

/-- Settles O28: in ACTIVE each row of R157 is the end status of its DSUB and DUNIT. -/
theorem decFinishClassifiesTheEnd : Obligations.DecFinishClassifiesTheEnd := by
  refine ⟨fun s ha => ?active, fun s hd => ?done, fun s he => ?error, fun arg harg => ?rsvd⟩
  case active =>
    rw [exec_decFinish_of_active ha]
    refine ⟨fun hsub => ?_, fun hsub hunit => ?_, fun hsub hunit => ?_, fun hsub => ?_⟩
    · simp only [Dec.endStatus, hsub]; rfl
    · simp only [Dec.endStatus, hsub, hunit, if_true]; rfl
    · simp only [Dec.endStatus, hsub, if_neg hunit]; rfl
    · simp only [Dec.endStatus, hsub]; rfl
  case done => simp only [exec, execDecFinish, hd]; rfl
  case error => simp only [exec, execDecFinish, he]; rfl
  case rsvd => exact answersRsvd_of_decode ((decode_decFinish arg).trans (decodeZ_of_ne_zero harg _))

/-- Settles O29, by the length of what a byte step emits. -/
theorem decoderOutputBurstIsBounded : Obligations.DecoderOutputBurstIsBounded := by
  intro i s t r h hr
  have hunique : ∀ r', t.responses = s.responses ++ [r'] → r' = r := by
    intro r' hr'
    rw [hr] at hr'
    simpa using hr'.symm
  by_cases hi : ∃ b, i = .decPut b
  · obtain ⟨b, rfl⟩ := hi
    obtain ⟨r', hr', hle, hne⟩ := execDecPut_decOut h
    obtain rfl := hunique r' hr'
    exact ⟨hle, hne, fun hnot => absurd rfl (hnot b)⟩
  · obtain ⟨r', hr', hnil⟩ := exec_decOut_of_not_decPut (not_exists.1 hi) h
    obtain rfl := hunique r' hr'
    rw [hnil]
    exact ⟨by decide, by decide, fun _ => rfl⟩

end Sys2Proof.Machine
end

section
/-! The copy of a back-reference, byte by byte (41_lzss_decoder.md R154). -/

namespace Sys2Proof.Machine

/-- Byte k of a copy is what an earlier step of it wrote at the byte's source, or else the ring's byte there
(41_lzss_decoder.md R154). -/
theorem decCopy_getD {n : Nat} (src : Pos) (d : Dec) (hn : n ≤ 4096) {k : Nat} (hk : k < n) :
    (decCopy n src d).2.getD k 0#8 =
      if (src + BitVec.ofNat 12 k - d.dr).toNat < k
      then (decCopy n src d).2.getD (src + BitVec.ofNat 12 k - d.dr).toNat 0#8
      else d.dbuf.read (src + BitVec.ofNat 12 k).toNat := by
  induction n generalizing src d k with
  | zero => exact absurd hk (Nat.not_lt_zero k)
  | succ n ih =>
    rw [decCopy_succ]
    cases k with
    | zero => simp
    | succ k =>
      have hk : k < n := Nat.lt_of_succ_lt_succ hk
      have hsrc := ofNat12_succ src k
      rw [List.getD_cons_succ, ih (src + 1#12) _ (by omega) hk, hsrc, Dec.put_dr, Dec.put_dbuf, Memory.read_write]
      generalize src + BitVec.ofNat 12 (k + 1) = p
      by_cases hp : p = d.dr
      · have hlast : (p - (d.dr + 1#12)).toNat = 4095 := by rw [hp]; bv_omega
        have hfirst : (p - d.dr).toNat = 0 := by rw [hp]; simp
        rw [hlast, hfirst, if_neg (by omega), if_pos (Nat.succ_pos k), hp, if_pos rfl, List.getD_cons_zero]
      · have hnext : (p - d.dr).toNat = (p - (d.dr + 1#12)).toNat + 1 := by bv_omega
        have hne : p.toNat ≠ d.dr.toNat := fun he => hp (BitVec.eq_of_toNat_eq he)
        rw [hnext, if_neg hne, List.getD_cons_succ]
        simp only [Nat.add_lt_add_iff_right]

/-- After a copy the ring holds its bytes from DR on and is unchanged elsewhere (41_lzss_decoder.md R154). -/
theorem decCopy_read {n : Nat} (src : Pos) (d : Dec) (hn : n ≤ 4096) (p : Pos) :
    (decCopy n src d).1.dbuf.read p.toNat =
      if (p - d.dr).toNat < n then (decCopy n src d).2.getD (p - d.dr).toNat 0#8 else d.dbuf.read p.toNat := by
  induction n generalizing src d with
  | zero => rfl
  | succ n ih =>
    rw [decCopy_succ, ih (src + 1#12) _ (by omega), Dec.put_dr, Dec.put_dbuf, Memory.read_write]
    by_cases hp : p = d.dr
    · have hlast : (p - (d.dr + 1#12)).toNat = 4095 := by rw [hp]; bv_omega
      have hfirst : (p - d.dr).toNat = 0 := by rw [hp]; simp
      rw [hlast, hfirst, if_neg (by omega), if_pos (Nat.succ_pos n), hp, if_pos rfl, List.getD_cons_zero]
    · have hnext : (p - d.dr).toNat = (p - (d.dr + 1#12)).toNat + 1 := by bv_omega
      have hne : p.toNat ≠ d.dr.toNat := fun he => hp (BitVec.eq_of_toNat_eq he)
      rw [hnext, if_neg hne, List.getD_cons_succ]
      simp only [Nat.add_lt_add_iff_right]

/-- A back-reference's end changes the ring, its write position and the unit count (41_lzss_decoder.md R151, R154). -/
theorem nextUnit_decCopy_frame (n : Nat) (src : Pos) (d : Dec) : (decCopy n src d).1.nextUnit =
    { d with
      dbuf := (decCopy n src d).1.dbuf
      dr := d.dr + BitVec.ofNat 12 n
      dunit := if d.dunit = 7#3 then 0#3 else d.dunit + 1#3
      dsub := if d.dunit = 7#3 then .ctl else .unit } := by
  rw [Dec.nextUnit_eq, decCopy_frame]

/-- Settles O27, by the copy loop from its first byte on. -/
theorem decPutCopiesBackReference : Obligations.DecPutCopiesBackReference := by
  intro b s ha hsub
  have hstep : decByte s.obf b s.dec = ((decCopy (refLen b) (refPos s.dec.dreflo b) s.dec).1.nextUnit,
      (decCopy (refLen b) (refPos s.dec.dreflo b) s.dec).2) := by rw [decByte, hsub, decRef]
  have hlen : refLen b ≤ 4096 := (refLen_bounds b).2.trans (by decide)
  refine ⟨_, (decCopy (refLen b) (refPos s.dec.dreflo b) s.dec).2, refPos s.dec.dreflo b, exec_decPut_of_active ha,
    refPos_toNat _ _, (decCopy_length ..).trans (refLen_eq b), ?_, ?_, fun k hk => ?_, fun p => ?_⟩
  · rw [hstep]; rfl
  · rw [hstep, decCopy_length]
    refine (congrArg (Dec.countPut · _) (nextUnit_decCopy_frame ..)).trans ?_
    simp [Dec.countPut]
  · rw [decCopy_length] at hk
    exact decCopy_getD _ _ hlen hk
  · rw [hstep, decCopy_length]
    exact (congrArg (·.read p.toNat) (Dec.nextUnit_dbuf _)).trans (decCopy_read _ _ hlen p)

end Sys2Proof.Machine
end

section
/-! The decoder fed with a stream: the bytes of a DEC.PUT each, the units of a group under their control byte, and the
run of commands (41_lzss_decoder.md R152 to R156; 30_encoding.md R88). -/

namespace Sys2Proof.Machine

/-- The decoder after a DEC.PUT of each byte, and what these emit (41_lzss_decoder.md R156). -/
def decFeed (f : Obf) : List Byte → Dec → Dec × List Byte
  | [], d => (d, [])
  | b :: bytes, d =>
    let step := decByte f b d
    let rest := decFeed f bytes (step.1.countPut step.2)
    (rest.1, step.2 ++ rest.2)

section
variable {f : Obf} {b lo hi ctl : Byte} {d d1 d2 : Dec} {o1 o2 more : List Byte} {n : Nat}

@[simp] theorem decFeed_nil (f : Obf) (d : Dec) : decFeed f [] d = (d, []) := rfl

theorem decFeed_cons (h : decByte f b d = (d1, o1)) (hrest : decFeed f more (d1.countPut o1) = (d2, o2)) :
    decFeed f (b :: more) d = (d2, o1 ++ o2) := by
  simp only [decFeed, h, hrest]

theorem decFeed_append {bytes : List Byte} (h : decFeed f bytes d = (d1, o1)) (hmore : decFeed f more d1 = (d2, o2)) :
    decFeed f (bytes ++ more) d = (d2, o1 ++ o2) := by
  induction bytes generalizing d o1 with
  | nil => cases h; exact hmore
  | cons b bytes ih =>
    cases h
    rw [List.append_assoc]
    exact decFeed_cons rfl (ih rfl)

/-! ## Units under a control byte -/

/-- The decoder before unit n of the group with this control byte; after the eighth unit a control byte follows
(41_lzss_decoder.md R151). -/
def Dec.atUnit (d : Dec) (ctl : Byte) (n : Nat) : Dec :=
  { d with dctl := ctl, dunit := BitVec.ofNat 3 n, dsub := if n = 8 then .ctl else .unit }

theorem Dec.atUnit_dsub_of_lt (d : Dec) (ctl : Byte) (hn : n ≤ 7) : (d.atUnit ctl n).dsub = .unit :=
  if_neg (by omega)

/-- NEXT_UNIT counts the unit, whatever DSUB was (41_lzss_decoder.md R151). -/
theorem Dec.nextUnit_atUnit (d : Dec) (ctl : Byte) (hn : n ≤ 7) (sub : DecSub) :
    Dec.nextUnit { d.atUnit ctl n with dsub := sub } = d.atUnit ctl (n + 1) := by
  have hlast : BitVec.ofNat 3 n = 7#3 ↔ n = 7 := by
    rw [← BitVec.toNat_inj, BitVec.toNat_ofNat, BitVec.toNat_ofNat]
    omega
  have hnext : (if n = 7 then 0#3 else BitVec.ofNat 3 n + 1#3) = BitVec.ofNat 3 (n + 1) := by
    split
    · next h7 => rw [h7]; rfl
    · rw [BitVec.ofNat_add]
  rw [Dec.nextUnit_eq]
  simp only [Dec.atUnit, hlast, hnext, Nat.reduceEqDiff]

/-- A control byte, masked with the password byte, opens its group (41_lzss_decoder.md R152). -/
theorem decFeed_control (hsub : d.dsub = .ctl) (ctl : Byte) :
    decFeed f [ctl ^^^ (pbyteTake f d.dpcur).1] d =
      (({ d with dpcur := (pbyteTake f d.dpcur).2 }.countPut []).atUnit ctl 0, []) := by
  refine decFeed_cons (o1 := []) (o2 := []) (by rw [decByte, hsub]) ?_
  simp [decControl, Dec.countPut, Dec.atUnit]

/-- These bytes are a unit that leads the decoder from d to d' and emits out, in every group whose control byte says
at the unit's place whether it is a literal. -/
def UnitDecodes (f : Obf) (literal : Bool) (bytes : List Byte) (d d' : Dec) (out : List Byte) : Prop :=
  ∀ (ctl : Byte) (n : Nat), n ≤ 7 → ctl.getLsbD n = literal →
    decFeed f bytes (d.atUnit ctl n) = (d'.atUnit ctl (n + 1), out)

theorem isLiteral_atUnit (d : Dec) (ctl : Byte) (hn : n ≤ 7) :
    isLiteral (d.atUnit ctl n).dctl (d.atUnit ctl n).dunit = ctl.getLsbD n := by
  have hunit : (BitVec.ofNat 3 n).toNat = n := Nat.mod_eq_of_lt (by omega)
  simp only [isLiteral, Dec.atUnit, hunit]

theorem unitDecodes_literal (f : Obf) (d : Dec) (b : Byte) :
    UnitDecodes f true [b] d ((d.put b).countPut [b]) [b] := by
  intro ctl n hn hbit
  have hstep : decByte f b (d.atUnit ctl n) = (((d.atUnit ctl n).put b).nextUnit, [b]) := by
    rw [decByte, d.atUnit_dsub_of_lt ctl hn]
    simp only [decUnit, isLiteral_atUnit d ctl hn, hbit, if_true]
  refine decFeed_cons (o2 := []) hstep ?_
  have hnext := (d.put b).nextUnit_atUnit ctl hn (d.atUnit ctl n).dsub
  rw [show (d.atUnit ctl n).put b = { (d.put b).atUnit ctl n with dsub := (d.atUnit ctl n).dsub } from rfl, hnext]
  rfl

/-- A copy depends on the ring and its write position only. -/
theorem decCopy_of_ring {src : Pos} (hbuf : d1.dbuf = d2.dbuf) (hdr : d1.dr = d2.dr) : decCopy n src d1 =
    ({ d1 with dbuf := (decCopy n src d2).1.dbuf, dr := d1.dr + BitVec.ofNat 12 n }, (decCopy n src d2).2) := by
  have hsame : (decCopy n src d1).1.dbuf = (decCopy n src d2).1.dbuf ∧ (decCopy n src d1).2 = (decCopy n src d2).2 := by
    induction n generalizing src d1 d2 with
    | zero => exact ⟨hbuf, rfl⟩
    | succ n ih =>
      have hput : ∀ c, (d1.put c).dbuf = (d2.put c).dbuf := fun c => by simp only [Dec.put_dbuf, hbuf, hdr]
      obtain ⟨hring, hout⟩ := ih (src := src + 1#12) (hput (d2.dbuf.read src.toNat)) (congrArg (· + 1#12) hdr)
      rw [decCopy_succ, decCopy_succ, hbuf]
      exact ⟨hring, congrArg (d2.dbuf.read src.toNat :: ·) hout⟩
  obtain ⟨hring, hout⟩ := hsame
  rw [← hring]
  exact Prod.ext (decCopy_frame n src d1) hout

/-- The second byte of a back-reference, on any decoder with the ring of d (41_lzss_decoder.md R154). -/
theorem decByte_of_ring (hsub : d1.dsub = .refhi) (hbuf : d1.dbuf = d2.dbuf) (hdr : d1.dr = d2.dr) :
    decByte f hi d1 =
      (Dec.nextUnit { d1 with
        dbuf := (decCopy (refLen hi) (refPos d1.dreflo hi) d2).1.dbuf, dr := d1.dr + BitVec.ofNat 12 (refLen hi) },
      (decCopy (refLen hi) (refPos d1.dreflo hi) d2).2) := by
  have hstep : decByte f hi d1 = decRef hi d1 := by rw [decByte, hsub]
  rw [hstep, decRef, decCopy_of_ring hbuf hdr]

theorem unitDecodes_reference (f : Obf) (d : Dec) (lo hi : Byte) : ∃ d' : Dec,
    UnitDecodes f false [lo, hi] d d' (decCopy (refLen hi) (refPos lo hi) d).2 ∧
    d'.dbuf = (decCopy (refLen hi) (refPos lo hi) d).1.dbuf ∧ d'.dr = d.dr + BitVec.ofNat 12 (refLen hi) ∧
    d'.dpcur = d.dpcur := by
  refine ⟨Dec.countPut { Dec.countPut { d with dreflo := lo } [] with
    dbuf := (decCopy (refLen hi) (refPos lo hi) d).1.dbuf, dr := d.dr + BitVec.ofNat 12 (refLen hi) }
    (decCopy (refLen hi) (refPos lo hi) d).2, fun ctl n hn hbit => ?_, rfl, rfl, rfl⟩
  have hfirst : decByte f lo (d.atUnit ctl n) = ({ d.atUnit ctl n with dreflo := lo, dsub := .refhi }, []) := by
    rw [decByte, d.atUnit_dsub_of_lt ctl hn]
    simp only [decUnit, isLiteral_atUnit d ctl hn, hbit, Bool.false_eq_true, if_false]
  have hsecond := decByte_of_ring (f := f) (hi := hi) (d2 := d)
    (d1 := Dec.countPut { d.atUnit ctl n with dreflo := lo, dsub := .refhi } []) rfl rfl rfl
  have hnext := Dec.nextUnit_atUnit { Dec.countPut { d with dreflo := lo } [] with
    dbuf := (decCopy (refLen hi) (refPos lo hi) d).1.dbuf, dr := d.dr + BitVec.ofNat 12 (refLen hi) } ctl hn .refhi
  rw [← List.append_nil (decCopy (refLen hi) (refPos lo hi) d).2]
  refine decFeed_cons (o1 := []) hfirst (decFeed_cons (o2 := []) hsecond ?_)
  rw [decFeed_nil, List.append_nil]
  exact congrArg (fun d' : Dec => (d'.countPut (decCopy (refLen hi) (refPos lo hi) d).2, ([] : List Byte))) hnext

/-! ## The commands of a decoder stream -/

theorem decByte_dph (f : Obf) (b : Byte) (d : Dec) : (decByte f b d).1.dph = d.dph := by
  obtain ⟨-, h⟩ | ⟨-, -, h⟩ | ⟨-, -, h⟩ | ⟨-, h⟩ := decByte_cases f b d <;> rw [h]
  · rfl
  · simp
  · rw [Dec.nextUnit_dph, decCopy_frame]

theorem decBytes_cons (r : Response) (rs : List Response) : decBytes (r :: rs) = r.decOut ++ decBytes rs := rfl

theorem decBytes_append (rs rs' : List Response) : decBytes (rs ++ rs') = decBytes rs ++ decBytes rs' :=
  List.flatMap_append

theorem decFeed_dph {bytes : List Byte} (h : decFeed f bytes d = (d1, o1)) : d1.dph = d.dph := by
  induction bytes generalizing d o1 with
  | nil => cases h; rfl
  | cons b bytes ih => cases h; exact (ih rfl).trans (decByte_dph f b d)

theorem runCommands_append {is js : List Instr} {s t : State} (h : runCommands is s = .next t) :
    runCommands (is ++ js) s = runCommands js t := by
  induction is generalizing s with
  | nil => cases h; rfl
  | cons i is ih =>
    obtain ⟨u, hexec, hrest⟩ := runCommands_cons_next h
    rw [List.cons_append, runCommands_cons hexec, ih hrest]

/-- A DEC.PUT of each byte feeds the decoder and answers with what it emits. -/
theorem runCommands_decPut {s : State} (bytes : List Byte) (ha : s.dec.dph = .active) : ∃ u rs,
    runCommands (bytes.map .decPut) s = .next u ∧ u.responses = s.responses ++ rs ∧
      decFeed s.obf bytes s.dec = (u.dec, decBytes rs) := by
  induction bytes generalizing s with
  | nil => exact ⟨s, [], rfl, (List.append_nil _).symm, rfl⟩
  | cons b bytes ih =>
    have hexec := exec_decPut_of_active (b := b) ha
    obtain ⟨u, rs, hrun, hresp, hfeed⟩ := ih (s := s.respondDec
      ((decByte s.obf b s.dec).1.countPut (decByte s.obf b s.dec).2) (decByte s.obf b s.dec).2)
      ((decByte_dph s.obf b s.dec).trans ha)
    rw [State.respondDec_responses, List.append_assoc] at hresp
    exact ⟨u, _ :: rs, (runCommands_cons hexec).trans hrun, hresp, decFeed_cons rfl hfeed⟩

theorem exec_decFinish_clean {s : State} (ha : s.dec.dph = .active) (hend : s.dec.endStatus = .clean) :
    ∃ u, exec .decFinish s = .next u ∧ u.responses = s.responses ++ [⟨.ok, 1#32, [], []⟩] ∧ u.dec.dend = .clean := by
  rw [exec_decFinish_of_active ha, hend]
  exact ⟨_, rfl, rfl, rfl⟩

/-- A decoder stream emits what its bytes decode to and ends CLEAN where they end between two units
(41_lzss_decoder.md R155 to R157). -/
theorem runCommands_decodeStream {s : State} {bytes out : List Byte} {d : Dec}
    (h : decFeed s.obf bytes Dec.initial = (d, out)) (hend : d.endStatus = .clean) : ∃ u rs,
    runCommands (decodeStream bytes) s = .next u ∧ u.responses = s.responses ++ rs ∧ decBytes rs = out ∧
      u.dec.dend = .clean := by
  obtain ⟨t, rs, hrun, hresp, hfeed⟩ := runCommands_decPut (s := { s with dec := Dec.initial }.respondOk 0#32) bytes rfl
  obtain ⟨hd, hout⟩ := Prod.mk.inj (h.symm.trans hfeed)
  have hactive : t.dec.dph = .active := by
    rw [← hd]
    exact decFeed_dph h
  obtain ⟨u, hfinish, hresp', hclean⟩ := exec_decFinish_clean hactive (hd ▸ hend)
  refine ⟨u, ⟨.ok, 0#32, [], []⟩ :: rs ++ [⟨.ok, 1#32, [], []⟩], ?_, by simp [hresp', hresp], ?_, hclean⟩
  · rw [decodeStream, runCommands_append ((runCommands_cons rfl).trans hrun)]
    exact runCommands_cons hfinish
  · rw [decBytes_append, decBytes_cons, hout]
    exact List.append_nil _

end

end Sys2Proof.Machine
end

section
/-! A unit reproduces the look-ahead it codes: the decoder's ring agrees with the encoder's outside the look-ahead, and
the match lies outside it (40_lzss_encoder.md R107, R115; 41_lzss_decoder.md R153, R154, R160). -/

namespace Sys2Proof.Machine

/-- The bytes of the ring at r + j .. r + j + n − 1. -/
def ringBytes (ring : Memory) (r : Pos) (j n : Nat) : List Byte :=
  (List.range' j n).map fun i => ring.read (r + BitVec.ofNat 12 i).toNat

/-- The decoder's ring buf agrees with the encoder's ring but for the last bytes r + j .. r + 17 of the look-ahead at r,
which are still to be decoded. -/
def RingsAgree (ring : Memory) (r : Pos) (j : Nat) (buf : Memory) : Prop :=
  ∀ p : Pos, ((p - r).toNat < j ∨ 18 ≤ (p - r).toNat) → buf.read p.toNat = ring.read p.toNat

/-- The match names bytes outside the look-ahead at r that, read on into it, are the look-ahead's
(40_lzss_encoder.md R115). -/
structure Match.Holds (m : Match) (ring : Memory) (r : Pos) : Prop where
  len_le : m.len.toNat ≤ 18
  outside : 0 < m.len.toNat → 18 ≤ (m.pos - r).toNat
  agrees : ∀ i : Nat, i < m.len.toNat →
    ring.read (m.pos + BitVec.ofNat 12 i).toNat = ring.read (r + BitVec.ofNat 12 i).toNat

section
variable {f : Obf} {ring ring' buf : Memory} {r : Pos} {j n : Nat} {m : Match} {d : Dec}

@[simp] theorem ringBytes_length (ring : Memory) (r : Pos) (j n : Nat) : (ringBytes ring r j n).length = n := by
  simp [ringBytes]

theorem ringBytes_add (ring : Memory) (r : Pos) (j k n : Nat) :
    ringBytes ring r j (k + n) = ringBytes ring r j k ++ ringBytes ring r (j + k) n := by
  rw [ringBytes, ringBytes, ringBytes, ← List.map_append, List.range'_append_1]

theorem ringBytes_one (ring : Memory) (r : Pos) (j : Nat) :
    ringBytes ring r j 1 = [ring.read (r + BitVec.ofNat 12 j).toNat] := rfl

theorem ringBytes_next (ring : Memory) (r : Pos) (j n : Nat) :
    ringBytes ring (r + 1#12) j n = ringBytes ring r (j + 1) n := by
  rw [ringBytes, ringBytes, Nat.add_comm j 1, ← List.map_add_range', List.map_map]
  exact List.map_congr_left fun i _ => by rw [ofNat12_succ, Function.comp_apply, Nat.add_comm 1 i]

theorem ringBytes_congr (h : ∀ i : Nat, j ≤ i → i < j + n →
    ring'.read (r + BitVec.ofNat 12 i).toNat = ring.read (r + BitVec.ofNat 12 i).toNat) :
    ringBytes ring' r j n = ringBytes ring r j n :=
  List.map_congr_left fun i hi => by
    rw [List.mem_range'_1] at hi
    exact h i hi.1 hi.2

theorem ringBytes_getD {k : Nat} (hk : k < n) :
    (ringBytes ring r 0 n).getD k 0#8 = ring.read (r + BitVec.ofNat 12 k).toNat := by
  simp [ringBytes, List.getD_eq_getElem?_getD, List.getElem?_range' hk]

/-- A literal is the first byte of the look-ahead. -/
theorem literal_reproduces (hdr : d.dr = r) (h : RingsAgree ring r 0 d.dbuf) :
    RingsAgree ring r 1 (d.put (ring.read r.toNat)).dbuf := by
  intro p hp
  rw [Dec.put_dbuf, Memory.read_write, hdr]
  split
  · next he => rw [he]
  · next hne =>
    have hpr : p ≠ r := fun he => hne (congrArg BitVec.toNat he)
    exact h p (.inr (by bv_omega))

/-- A copy of the match is the look-ahead: a byte is read outside the look-ahead, where the rings agree, or was written
by the copy itself. -/
theorem copy_reproduces (hm : m.Holds ring r) (hdr : d.dr = r) (h : RingsAgree ring r 0 d.dbuf)
    (hn : n ≤ m.len.toNat) : (decCopy n m.pos d).2 = ringBytes ring r 0 n ∧
      RingsAgree ring r n (decCopy n m.pos d).1.dbuf := by
  have h18 := hm.len_le
  have hn4096 : n ≤ 4096 := by omega
  have hbyte : ∀ k, k < n → (decCopy n m.pos d).2.getD k 0#8 = ring.read (r + BitVec.ofNat 12 k).toNat := by
    intro k
    induction k using Nat.strongRecOn with
    | ind k ih =>
      intro hk
      have hout := hm.outside (by omega)
      have hoffset : (m.pos + BitVec.ofNat 12 k - r).toNat < k ∨ 18 ≤ (m.pos + BitVec.ofNat 12 k - r).toNat := by
        bv_omega
      have hsource : r + BitVec.ofNat 12 (m.pos + BitVec.ofNat 12 k - r).toNat = m.pos + BitVec.ofNat 12 k := by
        bv_omega
      rw [decCopy_getD m.pos d hn4096 hk, hdr, ← hm.agrees k (by omega)]
      split
      · next hlt => rw [ih _ hlt (by omega), hsource]
      · next hge => exact h _ (.inr (hoffset.resolve_left hge))
  refine ⟨List.ext_getElem (by simp) fun k hk hk' => ?_, fun p hp => ?_⟩
  · have hkn : k < n := by simpa using hk'
    rw [← List.getD_eq_getElem _ 0#8 hk, ← List.getD_eq_getElem _ 0#8 hk', hbyte k hkn, ringBytes_getD hkn]
  · rw [decCopy_read m.pos d hn4096, hdr]
    split
    · next hlt =>
      have hsource : r + BitVec.ofNat 12 (p - r).toNat = p := by bv_omega
      rw [hbyte _ hlt, hsource]
    · next hge => exact h p (.inr (hp.resolve_left hge))

/-! ## The window moves -/

theorem RingsAgree.of_ring (h : RingsAgree ring r j buf)
    (hring : ∀ p : Pos, ((p - r).toNat < j ∨ 18 ≤ (p - r).toNat) → ring'.read p.toNat = ring.read p.toNat) :
    RingsAgree ring' r j buf := fun p hp => (h p hp).trans (hring p hp).symm

/-- One byte of the unit in progress leaves the look-ahead. -/
theorem RingsAgree.next (h : RingsAgree ring r (j + 1) buf) (hj : j < 18) : RingsAgree ring (r + 1#12) j buf := by
  intro p hp
  refine h p ?_
  bv_omega

end

end Sys2Proof.Machine
end

section
/-! The emitted bytes with the pending group, as the decoder reads them, through EMIT_UNIT and EMIT_GROUP
(40_lzss_encoder.md R106, R107; 41_lzss_decoder.md R160). -/

namespace Sys2Proof.Machine

/-- The bytes emitted so far, followed by the pending group g of n units, lead the decoder from its reset state to d and
decode to out. The group's control byte is not yet fixed: any byte with the literal bits of the n units will do, masked
with the password byte at the cursor. Where no unit is pending, the emitted bytes alone end CLEAN. -/
structure Streamed (f : Obf) (code : List Byte) (cur : BitVec 8) (g : Group) (n : Nat) (d : Dec) (out : List Byte) :
    Prop where
  feed : ∀ ctl : Byte, (∀ i < n, ctl.getLsbD i = (g.cbuf.read 0).getLsbD i) →
    decFeed f (code ++ (ctl ^^^ (pbyteTake f cur).1) :: g.unitBytes) Dec.initial = (d.atUnit ctl n, out)
  clear : ∀ i, n ≤ i → (g.cbuf.read 0).getLsbD i = false
  cursor : d.dpcur = (pbyteTake f cur).2
  clean : n = 0 → ∃ d0, decFeed f code Dec.initial = (d0, out) ∧ d0.endStatus = .clean

section
variable {f : Obf} {code out o bytes : List Byte} {cur : BitVec 8} {g g' : Group} {n : Nat} {d d' d0 : Dec}

/-- Between two groups: nothing is pending. -/
theorem streamed_of_empty (h : decFeed f code Dec.initial = (d0, out)) (hsub : d0.dsub = .ctl) (hcur : d0.dpcur = cur)
    (hunits : g.unitBytes = []) (hclear : g.cbuf.read 0 = 0#8) :
    ∃ d, Streamed f code cur g 0 d out ∧ d.dbuf = d0.dbuf ∧ d.dr = d0.dr := by
  subst hcur
  refine ⟨Dec.countPut { d0 with dpcur := (pbyteTake f d0.dpcur).2 } [],
    ⟨fun ctl _ => ?_, fun i _ => by simp [hclear], rfl, fun _ => ⟨d0, h, ?_⟩⟩, rfl, rfl⟩
  · rw [hunits, ← List.append_nil out]
    exact decFeed_append h (decFeed_control hsub ctl)
  · rw [Dec.endStatus, hsub]

/-- A unit joins the pending group. -/
theorem Streamed.add {literal : Bool} (h : Streamed f code cur g n d out) (hn : n ≤ 7)
    (hunit : UnitDecodes f literal bytes d d' o) (hcur : d'.dpcur = d.dpcur)
    (hbytes : g'.unitBytes = g.unitBytes ++ bytes)
    (hbit : ∀ i, (g'.cbuf.read 0).getLsbD i = if i = n then literal else (g.cbuf.read 0).getLsbD i) :
    Streamed f code cur g' (n + 1) d' (out ++ o) where
  feed ctl hctl := by
    have hold : ∀ i < n, ctl.getLsbD i = (g.cbuf.read 0).getLsbD i := fun i hi => by
      rw [hctl i (by omega), hbit, if_neg (by omega)]
    have hnew : ctl.getLsbD n = literal := by rw [hctl n (by omega), hbit, if_pos rfl]
    rw [hbytes, ← List.cons_append, ← List.append_assoc]
    exact decFeed_append (h.feed ctl hold) (hunit ctl n hn hnew)
  clear i hi := by
    rw [hbit, if_neg (by omega)]
    exact h.clear i (by omega)
  cursor := hcur.trans h.cursor
  clean h0 := absurd h0 (Nat.succ_ne_zero n)

/-- The pending group emitted, with the control byte of its units. -/
theorem Streamed.feed_group (h : Streamed f code cur g n d out) :
    decFeed f (code ++ (g.cbuf.read 0 ^^^ (pbyteTake f cur).1) :: g.unitBytes) Dec.initial =
      (d.atUnit (g.cbuf.read 0) n, out) := h.feed _ fun _ _ => rfl

theorem Group.restart_unitBytes (g : Group) : g.restart.unitBytes = [] := rfl

/-- After the eighth unit a new group begins. -/
theorem Streamed.emit_full (h : Streamed f code cur g 8 d out) :
    ∃ d', Streamed f (code ++ (g.cbuf.read 0 ^^^ (pbyteTake f cur).1) :: g.unitBytes) (pbyteTake f cur).2 g.restart 0
      d' out ∧ d'.dbuf = d.dbuf ∧ d'.dr = d.dr :=
  streamed_of_empty (d0 := d.atUnit (g.cbuf.read 0) 8) h.feed_group rfl h.cursor g.restart_unitBytes (by simp)

/-- A partial group emitted at the end: the stream ends CLEAN after its last unit. -/
theorem Streamed.emit_partial (h : Streamed f code cur g n d out) (h1 : 1 ≤ n) (h7 : n ≤ 7) :
    ∃ d0, decFeed f (code ++ (g.cbuf.read 0 ^^^ (pbyteTake f cur).1) :: g.unitBytes) Dec.initial = (d0, out) ∧
      d0.endStatus = .clean := by
  refine ⟨_, h.feed_group, ?_⟩
  have hunit : (d.atUnit (g.cbuf.read 0) n).dunit ≠ 0#3 := fun h0 => by
    have hnat := congrArg BitVec.toNat h0
    simp only [Dec.atUnit, BitVec.toNat_ofNat] at hnat
    omega
  rw [Dec.endStatus, d.atUnit_dsub_of_lt _ h7]
  exact if_neg hunit

/-! ## The unit a group takes -/

theorem Group.unitBytes_append (h1 : 1 ≤ g.cbp.toNat) {k : Nat} (hcbp : g'.cbp.toNat = g.cbp.toNat + k)
    (hread : ∀ a, 1 ≤ a → a < g.cbp.toNat → g'.cbuf.read a = g.cbuf.read a) :
    g'.unitBytes = g.unitBytes ++ (List.range' g.cbp.toNat k).map g'.cbuf.read := by
  have hlen : g'.cbp.toNat - 1 = (g.cbp.toNat - 1) + k := by omega
  have hstart : 1 + (g.cbp.toNat - 1) = g.cbp.toNat := by omega
  rw [Group.unitBytes, Group.unitBytes, hlen, ← List.range'_append_1, List.map_append, hstart]
  congr 1
  refine List.map_congr_left fun a ha => ?_
  rw [List.mem_range'_1] at ha
  exact hread a ha.1 (by omega)

theorem getLsbD_or_one_shiftLeft (x : Byte) (n i : Nat) (hn : n ≤ 7) :
    (x ||| (1#8 <<< n)).getLsbD i = if i = n then true else x.getLsbD i := by
  rw [BitVec.getLsbD_or, BitVec.getLsbD_shiftLeft, BitVec.getLsbD_one]
  split
  · next hi => simp [hi]; omega
  · next hi =>
    have hother : i < n ∨ i - n ≠ 0 := by omega
    obtain hlt | hne := hother <;> simp [*]

theorem Group.Adds.literal_unit {lit : Byte} {pos : Pos} {len : Nat} (h : g.Adds lit pos len g') (hlen : len ≤ 2)
    (hg : g.InRange) : g'.unitBytes = g.unitBytes ++ [lit] ∧
      ∀ i, (g'.cbuf.read 0).getLsbD i = if i = g.gunits.toNat then true else (g.cbuf.read 0).getLsbD i := by
  obtain ⟨hlo, hhi⟩ := hg
  have h7 := g.gunits.isLt
  obtain ⟨hcbp, hread⟩ := h.literal hlen
  have hcbp1 : g'.cbp.toNat = g.cbp.toNat + 1 := by
    rw [hcbp, BitVec.toNat_add, BitVec.toNat_ofNat]
    omega
  refine ⟨?_, fun i => ?_⟩
  · rw [Group.unitBytes_append (by omega) hcbp1 fun a h1 ha => by rw [hread, if_neg (by omega), if_neg (by omega)]]
    simp only [List.range'_one, List.map_cons, List.map_nil, hread, if_neg (show g.cbp.toNat ≠ 0 by omega), if_true]
  · rw [hread, if_pos rfl]
    exact getLsbD_or_one_shiftLeft _ _ _ (by omega)

theorem Group.Adds.reference_unit {lit : Byte} {pos : Pos} {len : Nat} (h : g.Adds lit pos len g') (h2 : 2 < len)
    (h18 : len ≤ 18) (hg : g.InRange) : ∃ lo hi, g'.unitBytes = g.unitBytes ++ [lo, hi] ∧ refPos lo hi = pos ∧
      refLen hi = len ∧ g'.cbuf.read 0 = g.cbuf.read 0 := by
  obtain ⟨hlo, hhi⟩ := hg
  have h7 := g.gunits.isLt
  have hpos := pos.isLt
  obtain ⟨hcbp, hread1, hread2, hread⟩ := h.reference h2
  have hcbp2 : g'.cbp.toNat = g.cbp.toNat + 2 := by
    rw [hcbp, BitVec.toNat_add, BitVec.toNat_ofNat]
    omega
  refine ⟨_, _, Group.unitBytes_append (by omega) hcbp2 fun a h1 ha => hread a (by omega) (by omega), ?_, ?_,
    hread 0 (by omega) (by omega)⟩
  · apply BitVec.eq_of_toNat_eq
    rw [refPos_toNat, hread1, hread2]
    omega
  · rw [refLen_eq, hread2]
    omega

end

end Sys2Proof.Machine
end

section
/-! The match each window procedure leaves at its new R (40_lzss_encoder.md R105, R108, R109, R115). -/

namespace Sys2Proof.Machine

theorem Mirrored.read_add {ring : Memory} (h : Mirrored ring) (p : Pos) {i : Nat} (hi : i ≤ 17) :
    ring.read (p + BitVec.ofNat 12 i).toNat = ring.read (p.toNat + i) := by
  rw [mirrored_iff] at h
  by_cases hlt : p.toNat + i < 4096
  · rw [BitVec.toNat_add, BitVec.toNat_ofNat, Nat.mod_eq_of_lt (by omega : i < 2 ^ 12), Nat.mod_eq_of_lt hlt]
  · have hwrap : (p + BitVec.ofNat 12 i).toNat = p.toNat + i - 4096 := by bv_omega
    have hend : p.toNat + i = 4096 + (p.toNat + i - 4096) := by omega
    have hp := p.isLt
    rw [hwrap, hend, h _ (by omega)]
    simp

section
variable {f : Obf} {b : Byte} {ring : Memory} {r : Pos} {t t' : Links} {T : Byte → Tree} {m m' : Match} {e e' : Enc}

/-- INSERT_NODE of the position after the cleared look-ahead leaves a match that lies outside the look-ahead. -/
theorem Forest.match_holds (h : Forest ring t T) (hmirror : Mirrored ring) (hclear : ClearAhead r 18 T)
    (hok : insertLinks ring (r + 1#12) t m = .ok (t', m')) : m'.Holds ring (r + 1#12) := by
  have hr : ∀ c, r + 1#12 ∉ (T c).inorder := fun c => hclear 1 c le_rfl (by decide)
  obtain ⟨hlen, hagrees⟩ := matchAgreesWithTheLookAhead ring _ t t' m m' T h hr hok
  refine ⟨hlen, fun hpos => ?_, fun i hi => ?_⟩
  · by_contra hlt
    obtain ⟨-, -, hfirst⟩ := foldl_improve ring (r + 1#12) ⟨0#5, m.pos⟩
      ((T (ring.read (r + 1#12).toNat)).path ring (r + 1#12))
    rw [← h.insertLinks_match hr hok] at hfirst
    obtain heq | ⟨before, p, rest, hpath, hp, -⟩ := hfirst
    · rw [heq] at hpos
      exact absurd hpos (Nat.lt_irrefl 0)
    · have hmem := Tree.mem_inorder_of_mem_path (hpath ▸ List.mem_append_right before List.mem_cons_self)
      have hahead : p = r + BitVec.ofNat 12 ((m'.pos - (r + 1#12)).toNat + 1) := by
        rw [← hp]
        bv_omega
      exact hclear _ _ (by omega) (by omega) (hahead ▸ hmem)
  · rw [hmirror.read_add _ (by omega), hmirror.read_add _ (by omega)]
    exact hagrees i hi

/-- DELETE_NODE(S) clears the whole look-ahead. -/
theorem Enc.WindowOk.delete {l : Links} (h : e.WindowOk) (hdel : deleteLinks e.s e.links = .ok l) :
    ∃ T, Forest e.ebuf l T ∧ ClearAhead e.r 18 T := by
  obtain ⟨T, hF, hclear⟩ := h
  obtain ⟨l', T', hdel', hF', hsub⟩ := hF.deleteAny e.s
  obtain rfl : l = l' := Except.ok.inj (hdel.symm.trans hdel')
  exact ⟨T', hF', hclear.delete hsub⟩

theorem consume_match (hw : e.WindowOk) (hmirror : Mirrored e.ebuf) (h : consume b e = .ok e') :
    e'.best.Holds e'.ebuf e'.r := by
  obtain ⟨l, m, l', hdel, hins, rfl⟩ := consume_ok h
  obtain ⟨T, hF, hclear⟩ := hw.delete hdel
  exact (hF.writeRing hclear b).match_holds (mirrored_writeRing hmirror _ _) hclear hins

theorem advanceEmpty_match (hw : e.WindowOk) (hmirror : Mirrored e.ebuf) (h : advanceEmpty e = .ok e')
    (h0 : e'.elen ≠ 0#5) : e'.best.Holds e'.ebuf e'.r := by
  obtain ⟨hframe, l, hdel, ⟨hlast, -⟩ | ⟨-, hins⟩⟩ := advanceEmpty_ok h
  · rw [hframe] at h0
    exact absurd hlast h0
  · obtain ⟨T, hF, hclear⟩ := hw.delete hdel
    have hkeep : e'.ebuf = e.ebuf ∧ e'.r = e.r + 1#12 := by rw [hframe]; exact ⟨rfl, rfl⟩
    rw [hkeep.1, hkeep.2]
    exact hF.match_holds hmirror hclear hins

theorem advanceEmpty_windowOk (hw : e.WindowOk) (h : advanceEmpty e = .ok e') : e'.WindowOk := by
  obtain ⟨e1, h1, hw1⟩ := advanceEmpty_completes hw
  rwa [Except.ok.inj (h.symm.trans h1)]

theorem advanceEmptyTimes_windowOk {n : Nat} (hw : e.WindowOk) (h : advanceEmptyTimes n e = .ok e') : e'.WindowOk := by
  obtain ⟨e1, h1, hw1⟩ := advanceEmptyTimes_completes hw n
  rwa [Except.ok.inj (h.symm.trans h1)]

theorem advanceEmptyTimes_succ_ok {n : Nat} (h : advanceEmptyTimes (n + 1) e = .ok e') :
    ∃ e1, advanceEmpty e = .ok e1 ∧ advanceEmptyTimes n e1 = .ok e' := by
  simp only [advanceEmptyTimes] at h
  split at h
  · cases h
  · next e1 h1 => exact ⟨e1, h1, h⟩

/-- After one or more advances the match is that of the last INSERT_NODE, unless the look-ahead is empty. -/
theorem advanceEmptyTimes_match {n : Nat} (hn : 1 ≤ n) (hw : e.WindowOk) (hmirror : Mirrored e.ebuf)
    (h : advanceEmptyTimes n e = .ok e') (h0 : e'.elen ≠ 0#5) : e'.best.Holds e'.ebuf e'.r := by
  induction n, hn using Nat.le_induction generalizing e with
  | base =>
    obtain ⟨e1, h1, hrest⟩ := advanceEmptyTimes_succ_ok h
    cases hrest
    exact advanceEmpty_match hw hmirror h1 h0
  | succ n hn ih =>
    obtain ⟨e1, h1, hrest⟩ := advanceEmptyTimes_succ_ok h
    have hebuf : e1.ebuf = e.ebuf := by rw [(advanceEmpty_ok h1).1]
    exact ih (advanceEmpty_windowOk hw h1) (hebuf ▸ hmirror) hrest

/-- START inserts 4078 last, when 4078 .. 4095 are in no tree (40_lzss_encoder.md R105). -/
theorem start_match (hF : Forest e.ebuf e.links fun _ => .leaf) (hr : e.r = 4078#12) (hmirror : Mirrored e.ebuf)
    (h : start e = .ok e') : e'.best.Holds e'.ebuf e'.r := by
  have hnodup := startPositions_nodup
  rw [startPositions_eq, List.nodup_append] at hnodup
  obtain ⟨hps, -, hlast⟩ := hnodup
  obtain ⟨e1, T1, hall, hframe, hF1, hnew, -⟩ := insertAll_completes hF hps fun p _ c => List.not_mem_nil
  have hkeep : e1.ebuf = e.ebuf ∧ e1.r = 4078#12 := by rw [hframe]; exact ⟨rfl, hr⟩
  obtain ⟨hebuf, hr1⟩ := hkeep
  have hclear : ClearAhead 4077#12 18 T1 := by
    intro k c h1 hk hmem
    have hp := (hnew c _ hmem).resolve_right List.not_mem_nil
    obtain ⟨-, hle⟩ := mem_startPositions.1 (List.mem_append_left _ hp)
    exact hlast _ hp _ (List.mem_singleton_self _) (BitVec.eq_of_toNat_eq (by
      rw [BitVec.toNat_add, BitVec.toNat_ofNat, BitVec.toNat_ofNat] at hle ⊢
      simp only [BitVec.toNat_ofNat]
      omega))
  rw [start_eq_insertAll, hr, startPositions_eq, insertAll_append, hall] at h
  simp only [insertAll] at h
  split at h
  · cases h
  · next e2 h2 =>
    cases h
    obtain ⟨t, m, hins, rfl⟩ := insertNode_ok h2
    rw [hebuf] at hins
    show m.Holds e1.ebuf e1.r
    rw [hebuf, hr1]
    exact hF1.match_holds (r := 4077#12) hmirror hclear hins

end

end Sys2Proof.Machine
end

section
/-! The encoder with the stream it has emitted: decoding it, with the pending group, gives the bytes before the part of
the look-ahead still to be coded, through every procedure of the encoder (40_lzss_encoder.md R105 to R110, R112, R113;
41_lzss_decoder.md R160). -/

namespace Sys2Proof.Machine

/-- The emitted bytes code and the pending group are the units of raw but for its last bytes, the look-ahead's from its
byte j on: a decoder fed with them has emitted the bytes before, and its ring agrees with the encoder's. -/
def Enc.Coded (f : Obf) (e : Enc) (j : Nat) (code raw : List Byte) : Prop :=
  ∃ d out, Streamed f code e.epcur e.group e.group.gunits.toNat d out ∧ d.dr = e.r + BitVec.ofNat 12 j ∧
    RingsAgree e.ebuf e.r j d.dbuf ∧ raw = out ++ ringBytes e.ebuf e.r j (e.elen.toNat - j)

section
variable {f : Obf} {b : Byte} {e e' e1 : Enc} {j n : Nat} {code raw out : List Byte}

theorem Enc.coded_initial (f : Obf) : Enc.initial.Coded f 0 [] [] := by
  obtain ⟨d, hd, hbuf, hdr⟩ := streamed_of_empty (f := f) (code := []) (out := []) (d0 := Dec.initial) (cur := 0#8)
    (g := Group.initial) rfl rfl rfl rfl rfl
  refine ⟨d, [], hd, by rw [hdr]; rfl, fun p _ => by rw [hbuf]; rfl, rfl⟩

theorem Enc.Coded.of_eq (h : e.Coded f j code raw) (hebuf : e'.ebuf = e.ebuf) (hr : e'.r = e.r)
    (helen : e'.elen = e.elen) (hgroup : e'.group = e.group) (hcur : e'.epcur = e.epcur) : e'.Coded f j code raw := by
  unfold Enc.Coded
  rw [hebuf, hr, helen, hgroup, hcur]
  exact h

/-! ## The window -/

/-- A byte stored in FILL joins the bytes still to be coded. -/
theorem Enc.Coded.after_store (h : e.Coded f 0 code raw) (hr : e.r = 4078#12) (helen : e.elen.toNat ≤ 17) (b : Byte) :
    (storeLookAhead b e).Coded f 0 code (raw ++ [b]) := by
  obtain ⟨d, out, hd, hdr, hag, rfl⟩ := h
  have hnext : (e.elen + 1#5).toNat = e.elen.toNat + 1 := by
    rw [BitVec.toNat_add, BitVec.toNat_ofNat]
    omega
  have hread := storeLookAhead_read hr helen b
  refine ⟨d, out, hd, hdr, hag.of_ring fun p hp => ?_, ?_⟩
  · rw [hread, if_neg]
    rw [hr] at hp
    bv_omega
  · have hold : ringBytes (storeLookAhead b e).ebuf e.r 0 e.elen.toNat = ringBytes e.ebuf e.r 0 e.elen.toNat :=
      ringBytes_congr fun i _ hi => by
        rw [hread, if_neg]
        rw [hr]
        bv_omega
    have hnew : (storeLookAhead b e).ebuf.read (e.r + BitVec.ofNat 12 (0 + e.elen.toNat)).toNat = b := by
      rw [hread, if_pos]
      rw [hr]
      bv_omega
    rw [storeLookAhead_elen, storeLookAhead_r, hnext, Nat.sub_zero, Nat.sub_zero, ringBytes_add, ringBytes_one, hold,
      hnew, List.append_assoc]

/-- CONSUME takes a coded byte out of the look-ahead and puts the new byte at its end. -/
theorem Enc.Coded.after_consume (h : e.Coded f (j + 1) code raw) (hj : j < 18) (helen : e.elen = 18#5)
    (hok : consume b e = .ok e') : e'.Coded f j code (raw ++ [b]) := by
  obtain ⟨d, out, hd, hdr, hag, rfl⟩ := h
  obtain ⟨l, m, l', -, -, rfl⟩ := consume_ok hok
  have hread := writeRing_read e.ebuf e.s b
  have hs : e.s = e.r + 18#12 := rfl
  have hother : ∀ p : Pos, p ≠ e.s → (writeRing e.ebuf e.s b).read p.toNat = e.ebuf.read p.toNat := fun p hp => by
    rw [hread, if_neg]
    have := p.isLt
    bv_omega
  refine ⟨d, out, hd, by rw [hdr, ofNat12_succ], (hag.next hj).of_ring fun p hp => hother p ?_, ?_⟩
  · rw [hs]
    bv_omega
  · obtain ⟨k, hk⟩ : ∃ k, 18 = j + 1 + k := ⟨17 - j, by omega⟩
    have h18 : e.elen.toNat = 18 := by rw [helen]; rfl
    have hold : ringBytes (writeRing e.ebuf e.s b) e.r (j + 1) k = ringBytes e.ebuf e.r (j + 1) k :=
      ringBytes_congr fun i _ hi => hother _ (by rw [hs]; bv_omega)
    have hnew : (writeRing e.ebuf e.s b).read (e.r + BitVec.ofNat 12 (j + 1 + k)).toNat = b := by
      rw [hread, if_pos]
      rw [← hk]
      exact .inl rfl
    have hlen : e.elen.toNat - (j + 1) = k := by omega
    have hlen' : e.elen.toNat - j = k + 1 := by omega
    simp only [hlen, hlen']
    rw [ringBytes_next, ringBytes_add, ringBytes_one, hold, hnew, List.append_assoc]

/-- ADVANCE_EMPTY takes a coded byte out of the look-ahead. -/
theorem Enc.Coded.after_advanceEmpty (h : e.Coded f (j + 1) code raw) (hj : j < 18) (h0 : 1 ≤ e.elen.toNat)
    (hok : advanceEmpty e = .ok e') : e'.Coded f j code raw := by
  obtain ⟨d, out, hd, hdr, hag, rfl⟩ := h
  have hlen : (e.elen - 1#5).toNat = e.elen.toNat - 1 := BitVec.toNat_sub_of_le (BitVec.le_def.2 h0)
  have hsub : e.elen.toNat - 1 - j = e.elen.toNat - (j + 1) := by omega
  rw [(advanceEmpty_ok hok).1]
  refine ⟨d, out, hd, by rw [hdr, ofNat12_succ], hag.next hj, ?_⟩
  rw [ringBytes_next, hlen, hsub]

theorem Enc.Coded.after_advanceEmptyTimes (h : e.Coded f n code raw) (hn : n ≤ e.elen.toNat) (helen : e.elen.toNat ≤ 18)
    (hok : advanceEmptyTimes n e = .ok e') : e'.Coded f 0 code raw := by
  induction n generalizing e with
  | zero => cases hok; exact h
  | succ n ih =>
    obtain ⟨e1, h1, hrest⟩ := advanceEmptyTimes_succ_ok hok
    have hlen : e1.elen.toNat = e.elen.toNat - 1 := by
      rw [(advanceEmpty_ok h1).1]
      exact BitVec.toNat_sub_of_le (BitVec.le_def.2 (show 1 ≤ e.elen.toNat by omega))
    exact ih (h.after_advanceEmpty (by omega) (by omega) h1) (by omega) (by omega) hrest

/-! ## Units -/

/-- The coded unit, decoded, is the first bytes of the look-ahead. -/
theorem codeUnit_streamed {d : Dec} {o : List Byte} (hok : codeUnit e = .ok e1) (hg : e.group.InRange)
    (hm : e.best.Holds e.ebuf e.r) (hd : Streamed f code e.epcur e.group e.group.gunits.toNat d o) (hdr : d.dr = e.r)
    (hag : RingsAgree e.ebuf e.r 0 d.dbuf) : ∃ d',
    Streamed f code e.epcur e1.group (e.group.gunits.toNat + 1) d' (o ++ ringBytes e.ebuf e.r 0 e1.best.len.toNat) ∧
      d'.dr = e.r + BitVec.ofNat 12 e1.best.len.toNat ∧ RingsAgree e.ebuf e.r e1.best.len.toNat d'.dbuf := by
  have h7 : e.group.gunits.toNat ≤ 7 := by have := e.group.gunits.isLt; omega
  have hclip := e.clippedLen_toNat
  have hlen := hm.len_le
  obtain ⟨hadds, hbest, -⟩ := codeUnit_adds hok (by have := hg.1; omega) (by omega)
  obtain hle | hgt := le_or_gt e.clippedLen.toNat 2
  · obtain ⟨hbytes, hbit⟩ := hadds.literal_unit hle hg
    have hone : e1.best.len.toNat = 1 := by rw [hbest, Match.coded, if_pos hle]; rfl
    have hfirst : ringBytes e.ebuf e.r 0 1 = [e.ebuf.read e.r.toNat] := by
      rw [ringBytes_one, BitVec.add_zero]
    rw [hone, hfirst]
    exact ⟨_, hd.add h7 (unitDecodes_literal f d _) rfl hbytes hbit, by rw [← hdr]; rfl, literal_reproduces hdr hag⟩
  · obtain ⟨lo, hi, hbytes, hpos, hrefLen, hctl⟩ := hadds.reference_unit hgt (by omega) hg
    have hsame : e1.best.len.toNat = e.clippedLen.toNat := by rw [hbest, Match.coded, if_neg (by exact not_le.2 hgt)]
    obtain ⟨d', hunit, hbuf', hdr', hcur⟩ := unitDecodes_reference f d lo hi
    rw [hpos, hrefLen] at hunit hbuf'
    obtain ⟨hout, hag'⟩ := copy_reproduces hm hdr hag (n := e.clippedLen.toNat) (by omega)
    have hbit : ∀ i, (e1.group.cbuf.read 0).getLsbD i =
        if i = e.group.gunits.toNat then false else (e.group.cbuf.read 0).getLsbD i := fun i => by
      rw [hctl]
      split
      · next hi => exact hd.clear i hi.ge
      · rfl
    rw [hout] at hunit
    rw [hsame]
    exact ⟨d', hd.add h7 hunit hcur hbytes hbit, by rw [hdr', hdr, hrefLen], hbuf' ▸ hag'⟩

/-- Counting the unit keeps it pending or, as the eighth, emits its group. -/
theorem countUnit_streamed {d : Dec} {o : List Byte} (hok : countUnit f e1 = .ok (e', out))
    (hd : Streamed f code e1.epcur e1.group (e1.group.gunits.toNat + 1) d o) : ∃ d',
    Streamed f (code ++ out) e'.epcur e'.group e'.group.gunits.toNat d' o ∧ d'.dbuf = d.dbuf ∧ d'.dr = d.dr := by
  obtain ⟨hlast, h3⟩ | ⟨hother, rfl, rfl⟩ := countUnit_ok hok
  · obtain ⟨-, rfl, rfl⟩ := emitGroup_ok h3
    rw [hlast] at hd
    exact hd.emit_full
  · have hnext : (e1.group.gunits + 1#3).toNat = e1.group.gunits.toNat + 1 := by bv_omega
    rw [List.append_nil]
    refine ⟨d, ?_, rfl, rfl⟩
    simp only [hnext]
    exact ⟨hd.feed, hd.clear, hd.cursor, hd.clean⟩

theorem countUnit_best (hok : countUnit f e1 = .ok (e', out)) : e'.best = e1.best := by
  obtain ⟨-, h3⟩ | ⟨-, -, rfl⟩ := countUnit_ok hok
  · obtain ⟨-, rfl, -⟩ := emitGroup_ok h3; rfl
  · rfl

/-- EMIT_UNIT codes the first bytes of the look-ahead. -/
theorem Enc.Coded.after_emitUnit (h : e.Coded f 0 code raw) (hm : e.best.Holds e.ebuf e.r) (hg : e.group.InRange)
    (h0 : e.elen ≠ 0#5) (hok : emitUnit f e = .ok (e', out)) : e'.Coded f e'.best.len.toNat (code ++ out) raw := by
  obtain ⟨d, o, hd, hdr, hag, rfl⟩ := h
  obtain ⟨e1, hcode, hcount⟩ := emitUnit_ok hok
  obtain ⟨d1, hd1, hdr1, hag1⟩ := codeUnit_streamed hcode hg hm hd (hdr.trans (BitVec.add_zero _)) hag
  rw [← (codeUnit_group hcode hg).1, ← codeUnit_epcur hcode] at hd1
  obtain ⟨d2, hd2, hbuf2, hdr2⟩ := countUnit_streamed hcount hd1
  rw [← countUnit_best hcount] at hd2 hdr1 hag1
  have hkeep : e'.ebuf = e.ebuf ∧ e'.r = e.r ∧ e'.elen = e.elen := by rw [emitUnit_frame hok]; exact ⟨rfl, rfl, rfl⟩
  obtain ⟨hebuf, hr, helen⟩ := hkeep
  unfold Enc.Coded
  rw [hebuf, hr, helen]
  refine ⟨d2, _, hd2, hdr2.trans hdr1, hbuf2 ▸ hag1, ?_⟩
  obtain ⟨k, hk⟩ := Nat.exists_eq_add_of_le (emitUnit_len_bounds hok h0).2
  rw [hk, Nat.sub_zero, ringBytes_add, Nat.add_sub_cancel_left, Nat.zero_add, List.append_assoc]

end

end Sys2Proof.Machine
end

section
/-! The round trip: a stream of the encoder, decoded, gives its bytes back (41_lzss_decoder.md R160). -/

namespace Sys2Proof.Machine

/-- A decoder fed with code from its reset state emits raw and is between two units. -/
def DecodesTo (f : Obf) (code raw : List Byte) : Prop :=
  ∃ d, decFeed f code Dec.initial = (d, raw) ∧ d.endStatus = .clean

section
variable {f : Obf} {b : Byte} {e e' e1 : Enc} {n : Nat} {code raw out : List Byte}

/-! ## ENC.FINISH -/

theorem Enc.Coded.after_drainLoop (h : e.Coded f 0 code raw) (hw : e.WindowOk) (hmirror : Mirrored e.ebuf)
    (hg : e.group.InRange) (helen : e.elen.toNat ≤ 18) (hm : e.elen ≠ 0#5 → e.best.Holds e.ebuf e.r)
    (hok : drainLoop f n e = .ok (e', out)) : e'.Coded f 0 (code ++ out) raw ∧ e'.group.InRange := by
  induction n generalizing e code out with
  | zero => cases hok; exact ⟨(List.append_nil code).symm ▸ h, hg⟩
  | succ n ih =>
    obtain ⟨-, rfl, rfl⟩ | ⟨h0, e1, o1, e2, o2, h1, h2, h3, rfl⟩ := drainLoop_succ_ok hok
    · exact ⟨(List.append_nil code).symm ▸ h, hg⟩
    · obtain ⟨hlo, hhi⟩ := emitUnit_len_bounds h1 h0
      have hkeep : e1.ebuf = e.ebuf ∧ e1.links = e.links ∧ e1.r = e.r ∧ e1.elen = e.elen := by
        rw [emitUnit_frame h1]; exact ⟨rfl, rfl, rfl, rfl⟩
      obtain ⟨hebuf1, hlinks1, hr1, helen1⟩ := hkeep
      have hw1 : e1.WindowOk := hw.of_eq hebuf1 hlinks1 hr1
      have hmirror1 : Mirrored e1.ebuf := hebuf1 ▸ hmirror
      have hkeep2 : e2.ebuf = e1.ebuf ∧ e2.group = e1.group := by
        rw [advanceEmptyTimes_frame h2]; exact ⟨rfl, rfl⟩
      obtain ⟨hebuf2, hgroup2⟩ := hkeep2
      have hcoded := (h.after_emitUnit (hm h0) hg h0 h1).after_advanceEmptyTimes (helen1 ▸ hhi) (helen1 ▸ helen) h2
      have hsum := (elen_after_unit h0 h1 h2).2
      rw [← List.append_assoc]
      exact ih hcoded (advanceEmptyTimes_windowOk hw1 h2) (hebuf2 ▸ hmirror1)
        (hgroup2 ▸ emitUnit_inRange h1 hg) (by omega) (advanceEmptyTimes_match hlo hw1 hmirror1 h2) h3

/-- The last, partial group completes the stream; without a unit pending it is complete. -/
theorem Enc.Coded.after_flushPartial (h : e.Coded f 0 code raw) (hg : e.group.InRange) (h0 : e.elen = 0#5)
    (hok : flushPartial f e = .ok (e', out)) : DecodesTo f (code ++ out) raw := by
  obtain ⟨d, o, hd, -, -, rfl⟩ := h
  obtain ⟨hlo, hhi⟩ := hg
  have h7 := e.group.gunits.isLt
  have hall : o ++ ringBytes e.ebuf e.r 0 (e.elen.toNat - 0) = o := by
    rw [h0]
    exact List.append_nil o
  rw [hall]
  obtain ⟨hpending, h1⟩ | ⟨hempty, rfl, rfl⟩ := flushPartial_ok hok
  · obtain ⟨-, rfl, rfl⟩ := emitGroup_ok h1
    exact hd.emit_partial (by omega) (by omega)
  · rw [List.append_nil]
    exact hd.clean (by omega)

theorem Enc.Coded.after_drain (h : e.Coded f 0 code raw) (hw : e.WindowOk) (hmirror : Mirrored e.ebuf)
    (hg : e.group.InRange) (helen : e.elen.toNat ≤ 18) (hm : e.elen ≠ 0#5 → e.best.Holds e.ebuf e.r)
    (hok : drain f e = .ok (e', out)) : DecodesTo f (code ++ out) raw := by
  obtain ⟨e1, o1, o2, h1, h2, rfl⟩ := drain_ok hok
  obtain ⟨hcoded, hg1⟩ := h.after_drainLoop hw hmirror hg helen hm h1
  rw [← List.append_assoc]
  exact hcoded.after_flushPartial hg1 (drainLoop_elen le_rfl h1) h2

/-- START changes nothing the stream depends on. -/
theorem Enc.Coded.after_start (h : e.Coded f 0 code raw) (hok : start e = .ok e1) : e1.Coded f 0 code raw := by
  have hkeep : e1.ebuf = e.ebuf ∧ e1.r = e.r ∧ e1.elen = e.elen ∧ e1.group = e.group ∧ e1.epcur = e.epcur := by
    rw [start_frame hok]; exact ⟨rfl, rfl, rfl, rfl, rfl⟩
  obtain ⟨hebuf, hr, helen, hgroup, hcur⟩ := hkeep
  exact h.of_eq hebuf hr helen hgroup hcur

theorem Enc.Coded.after_finishFill (h : e.Coded f e.etodo.toNat code raw) (hs : e.Safe) (hf : e.eph = .fill)
    (hok : finishFill f e = .ok (e', out)) : DecodesTo f (code ++ out) raw := by
  obtain ⟨hrange, hmirror, htrees⟩ := hs
  obtain ⟨-, hr, helen, hetodo, hunits, hcbp⟩ := (Enc.inRange_fill hf).1 hrange
  have hF := (Enc.treesOk_fill hf).1 htrees
  have hg := Group.inRange_of_empty hunits hcbp
  rw [hetodo] at h
  obtain ⟨h0, rfl, rfl⟩ | ⟨h0, e1, h1, h2⟩ := finishFill_ok hok
  · have hflush : flushPartial f e' = .ok (e', []) := by rw [flushPartial, hcbp]; rfl
    exact h.after_flushPartial hg h0 hflush
  · have hkeep : e1.ebuf = e.ebuf ∧ e1.elen = e.elen ∧ e1.group = e.group := by
      rw [start_frame h1]; exact ⟨rfl, rfl, rfl⟩
    obtain ⟨hebuf1, helen1, hgroup1⟩ := hkeep
    obtain ⟨e2, h2', hw⟩ := start_completes hF hr
    obtain rfl : e1 = e2 := Except.ok.inj (h1.symm.trans h2')
    exact (h.after_start h1).after_drain hw.windowOk (hebuf1 ▸ hmirror) (hgroup1 ▸ hg)
      (helen1 ▸ helen.trans (by decide))
      (fun _ => start_match hF hr hmirror h1) h2

theorem Enc.Coded.after_finishRun (h : e.Coded f e.etodo.toNat code raw) (hs : e.Safe) (hr : e.eph = .run)
    (hok : finishRun f e = .ok (e', out)) : DecodesTo f (code ++ out) raw := by
  obtain ⟨hrange, hmirror, htrees⟩ := hs
  obtain ⟨-, helen, hlo, hhi, hg⟩ := (Enc.inRange_run hr).1 hrange
  have hw := ((Enc.treesOk_run hr).1 htrees).windowOk
  have h18 : e.elen.toNat = 18 := by rw [helen]; rfl
  obtain ⟨e1, h1, h2⟩ := finishRun_ok hok
  have hkeep : e1.ebuf = e.ebuf ∧ e1.elen = e.elen - BitVec.ofNat 5 e.etodo.toNat ∧ e1.group = e.group := by
    rw [advanceEmptyTimes_frame h1]; exact ⟨rfl, rfl, rfl⟩
  obtain ⟨hebuf1, helen1, hgroup1⟩ := hkeep
  have hcoded := (h.after_advanceEmptyTimes (by omega) (by omega) h1).of_eq (e' := { e1 with etodo := 0#5 })
    rfl rfl rfl rfl rfl
  have hm := advanceEmptyTimes_match hlo hw hmirror h1
  refine hcoded.after_drain ((advanceEmptyTimes_windowOk hw h1).of_eq rfl rfl rfl) (hebuf1 ▸ hmirror) (hgroup1 ▸ hg) ?_
    hm h2
  show e1.elen.toNat ≤ 18
  rw [helen1]
  bv_omega

/-! ## ENC.PUT -/

theorem Enc.Coded.after_putFill (h : e.Coded f e.etodo.toNat code raw) (hs : e.Safe) (hf : e.eph = .fill)
    (hok : putFill f b e = .ok (e', out)) : e'.Coded f e'.etodo.toNat (code ++ out) (raw ++ [b]) ∧
      (e'.eph = .fill ∨ e'.eph = .run) := by
  obtain ⟨hrange, hmirror, htrees⟩ := hs
  obtain ⟨-, hr, helen, hetodo, hunits, hcbp⟩ := (Enc.inRange_fill hf).1 hrange
  rw [hetodo] at h
  have hstore := h.after_store hr helen b
  obtain ⟨-, rfl, rfl⟩ | ⟨hfull, e1, e2, h1, h2, rfl⟩ := putFill_ok hok
  · rw [storeLookAhead_etodo, hetodo, List.append_nil]
    exact ⟨hstore, .inl hf⟩
  · have hkeep : e1.elen = e.elen + 1#5 ∧ e1.group = e.group := by rw [start_frame h1]; exact ⟨rfl, rfl⟩
    obtain ⟨helen1, hgroup1⟩ := hkeep
    have hm := start_match (e := storeLookAhead b e) ((Enc.treesOk_fill hf).1 htrees).of_leaves hr
      (mirrored_storeLookAhead hmirror hr helen b) h1
    have h0 : e1.elen ≠ 0#5 := by rw [helen1, hfull]; decide
    have hcoded := (hstore.after_start h1).after_emitUnit hm (hgroup1 ▸ Group.inRange_of_empty hunits hcbp) h0 h2
    exact ⟨hcoded.of_eq rfl rfl rfl rfl rfl, .inr rfl⟩

theorem Enc.Coded.after_putRun (h : e.Coded f e.etodo.toNat code raw) (hs : e.Safe) (hr : e.eph = .run)
    (hok : putRun f b e = .ok (e', out)) : e'.Coded f e'.etodo.toNat (code ++ out) (raw ++ [b]) ∧ e'.eph = .run := by
  obtain ⟨hrange, hmirror, htrees⟩ := hs
  obtain ⟨-, helen, hlo, hhi, hg⟩ := (Enc.inRange_run hr).1 hrange
  have hw := ((Enc.treesOk_run hr).1 htrees).windowOk
  obtain ⟨e1, h1, hcases⟩ := putRun_ok hok
  have hkeep : e1.eph = .run ∧ e1.elen = 18#5 ∧ e1.etodo = e.etodo ∧ e1.group = e.group := by
    obtain ⟨l, m, l', -, -, rfl⟩ := consume_ok h1
    exact ⟨hr, helen, rfl, rfl⟩
  obtain ⟨hrun1, helen1, hetodo1, hgroup1⟩ := hkeep
  obtain ⟨j, hj⟩ := Nat.exists_eq_add_of_le' hlo
  have hless : (e1.etodo - 1#5).toNat = j := by
    rw [hetodo1]
    bv_omega
  rw [hj] at h
  have hconsumed := (h.after_consume (by omega) helen h1).of_eq (e' := { e1 with etodo := e1.etodo - 1#5 })
    rfl rfl rfl rfl rfl
  obtain ⟨-, rfl, rfl⟩ | ⟨hlast, e2, h2, rfl⟩ := hcases
  · rw [List.append_nil]
    exact ⟨by simpa only [hless] using hconsumed, hrun1⟩
  · have hzero : j = 0 := by rw [← hless, hlast]; rfl
    rw [hzero] at hconsumed
    have hm := consume_match hw hmirror h1
    have hcoded := hconsumed.after_emitUnit hm (hgroup1 ▸ hg) (by rw [helen1]; decide) h2
    have hrun2 : e2.eph = .run := by rw [emitUnit_frame h2]; exact hrun1
    exact ⟨hcoded.of_eq rfl rfl rfl rfl rfl, hrun2⟩

end

/-! ## The commands of an encoder stream -/

/-- A block that has taken the bytes raw of a stream and emitted code for them. -/
structure State.Encoding (s : State) (code raw : List Byte) : Prop where
  safe : s.enc.Safe
  phase : s.enc.eph = .fill ∨ s.enc.eph = .run
  coded : s.enc.Coded s.obf s.enc.etodo.toNat code raw

section
variable {s : State} {code raw : List Byte}

theorem exec_keeps_encSafe {i : Instr} {t : State} (hs : s.enc.Safe) (h : exec i s = .next t) : t.enc.Safe := by
  obtain ⟨hrange, hmirror⟩ := exec_keeps_bounded i s t ⟨hs.1, hs.2.1⟩ h
  exact ⟨hrange, hmirror, exec_keeps_trees hs h⟩

theorem State.Encoding.put (h : s.Encoding code raw) (b : Byte) : ∃ t r, exec (.encPut b) s = .next t ∧
    t.responses = s.responses ++ [r] ∧ t.obf = s.obf ∧ t.Encoding (code ++ r.encOut) (raw ++ [b]) := by
  obtain ⟨hs, hf | hr, hcoded⟩ := h
  · obtain ⟨e, out, hput, -⟩ := putFill_completes s.obf b hs hf
    have hexec := exec_encPut_of_fill hf hput
    obtain ⟨hcoded', hphase⟩ := hcoded.after_putFill hs hf hput
    exact ⟨_, _, hexec, rfl, rfl, exec_keeps_encSafe hs hexec, hphase, hcoded'.of_eq rfl rfl rfl rfl rfl⟩
  · obtain ⟨e, out, hput, -⟩ := putRun_completes s.obf b hs hr
    have hexec := exec_encPut_of_run hr hput
    obtain ⟨hcoded', hphase⟩ := hcoded.after_putRun hs hr hput
    exact ⟨_, _, hexec, rfl, rfl, exec_keeps_encSafe hs hexec, .inr hphase, hcoded'.of_eq rfl rfl rfl rfl rfl⟩

theorem State.Encoding.puts (h : s.Encoding code raw) (bytes : List Byte) : ∃ t rs,
    runCommands (bytes.map .encPut) s = .next t ∧ t.responses = s.responses ++ rs ∧ t.obf = s.obf ∧
      t.Encoding (code ++ encBytes rs) (raw ++ bytes) := by
  induction bytes generalizing s code raw with
  | nil => exact ⟨s, [], rfl, (List.append_nil _).symm, rfl, by simpa [encBytes] using h⟩
  | cons b bytes ih =>
    obtain ⟨t, r, hexec, hresp, hobf, ht⟩ := h.put b
    obtain ⟨u, rs, hrun, hresp', hobf', hu⟩ := ih ht
    rw [hresp, List.append_assoc] at hresp'
    rw [List.append_assoc, List.append_assoc] at hu
    exact ⟨u, r :: rs, (runCommands_cons hexec).trans hrun, hresp', hobf'.trans hobf, hu⟩

theorem State.Encoding.finish (h : s.Encoding code raw) : ∃ t r, exec .encFinish s = .next t ∧
    t.responses = s.responses ++ [r] ∧ t.obf = s.obf ∧ DecodesTo s.obf (code ++ r.encOut) raw := by
  obtain ⟨hs, hf | hr, hcoded⟩ := h
  · obtain ⟨-, e, out, hfin, -⟩ := finishFill_cases s.obf hs hf
    exact ⟨_, _, exec_encFinish_of_fill hf hfin, rfl, rfl, hcoded.after_finishFill hs hf hfin⟩
  · obtain ⟨-, e, out, -, -, hfin⟩ := finishRun_advance s.obf hs hr
    exact ⟨_, _, exec_encFinish_of_run hr hfin, rfl, rfl, hcoded.after_finishRun hs hr hfin⟩

/-- An encoder stream completes, and its emitted bytes decode to the bytes it was given. -/
theorem runCommands_encodeStream (bytes : List Byte) (s : State) : ∃ t rs,
    runCommands (encodeStream bytes) s = .next t ∧ t.responses = s.responses ++ rs ∧
      DecodesTo t.obf (encBytes rs) bytes := by
  have hreset : State.Encoding ({ s with enc := Enc.initial }.respondOk 0#32) [] [] :=
    ⟨Enc.safe_initial, .inl rfl, Enc.coded_initial s.obf⟩
  obtain ⟨t, rs, hrun, hresp, hobf, ht⟩ := hreset.puts bytes
  obtain ⟨u, r, hexec, hresp', hobf', hdecodes⟩ := ht.finish
  refine ⟨u, ⟨.ok, 0#32, [], []⟩ :: rs ++ [r], ?_, by simp [hresp', hresp], ?_⟩
  · rw [encodeStream, runCommands_append ((runCommands_cons rfl).trans hrun)]
    exact runCommands_cons hexec
  · rw [hobf']
    simpa [encBytes] using hdecodes

end

/-- Settles O58: the encoder's stream decodes to its bytes, and the decoder's commands decode it. -/
theorem decodingTheEncodedStreamGivesTheBytes : Obligations.DecodingTheEncodedStreamGivesTheBytes := by
  intro bytes s
  obtain ⟨t, rs, hrun, hresp, d, hfeed, hend⟩ := runCommands_encodeStream bytes s
  obtain ⟨u, rs', hrun', hresp', hout, hclean⟩ := runCommands_decodeStream hfeed hend
  exact ⟨t, u, rs, rs', hrun, hresp, hrun', hresp', hout, hclean⟩

end Sys2Proof.Machine
end

section
/-! The two functions of the password: PBYTE_TAKE with its wrap, and MASK32 lane by lane (42_obfuscation.md R181,
R182). -/

namespace Sys2Proof.Machine

theorem pbyteTake_of_empty {f : Obf} (h : f.plen = 0#8) (cur : BitVec 8) : pbyteTake f cur = (0#8, cur) := if_pos h

theorem pbyteTake_of_lt {f : Obf} {cur : BitVec 8} (h : cur.toNat < f.plen.toNat) :
    pbyteTake f cur = (f.byte cur.toNat, BitVec.ofNat 8 ((cur.toNat + 1) % f.plen.toNat)) := by
  refine if_neg fun h0 => ?_
  rw [h0] at h
  exact Nat.not_lt_zero _ h

/-- Settles O16: below PLEN − 1 the remainder is the next index, and at PLEN − 1 it is 0. -/
theorem passwordByteAndCursorWrap : Obligations.PasswordByteAndCursorWrap := by
  refine fun f cur => ⟨fun h => pbyteTake_of_empty h cur, fun h => ?advance, fun h => ?wrap⟩
  case advance =>
    rw [pbyteTake_of_lt (by omega), Nat.mod_eq_of_lt h, ← BitVec.ofNat_add_ofNat, BitVec.ofNat_toNat,
      BitVec.setWidth_eq]
  case wrap => rw [pbyteTake_of_lt (by omega), h, Nat.mod_self]

/-- A byte moved to lane j shows in lane j only. -/
theorem lane_of_shifted_byte (b : Byte) (j : Nat) {k : Nat} (hk : k < 4) :
    (b.setWidth 32 <<< (8 * j) : Word).extractLsb' (8 * k) 8 = if j = k then b else 0#8 := by
  ext i hi
  have h32 : 8 * k + i < 32 := by omega
  rw [BitVec.getElem_extractLsb', BitVec.getLsbD_shiftLeft, BitVec.getLsbD_setWidth]
  obtain hlt | rfl | hgt := lt_trichotomy j k
  · have habove : b.getLsbD (8 * k + i - 8 * j) = false := BitVec.getLsbD_of_ge b _ (by omega)
    simp [habove, hlt.ne]
  · have hi32 : i < 32 := by omega
    simp [h32, hi32, BitVec.getLsbD_eq_getElem hi]
  · have hbelow : 8 * k + i < 8 * j := by omega
    simp [hbelow, hgt.ne']

/-- Each lane of a fold collects the bytes whose index belongs to it. -/
theorem lane_of_fold (f : Obf) {k : Nat} (hk : k < 4) (is : List Nat) (m : Word) :
    (is.foldl (fun m i => m ^^^ ((f.byte i).setWidth 32 <<< (8 * (i % 4)))) m).extractLsb' (8 * k) 8 =
      (is.filter (fun i => i % 4 == k)).foldl (fun x i => x ^^^ f.byte i) (m.extractLsb' (8 * k) 8) := by
  induction is generalizing m with
  | nil => rfl
  | cons i is ih =>
    have hlane := lane_of_shifted_byte (f.byte i) (i % 4) hk
    rw [List.foldl_cons, ih, BitVec.extractLsb'_xor, hlane]
    by_cases hi : i % 4 = k
    · rw [if_pos hi, List.filter_cons_of_pos (by simpa using hi), List.foldl_cons]
    · rw [if_neg hi, List.filter_cons_of_neg (by simpa using hi), BitVec.xor_zero]

theorem mask32_of_empty {f : Obf} (h : f.plen = 0#8) : mask32 f = 0#32 := by
  rw [mask32, h]
  rfl

/-- Settles O17: each lane of the fold, and the four examples evaluated. -/
theorem maskFoldsPasswordBytesByLane : Obligations.MaskFoldsPasswordBytesByLane := by
  refine ⟨fun f k hk => ?_, fun f => mask32_of_empty, by decide, by decide, by decide, by decide⟩
  rw [mask32, lane_of_fold f hk, BitVec.extractLsb'_zero]

end Sys2Proof.Machine
end

section
/-! The commands PWD.CLEAR, PWD.APPEND and OBF32 (42_obfuscation.md R183 to R186). -/

namespace Sys2Proof.Machine

theorem exec_pwdAppend_zero (s : State) : exec (.pwdAppend 0#8) s = .next (s.rejectMalformed .pzero) := rfl

theorem exec_pwdAppend_of_full {s : State} {b : Byte} (hb : b ≠ 0#8) (hfull : s.obf.plen = s.cfg.pwdMax) :
    exec (.pwdAppend b) s = .next (s.rejectMalformed .pfull) := by
  show execPwdAppend b s = _
  rw [execPwdAppend, if_neg hb, if_pos (BitVec.le_of_eq hfull.symm)]

/-- Settles O18: the reset password, and the argument check of format Z. -/
theorem pwdClearEmptiesThePassword : Obligations.PwdClearEmptiesThePassword :=
  ⟨fun _ => ⟨_, rfl, rfl, rfl, Obf.initial_byte, pbyteTake_of_empty rfl⟩,
    fun arg harg => answersRsvd_of_decode ((decode_pwdClear arg).trans (decodeZ_of_ne_zero harg _))⟩

/-- Settles O19: PLEN below PWD_MAX is below 255, so it grows without wrapping. -/
theorem pwdAppendStoresTheByteOrRefuses : Obligations.PwdAppendStoresTheByteOrRefuses := by
  refine ⟨exec_pwdAppend_zero, fun _ _ => exec_pwdAppend_of_full, fun s b hb hle hne => ?stored,
    fun arg harg => ?rsvd⟩
  case stored =>
    have hroom : s.obf.plen.toNat < s.cfg.pwdMax.toNat := lt_of_le_of_ne hle fun h => hne (BitVec.eq_of_toNat_eq h)
    have hmax := s.cfg.pwdMax.isLt
    exact ⟨_, exec_pwdAppend_eq hb hroom, rfl, Obf.append_plen_toNat (by omega) b, Obf.append_byte s.obf b⟩
  case rsvd => exact answersRsvd_of_decode ((decode_pwdAppend arg).trans (decodeB_of_ne_zero harg _))

theorem exec_obf32_eq (v : Word) (s : State) : exec (.obf32 v) s = .next (s.respondOk (v ^^^ mask32 s.obf)) := rfl

/-- Settles O20: the mask of the empty password is 0, and 0 masked is the mask. -/
theorem obf32MasksItsOperand : Obligations.Obf32MasksItsOperand := by
  refine ⟨exec_obf32_eq, fun _ => mask32_of_empty, fun s => ?_, decode_obf32⟩
  rw [exec_obf32_eq, BitVec.zero_xor]
  rfl

/-- Settles O21: OBF32 keeps the password, so both commands apply one mask. -/
theorem obf32IsItsOwnInverse : Obligations.Obf32IsItsOwnInverse := by
  intro v s
  have hback : v ^^^ mask32 s.obf ^^^ mask32 s.obf = v := by rw [BitVec.xor_assoc, BitVec.xor_self, BitVec.xor_zero]
  refine ⟨_, _, v ^^^ mask32 s.obf, exec_obf32_eq v s, rfl, exec_obf32_eq _ _, ?_⟩
  rw [State.respondOk_responses, State.respondOk_obf, hback]

end Sys2Proof.Machine
end

section
/-! The cursors move only with their control bytes (42_obfuscation.md R189): a group is emitted with its control byte,
so an encoder procedure that emits nothing leaves EPCUR. -/

namespace Sys2Proof.Machine

section
variable {f : Obf} {b : Byte} {n : Nat} {e e' : Enc}

/-- EMIT_GROUP emits its control byte. -/
theorem emitGroup_ne_silent : emitGroup f e ≠ .ok (e', []) := by
  intro h
  obtain ⟨-, -, hout⟩ := emitGroup_ok h
  cases hout

theorem emitUnit_silent_epcur (h : emitUnit f e = .ok (e', [])) : e'.epcur = e.epcur := by
  obtain ⟨e1, h1, h2⟩ := emitUnit_ok h
  have hkeep := codeUnit_epcur h1
  obtain ⟨-, h3⟩ | ⟨-, -, rfl⟩ := countUnit_ok h2
  · exact absurd h3 emitGroup_ne_silent
  · exact hkeep

theorem drainLoop_silent_epcur (h : drainLoop f n e = .ok (e', [])) : e'.epcur = e.epcur := by
  induction n generalizing e with
  | zero => cases h; rfl
  | succ n ih =>
    obtain ⟨-, rfl, -⟩ | ⟨-, e1, o1, e2, o2, h1, h2, h3, hout⟩ := drainLoop_succ_ok h
    · rfl
    · obtain ⟨rfl, rfl⟩ := List.append_eq_nil_iff.1 hout.symm
      rw [ih h3, advanceEmptyTimes_epcur h2, emitUnit_silent_epcur h1]

theorem drain_silent_epcur (h : drain f e = .ok (e', [])) : e'.epcur = e.epcur := by
  obtain ⟨e1, o1, o2, h1, h2, hout⟩ := drain_ok h
  obtain ⟨rfl, rfl⟩ := List.append_eq_nil_iff.1 hout.symm
  obtain ⟨-, h3⟩ | ⟨-, rfl, -⟩ := flushPartial_ok h2
  · exact absurd h3 emitGroup_ne_silent
  · exact drainLoop_silent_epcur h1

theorem putFill_silent_epcur (h : putFill f b e = .ok (e', [])) : e'.epcur = e.epcur := by
  obtain ⟨-, rfl, -⟩ | ⟨-, e1, e2, h1, h2, rfl⟩ := putFill_ok h
  · rfl
  · exact (emitUnit_silent_epcur h2).trans ((start_epcur h1).trans (storeLookAhead_epcur b e))

theorem putRun_silent_epcur (h : putRun f b e = .ok (e', [])) : e'.epcur = e.epcur := by
  obtain ⟨e1, h1, hcases⟩ := putRun_ok h
  have hkeep := consume_epcur h1
  obtain ⟨-, rfl, -⟩ | ⟨-, e2, h2, rfl⟩ := hcases
  · exact hkeep
  · exact (emitUnit_silent_epcur h2).trans hkeep

theorem finishFill_silent_epcur (h : finishFill f e = .ok (e', [])) : e'.epcur = e.epcur := by
  obtain ⟨-, rfl, -⟩ | ⟨-, e1, h1, h2⟩ := finishFill_ok h
  · rfl
  · exact (drain_silent_epcur h2).trans (start_epcur h1)

theorem finishRun_silent_epcur (h : finishRun f e = .ok (e', [])) : e'.epcur = e.epcur := by
  obtain ⟨e1, h1, h2⟩ := finishRun_ok h
  have hkeep := advanceEmptyTimes_epcur h1
  exact (drain_silent_epcur h2).trans hkeep

end

section
variable {i : Instr} {b : Byte} {s t : State}

theorem execEncPut_epcur (h : execEncPut b s = .next t) :
    ∃ r, t.responses = s.responses ++ [r] ∧ (r.encOut = [] → t.enc.epcur = s.enc.epcur) := by
  obtain ⟨-, rfl⟩ | ⟨-, rfl⟩ | ⟨e, out, he, rfl⟩ := execEncPut_next h
  · exact ⟨_, rfl, fun _ => rfl⟩
  · exact ⟨_, rfl, fun _ => rfl⟩
  · refine ⟨_, rfl, ?_⟩
    rintro rfl
    show e.epcur = s.enc.epcur
    obtain ⟨-, he⟩ | ⟨-, he⟩ := he
    · exact putFill_silent_epcur he
    · exact putRun_silent_epcur he

theorem execEncFinish_epcur (h : execEncFinish s = .next t) :
    ∃ r, t.responses = s.responses ++ [r] ∧ (r.encOut = [] → t.enc.epcur = s.enc.epcur) := by
  obtain ⟨-, rfl⟩ | ⟨-, rfl⟩ | ⟨e, out, he, rfl⟩ := execEncFinish_next h
  · exact ⟨_, rfl, fun _ => rfl⟩
  · exact ⟨_, rfl, fun _ => rfl⟩
  · refine ⟨_, rfl, ?_⟩
    rintro rfl
    show e.epcur = s.enc.epcur
    obtain ⟨-, he⟩ | ⟨-, he⟩ := he
    · exact finishFill_silent_epcur he
    · exact finishRun_silent_epcur he

/-- A command other than ENC.RESET and PWD.CLEAR moves EPCUR only where it emits an encoder byte. -/
theorem exec_epcur (hreset : i ≠ .encReset) (hclear : i ≠ .pwdClear) (h : exec i s = .next t) :
    ∃ r, t.responses = s.responses ++ [r] ∧ (r.encOut = [] → t.enc.epcur = s.enc.epcur) := by
  cases i with
  | encReset => exact absurd rfl hreset
  | pwdClear => exact absurd rfl hclear
  | encPut b => exact execEncPut_epcur h
  | encFinish => exact execEncFinish_epcur h
  | pwdAppend b =>
    obtain ⟨-, rfl⟩ | ⟨-, -, rfl⟩ | ⟨-, -, rfl⟩ := execPwdAppend_next h <;> exact ⟨_, rfl, fun _ => rfl⟩
  | nop | decReset | decPut | decFinish | obf32 | rdreg =>
    obtain ⟨r, hr, -, hkeep⟩ := exec_of_not_encoder rfl h
    exact ⟨r, hr, fun _ => congrArg Enc.epcur (hkeep rfl).1⟩

/-- A command other than DEC.RESET and PWD.CLEAR moves DPCUR only where it reads a control byte. -/
theorem exec_dpcur (hreset : i ≠ .decReset) (hclear : i ≠ .pwdClear)
    (hctl : ∀ b, i = .decPut b → s.dec.dsub ≠ .ctl) (h : exec i s = .next t) : t.dec.dpcur = s.dec.dpcur := by
  cases i with
  | decReset => exact absurd rfl hreset
  | pwdClear => exact absurd rfl hclear
  | decPut b =>
    obtain ⟨-, rfl⟩ | ⟨-, rfl⟩ | ⟨-, rfl⟩ := execDecPut_next h
    · rfl
    · rfl
    · rw [State.respondDec_dec, Dec.countPut_dpcur, decByte_dpcur, if_neg (hctl b rfl)]
  | nop => cases h; rfl
  | encReset => cases h; rfl
  | encPut b => obtain ⟨-, rfl⟩ | ⟨-, rfl⟩ | ⟨e, out, -, rfl⟩ := execEncPut_next h <;> rfl
  | encFinish => obtain ⟨-, rfl⟩ | ⟨-, rfl⟩ | ⟨e, out, -, rfl⟩ := execEncFinish_next h <;> rfl
  | decFinish => obtain ⟨-, rfl⟩ | ⟨-, rfl⟩ | ⟨-, rfl⟩ := execDecFinish_next h <;> rfl
  | pwdAppend b => obtain ⟨-, rfl⟩ | ⟨-, -, rfl⟩ | ⟨-, -, rfl⟩ := execPwdAppend_next h <;> rfl
  | obf32 v => cases h; rfl
  | rdreg b => obtain ⟨v, -, rfl⟩ | ⟨-, rfl⟩ := execRdreg_next h <;> rfl

end

/-- Settles O22: EPCUR moves by a control byte, which is an encoder byte, DPCUR by the control byte step, and a reset
zeroes its own. -/
theorem cursorsMoveOnlyWithTheirControlBytes : Obligations.CursorsMoveOnlyWithTheirControlBytes := by
  intro i s t r h hr
  refine ⟨fun hreset hclear hout => ?silent, fun hreset hclear hctl => exec_dpcur hreset hclear hctl h,
    ?encReset, ?decReset, ?pwdClear⟩
  case silent =>
    obtain ⟨r', hr', hkeep⟩ := exec_epcur hreset hclear h
    obtain rfl : r = r' := by
      rw [hr'] at hr
      simpa using hr.symm
    exact hkeep hout
  case encReset => rintro rfl; cases h; exact ⟨rfl, rfl⟩
  case decReset => rintro rfl; cases h; exact ⟨rfl, rfl⟩
  case pwdClear => rintro rfl; exact (exec_pwdClear_password h).2

end Sys2Proof.Machine
end

section
/-! The control commands NOP and RDREG (43_control.md R200, R201). -/

namespace Sys2Proof.Machine

/-- The register indices that can be read are 0x00 to 0x0D (10_state.md R44). -/
theorem readRegister_isSome_iff (b : Byte) (s : State) : (readRegister b s).isSome ↔ b.toNat ≤ 0x0D := by
  fun_cases readRegister b s
  case case15 =>
    have habove : ¬ b.toNat ≤ 0x0D := by grind
    simp [habove]
  all_goals next hval => simp [hval]

theorem readRegister_eq_none {b : Byte} (h : 0x0D < b.toNat) (s : State) : readRegister b s = none := by
  rw [← Option.not_isSome_iff_eq_none, readRegister_isSome_iff]
  omega

/-- RDREG of a reserved index changes nothing but CMDERR (43_control.md R201). -/
theorem exec_rdreg_of_none {b : Byte} {s : State} (h : readRegister b s = none) :
    exec (.rdreg b) s = .next (s.rejectMalformed .badreg) := by
  show execRdreg b s = _
  rw [execRdreg, h]

/-- Settles O15: the index decides between the two answers, and the argument check of format B comes before it. -/
theorem rdregHasNoSideEffectAndRefusesReservedIndices :
    Obligations.RdregHasNoSideEffectAndRefusesReservedIndices := by
  refine ⟨fun b s hle => ?readable, fun b s hlt => exec_rdreg_of_none (readRegister_eq_none hlt s),
    fun arg harg => answersRsvd_of_decode ((decode_rdreg arg).trans (decodeB_of_ne_zero harg _))⟩
  case readable =>
    obtain ⟨v, hv⟩ := Option.isSome_iff_exists.1 ((readRegister_isSome_iff b s).2 hle)
    exact ⟨v, hv, exec_rdreg_eq hv⟩

/-- Settles O10: the all-zero word is NOP's encoding, and the argument check of format Z refuses any other argument. -/
theorem nopRespondsOk : Obligations.NopRespondsOk :=
  ⟨fun _ => rfl, decode_encode .nop,
    fun arg harg => answersRsvd_of_decode ((decode_nop arg).trans (decodeZ_of_ne_zero harg _))⟩

end Sys2Proof.Machine
end

section
/-! Responses and independence (60_exceptions.md section 3): what a command word can be answered with, what each
command leaves alone, and how a unit leaves ERROR. -/

namespace Sys2Proof.Machine

section
variable {i : Instr} {s t : State}

/-! ## The answers (60_exceptions.md R220 to R223) -/

/-- The codes of a command rejected for its own form or operand (60_exceptions.md R222). -/
abbrev malformedCodes : List Code := [.illop, .rsvd, .pfull, .pzero, .badreg]

/-- How a command word can be answered: performed with the code OK, or rejected in one of the model's four ways. -/
inductive Answer (s : State) : State → Prop
  | ok {t : State} {r : Response} (hresp : t.responses = s.responses ++ [r]) (hcode : r.code = .ok)
      (hcmderr : t.cmderr = s.cmderr) : Answer s t
  | malformed {c : Code} (hc : c ∈ malformedCodes) : Answer s (s.rejectMalformed c)
  | failed : Answer s (s.reject .failed)
  | encDone : Answer s s.rejectEncDone
  | decDone : Answer s s.rejectDecDone

theorem exec_answer (h : exec i s = .next t) : Answer s t := by
  cases i with
  | nop => cases h; exact .ok rfl rfl rfl
  | encReset => cases h; exact .ok rfl rfl rfl
  | encPut b =>
    obtain ⟨-, rfl⟩ | ⟨-, rfl⟩ | ⟨e, out, -, rfl⟩ := execEncPut_next h
    · exact .failed
    · exact .encDone
    · exact .ok rfl rfl rfl
  | encFinish =>
    obtain ⟨-, rfl⟩ | ⟨-, rfl⟩ | ⟨e, out, -, rfl⟩ := execEncFinish_next h
    · exact .failed
    · exact .encDone
    · exact .ok rfl rfl rfl
  | decReset => cases h; exact .ok rfl rfl rfl
  | decPut b =>
    obtain ⟨-, rfl⟩ | ⟨-, rfl⟩ | ⟨-, rfl⟩ := execDecPut_next h
    · exact .failed
    · exact .decDone
    · exact .ok rfl rfl rfl
  | decFinish =>
    obtain ⟨-, rfl⟩ | ⟨-, rfl⟩ | ⟨-, rfl⟩ := execDecFinish_next h
    · exact .failed
    · exact .decDone
    · exact .ok rfl rfl rfl
  | pwdClear => cases h; exact .ok rfl rfl rfl
  | pwdAppend b =>
    obtain ⟨-, rfl⟩ | ⟨-, -, rfl⟩ | ⟨-, -, rfl⟩ := execPwdAppend_next h
    · exact .malformed (by decide)
    · exact .malformed (by decide)
    · exact .ok rfl rfl rfl
  | obf32 v => cases h; exact .ok rfl rfl rfl
  | rdreg b =>
    obtain ⟨v, -, rfl⟩ | ⟨-, rfl⟩ := execRdreg_next h
    · exact .ok rfl rfl rfl
    · exact .malformed (by decide)

theorem rejectWord_answer (e : DecodeError) (s : State) : Answer s (rejectWord e s) :=
  .malformed (c := DecodeError.code e) (by cases e <;> decide)

/-- The step that takes a command word answers it. -/
theorem step_answer {w : CommandWord} {rest : List Input} (hp : s.pending = .command w :: rest)
    (h : step s = .next t) : Answer { s with pending := rest } t := by
  cases hw : decode w with
  | ok i => exact exec_answer ((step_of_decode_ok hp hw).symm.trans h)
  | error e =>
    rw [step_of_decode_error hp hw] at h
    cases h
    exact rejectWord_answer e _

/-! ## What a command leaves alone (60_exceptions.md R233) -/

/-- What each kind of command writes besides its response. -/
theorem exec_frame (h : exec i s = .next t) :
    (isEncoderCommand i = true ∧ t = { s with enc := t.enc, responses := t.responses }) ∨
    (isDecoderCommand i = true ∧ t = { s with dec := t.dec, responses := t.responses }) ∨
    (i = .pwdClear ∧ t = { s with
      enc := { s.enc with epcur := t.enc.epcur }, dec := { s.dec with dpcur := t.dec.dpcur }, obf := t.obf,
      responses := t.responses }) ∨
    ((∃ b, i = .pwdAppend b) ∧ t = { s with obf := t.obf, cmderr := t.cmderr, responses := t.responses }) ∨
    t = { s with cmderr := t.cmderr, responses := t.responses } := by
  cases i with
  | encReset => cases h; exact .inl ⟨rfl, rfl⟩
  | encPut b => obtain ⟨-, rfl⟩ | ⟨-, rfl⟩ | ⟨e, out, -, rfl⟩ := execEncPut_next h <;> exact .inl ⟨rfl, rfl⟩
  | encFinish => obtain ⟨-, rfl⟩ | ⟨-, rfl⟩ | ⟨e, out, -, rfl⟩ := execEncFinish_next h <;> exact .inl ⟨rfl, rfl⟩
  | decReset => cases h; exact .inr (.inl ⟨rfl, rfl⟩)
  | decPut b => obtain ⟨-, rfl⟩ | ⟨-, rfl⟩ | ⟨-, rfl⟩ := execDecPut_next h <;> exact .inr (.inl ⟨rfl, rfl⟩)
  | decFinish => obtain ⟨-, rfl⟩ | ⟨-, rfl⟩ | ⟨-, rfl⟩ := execDecFinish_next h <;> exact .inr (.inl ⟨rfl, rfl⟩)
  | pwdClear => cases h; exact .inr (.inr (.inl ⟨rfl, rfl⟩))
  | pwdAppend b =>
    obtain ⟨-, rfl⟩ | ⟨-, -, rfl⟩ | ⟨-, -, rfl⟩ := execPwdAppend_next h <;>
      exact .inr (.inr (.inr (.inl ⟨⟨b, rfl⟩, rfl⟩)))
  | nop => cases h; exact .inr (.inr (.inr (.inr rfl)))
  | obf32 v => cases h; exact .inr (.inr (.inr (.inr rfl)))
  | rdreg b => obtain ⟨v, -, rfl⟩ | ⟨-, rfl⟩ := execRdreg_next h <;> exact .inr (.inr (.inr (.inr rfl)))

end

/-- Settles O56: the frame of each kind of command, read field by field. -/
theorem unitsAreIndependent : Obligations.UnitsAreIndependent := by
  intro i s t h
  obtain ⟨hi, ht⟩ | ⟨hi, ht⟩ | ⟨rfl, ht⟩ | ⟨⟨b, rfl⟩, ht⟩ | ht := exec_frame h
  · rw [hi, ht]
    exact ⟨nofun, fun _ => ⟨rfl, fun _ => rfl⟩, fun _ => rfl, rfl, rfl⟩
  · rw [hi, ht]
    exact ⟨fun _ => ⟨rfl, fun _ => rfl⟩, nofun, fun _ => rfl, rfl, rfl⟩
  · rw [ht]
    exact ⟨fun _ => ⟨rfl, fun hne => absurd rfl hne⟩, fun _ => ⟨rfl, fun hne => absurd rfl hne⟩, nofun, rfl, rfl⟩
  · rw [ht]
    exact ⟨fun _ => ⟨rfl, fun _ => rfl⟩, fun _ => ⟨rfl, fun _ => rfl⟩, nofun, rfl, rfl⟩
  · rw [ht]
    exact ⟨fun _ => ⟨rfl, fun _ => rfl⟩, fun _ => ⟨rfl, fun _ => rfl⟩, fun _ => rfl, rfl, rfl⟩

/-! ## CMDERR and the rejections -/

/-- Settles O54: of the answers only a malformed command's touches CMDERR. -/
theorem cmderrRecordsEveryMalformedCommand : Obligations.CmderrRecordsEveryMalformedCommand := by
  refine ⟨fun s t h => ⟨fun hp => ?idle, fun rest hp => ?powerOn, fun w rest hp => ?command⟩, fun s => ?status⟩
  case idle =>
    rw [step, takeInput_nil hp] at h
    cases h
    rfl
  case powerOn =>
    rw [step, takeInput_cons hp] at h
    cases h
    rfl
  case command =>
    cases step_answer hp h with
    | ok hresp hcode hcmderr => exact ⟨_, hresp, by simp [hcode, hcmderr]⟩
    | malformed hc => exact ⟨_, rfl, by simp [hc]⟩
    | failed => exact ⟨_, rfl, by simp⟩
    | encDone => exact ⟨_, rfl, by simp⟩
    | decDone => exact ⟨_, rfl, by simp⟩
  case status =>
    obtain ⟨-, -, -, -, herr, -⟩ := statusWord_fields s
    exact getLsbD_of_extractLsb'_one herr

/-- Settles O55, answer by answer. -/
theorem rejectedCommandChangesNothingElse : Obligations.RejectedCommandChangesNothingElse := by
  intro s t w rest hp h
  cases step_answer hp h with
  | ok hresp hcode _ => exact ⟨_, hresp, fun hne => absurd hcode hne⟩
  | @malformed c hc =>
    have hfailed : c ≠ .failed := by rintro rfl; exact absurd hc (by decide)
    have hstate : c ≠ .state := by rintro rfl; exact absurd hc (by decide)
    exact ⟨_, rfl, fun _ => ⟨rfl, rfl, rfl, rfl, fun _ => ⟨rfl, rfl, rfl⟩, fun hf => absurd hf hfailed,
      fun hs => absurd hs hstate⟩⟩
  | failed =>
    exact ⟨_, rfl, fun _ => ⟨rfl, rfl, rfl, rfl, fun hm => absurd hm (by decide), fun _ => ⟨rfl, rfl, rfl⟩, nofun⟩⟩
  | encDone =>
    exact ⟨_, rfl, fun _ => ⟨rfl, rfl, rfl, rfl, fun hm => absurd hm (by decide), nofun,
      fun _ => ⟨rfl, .inl ⟨rfl, rfl⟩⟩⟩⟩
  | decDone =>
    exact ⟨_, rfl, fun _ => ⟨rfl, rfl, rfl, rfl, fun hm => absurd hm (by decide), nofun,
      fun _ => ⟨rfl, .inr ⟨rfl, rfl⟩⟩⟩⟩

/-! ## Units in DONE and ERROR (60_exceptions.md R223) -/

section
variable {i : Instr} {s t : State}

theorem exec_of_encDone (b : Byte) (hd : s.enc.eph = .done) :
    exec (.encPut b) s = .next s.rejectEncDone ∧ exec .encFinish s = .next s.rejectEncDone := by
  simp only [exec, execEncPut, execEncFinish, hd, and_self]

theorem exec_of_encError (b : Byte) (he : s.enc.eph = .error) :
    exec (.encPut b) s = .next (s.reject .failed) ∧ exec .encFinish s = .next (s.reject .failed) := by
  simp only [exec, execEncPut, execEncFinish, he, and_self]

theorem exec_of_decDone (b : Byte) (hd : s.dec.dph = .done) :
    exec (.decPut b) s = .next s.rejectDecDone ∧ exec .decFinish s = .next s.rejectDecDone := by
  simp only [exec, execDecPut, execDecFinish, hd, and_self]

theorem exec_of_decError (b : Byte) (he : s.dec.dph = .error) :
    exec (.decPut b) s = .next (s.reject .failed) ∧ exec .decFinish s = .next (s.reject .failed) := by
  simp only [exec, execDecPut, execDecFinish, he, and_self]

theorem exec_keeps_encError (hi : i ≠ .encReset) (he : s.enc.eph = .error) (h : exec i s = .next t) :
    t.enc.eph = .error := by
  cases i with
  | encReset => exact absurd rfl hi
  | encPut b => rw [(exec_of_encError b he).1] at h; cases h; exact he
  | encFinish => rw [(exec_of_encError 0#8 he).2] at h; cases h; exact he
  | nop | decReset | decPut | decFinish | pwdClear | pwdAppend | obf32 | rdreg =>
    obtain ⟨henc, -⟩ := (unitsAreIndependent _ s t h).1 rfl
    exact (congrArg Enc.eph henc).trans he

theorem exec_keeps_decError (hi : i ≠ .decReset) (he : s.dec.dph = .error) (h : exec i s = .next t) :
    t.dec.dph = .error := by
  cases i with
  | decReset => exact absurd rfl hi
  | decPut b => rw [(exec_of_decError b he).1] at h; cases h; exact he
  | decFinish => rw [(exec_of_decError 0#8 he).2] at h; cases h; exact he
  | nop | encReset | encPut | encFinish | pwdClear | pwdAppend | obf32 | rdreg =>
    obtain ⟨hdec, -⟩ := (unitsAreIndependent _ s t h).2.1 rfl
    exact (congrArg Dec.dph hdec).trans he

/-- What every command but one keeps, and every rejected word, a step ends only by that command or by power-on
reset. -/
theorem step_ends {P : State → Prop} (ender : Instr)
    (take : ∀ (s : State) (rest : List Input), P s → P { s with pending := rest })
    (command : ∀ (i : Instr) (s t : State), i ≠ ender → P s → exec i s = .next t → P t)
    (reject : ∀ (e : DecodeError) (s : State), P s → P (rejectWord e s))
    (h : step s = .next t) (hs : P s) (ht : ¬ P t) :
    ∃ rest, s.pending = .powerOn :: rest ∨ s.pending = .command (encode ender) :: rest := by
  obtain ⟨-, rfl⟩ | ⟨rest, hp, -⟩ | ⟨w, rest, i, hp, hw, hx⟩ | ⟨w, rest, e, -, -, rfl⟩ := step_next h
  · exact absurd hs ht
  · exact ⟨rest, .inl hp⟩
  · by_cases hi : i = ender
    · rw [← encode_of_decode hw, hi] at hp
      exact ⟨rest, .inr hp⟩
    · exact absurd (command i _ t hi (take s rest hs) hx) ht
  · exact absurd (reject e _ (take s rest hs)) ht

end

/-- Settles O31: the phase alone decides the answer, and of the unit's commands only its RESET writes the phase in
ERROR. -/
theorem finishedUnitAnswersStateThenFailed : Obligations.FinishedUnitAnswersStateThenFailed :=
  ⟨fun b _ => exec_of_encDone b, fun b _ => exec_of_encError b, fun b _ => exec_of_decDone b,
    fun b _ => exec_of_decError b,
    fun _ _ => step_ends (P := fun s => s.enc.eph = .error) .encReset (fun _ _ he => he)
      (fun _ _ _ => exec_keeps_encError) (fun _ _ he => he),
    fun _ _ => step_ends (P := fun s => s.dec.dph = .error) .decReset (fun _ _ he => he)
      (fun _ _ _ => exec_keeps_decError) (fun _ _ he => he)⟩

/-- Settles O7. -/
theorem blockHoldsItsStateBetweenCommands : Obligations.BlockHoldsItsStateBetweenCommands := by
  intro s hp
  rw [step, takeInput_nil hp]

end Sys2Proof.Machine
end

section
/-! Power-on reset (70_reset_and_hazards.md section 1): the input against the three resets, and the state it leaves
against the invariants. -/

namespace Sys2Proof.Machine

theorem step_of_powerOn {s : State} {rest : List Input} (hp : s.pending = .powerOn :: rest) :
    step s = .next { s with pending := rest }.powerOnReset := by
  rw [step, takeInput_cons hp]

/-- Settles O9: the three resets write all of the block's state but CMDERR, and beyond it only the responses. -/
theorem powerOnResetIsTheThreeResetsAndClearsCmderr : Obligations.PowerOnResetIsTheThreeResetsAndClearsCmderr :=
  fun _ _ hp => ⟨_, _, _, rfl, rfl, rfl, step_of_powerOn hp, rfl, rfl, rfl⟩

/-- Settles O53: each of the four parts holds of the reset values; only the password's needs PWD_MAX at least 1. -/
theorem powerOnStateIsSafe : Obligations.PowerOnStateIsSafe :=
  fun cfg hmax => ⟨canonical_powerOn cfg, Enc.safe_initial, Dec.inRange_initial,
    passwordOk_of_empty hmax rfl rfl rfl⟩

end Sys2Proof.Machine
end

section
/-! Words written out in the spec (30_encoding.md R82 to R84, 95_test_vectors.md sections 6 and 8): each listed word
of the opcode map is its command's encoding, so decoding undoes it, and a reserved word fails its format's check. -/

namespace Sys2Proof.Machine

/-- Settles O3. -/
theorem writtenWordsDecodeAsListed : Obligations.WrittenWordsDecodeAsListed :=
  ⟨decode_encode .nop, decode_encode .encReset, decode_encode (.encPut 0x41#8), decode_encode .encFinish,
    decode_encode .decReset, decode_encode (.decPut 0xEE#8), decode_encode .decFinish, decode_encode .pwdClear,
    decode_encode (.pwdAppend 0x6B#8), decode_encode (.obf32 0x736C6821#32), decode_encode (.rdreg 0x02#8),
    decode_of_reserved (op := 0x7F#8) 0#32 rfl,
    (decode_encPut 0x141#32).trans (decodeB_of_ne_zero (by decide) _),
    (decode_encReset 1#32).trans (decodeZ_of_ne_zero (by decide) _)⟩

end Sys2Proof.Machine
end
